-- ==== Sys2Proof/Word.lean ====
section
/-! DEFINITION. The plain words of RLC: bytes, 32-bit register words, pixels and the names of the memory spaces. -/

namespace Sys2Proof

/-- A byte (R7). -/
abbrev Byte := BitVec 8

/-- A 32-bit register or command word (R20, R71). -/
abbrev Word := BitVec 32

/-- A pixel: red, green, blue, alpha, in that order (R10). -/
structure Pixel where
  r : Byte
  g : Byte
  b : Byte
  a : Byte
  deriving DecidableEq, Repr

/-- The three memory spaces (R34). -/
inductive Space where
  | cbuf
  | lbuf
  | canvas
  deriving DecidableEq, Repr

end Sys2Proof
end

