-- ==== Sys2Proof/Config.lean ====
section
/-! DEFINITION. What is fixed for one instance of RLC (R6, R36) and the free values the spec leaves open (93 U6, U7). -/

namespace Sys2Proof

/-- The colours the palette is known to include (R32), and any further one. -/
inductive ColourName where
  | inkBlack
  | inkDarkGray
  | inkGray
  | markerBlack
  | markerDarkGray
  | markerGray
  | white
  | background
  | other
  deriving DecidableEq, Repr

/-- One recognised colour byte of the palette (R30). -/
structure PaletteEntry where
  code  : Byte
  name  : ColourName
  pixel : Pixel
  deriving DecidableEq, Repr

/-- The palette ROM (R30): the recognised codes; every other byte is unrecognised. -/
abbrev Palette := List PaletteEntry

/-- The parameters of one instance (R6). They are constants, not state of the spec (R36): State carries them in one
field that no step writes (log 1), so that a statement about every state is a statement about every instance. -/
structure Config where
  /-- MAXPIX: capacity of LBUF and of CANVAS in pixels. -/
  maxPix    : Nat
  /-- CBUF_SIZE: size of CBUF in bytes. -/
  cbufSize  : Nat
  /-- PALETTE. -/
  palette   : Palette
  /-- The model's own (R5, log 3): false, a DECODE is one transition; true, it is one micro-step a pair. -/
  pairSteps : Bool
  deriving DecidableEq, Repr

/-- FREE VALUE (93 U6, log 6): of instance `i`, the byte at an address of its LBUF or CANVAS that nothing has written
since its `n`-th reset. Different instances hold unrelated bytes. -/
opaque Config.resetByte : (i n : Nat) → Space → (a : Nat) → Byte

/-- FREE VALUE (93 U6, log 6): the byte at an address of CBUF that nothing has written since CBUF lost its content for the
`n`-th time. It names no instance: several may read one CBUF (R65). -/
opaque Config.cbufByte : (n a : Nat) → Byte

/-- FREE VALUE (93 U7, log 7): of instance `i`, the `n`-th unspecified byte drawn where the spec says "unspecified" of a
host access made while a command runs (R175). -/
opaque Config.freeByte : (i n : Nat) → Byte

end Sys2Proof
end

