-- ==== Sys2Proof/Syntax.lean ====
section
/-! DEFINITION. The instructions of both levels of RLC: one constructor per row of spec/opcode_table.json. -/

namespace Sys2Proof

/-- The pairs of the stream level (R75, R76) and the words of the command level (R79). -/
inductive Instr where
  /-- RUN (R100): colour byte, length code 0x00 to 0x7F. -/
  | run (c n : Byte)
  /-- HOLD (R102): colour byte, length code 0x80 to 0xFE. -/
  | hold (c n : Byte)
  /-- MAXRUN (R101): colour byte; its length code is 0xFF. -/
  | maxrun (c : Byte)
  /-- CONT (R103): colour byte, any length code. -/
  | cont (c n : Byte)
  /-- NOP (R120). -/
  | nop
  /-- CCLR (R121). -/
  | cclr
  /-- LCLR (R122). -/
  | lclr
  /-- DECODE (R123) with the PROTO field of its word. -/
  | decode (proto : Byte)
  /-- BLEND (R128). -/
  | blend
  /-- GRAY (R131). -/
  | gray
  deriving DecidableEq, Repr

/-- What carries an instruction: a pair of stream bytes (R70) or a command word (R71). -/
inductive Code where
  | pair (color len : Byte)
  | command (w : Word)
  deriving DecidableEq, Repr

end Sys2Proof
end

