-- ==== Sys2Proof/WellFormed.lean ====
section
/-! DEFINITION. Which instructions have an encoding. -/

namespace Sys2Proof

/-- An instruction whose operands its encoding can hold (R75): RUN has bit 7 of LEN clear; HOLD has it set and is not
0xFF, which is MAXRUN. Every operand of the others is encodable. -/
def Instr.wf : Instr → Bool
  | .run _ n => n.toNat < 0x80
  | .hold _ n => 0x80 ≤ n.toNat && n != 0xFF#8
  | .maxrun _ => true
  | .cont _ _ => true
  | .nop => true
  | .cclr => true
  | .lclr => true
  | .decode _ => true
  | .blend => true
  | .gray => true

/-- The decoding mode that selects an instruction (R74): `pending` is the colour of a pending holder, if any. CONT
needs a holder of its own colour; the other pairs are decoded under the normal rule; a command does not depend on it. -/
def Instr.selectedBy (pending : Option Byte) : Instr → Bool
  | .run c _ => pending != some c
  | .hold c _ => pending != some c
  | .maxrun c => pending != some c
  | .cont c _ => pending == some c
  | .nop => true
  | .cclr => true
  | .lclr => true
  | .decode _ => true
  | .blend => true
  | .gray => true

end Sys2Proof
end

