-- ==== Sys2Proof/Decode.lean ====
section
/-! DEFINITION. Decoding of pairs (R70, R74 to R76) and of command words (R71, R78, R79), and the encoder. -/

namespace Sys2Proof

/-- Why a word written to CMD is no command (R78, R154). -/
inductive DecodeError where
  /-- A bit of 7:4 or 31:16 is set. -/
  | mustBeZeroBitSet
  /-- PROTO is not 0 in a command other than DECODE. -/
  | protoOutsideDecode
  /-- OP is 6 to 15. -/
  | reservedOp
  deriving DecidableEq, Repr

/-- The normal rule (R75): MAXRUN is tested first, then bit 7 of the length code. -/
def decodeNormal (c n : Byte) : Instr :=
  if n = 0xFF#8 then .maxrun c
  else if n &&& 0x80#8 ≠ 0#8 then .hold c n
  else .run c n

/-- One pair under the decoding mode (R74): `pending` is the colour of the pending holder, if there is one. It never
refuses (R80). -/
def decodePair (pending : Option Byte) (c n : Byte) : Instr :=
  if pending = some c then .cont c n else decodeNormal c n

/-- OP, bits 3:0 of a command word (R71). -/
def opField (w : Word) : Nat := w.toNat % 16

/-- PROTO, bits 15:8 of a command word (R71). -/
def protoField (w : Word) : Byte := w.extractLsb' 8 8

/-- The must-be-zero bits 7:4 and 31:16 of a command word (R71) are zero. -/
def zeroBitsClear (w : Word) : Bool := w &&& 0xFFFF00F0#32 == 0#32

/-- A command that allows no PROTO (R71). -/
def withoutProto (w : Word) (i : Instr) : Except DecodeError Instr :=
  if protoField w = 0#8 then .ok i else .error .protoOutsideDecode

/-- A word written to CMD: the command of the row of R79 it matches exactly, or the reason it matches none. -/
def decodeCommand (w : Word) : Except DecodeError Instr :=
  if zeroBitsClear w then
    match opField w with
    | 0 => withoutProto w .nop
    | 1 => withoutProto w .cclr
    | 2 => withoutProto w .lclr
    | 3 => .ok (.decode (protoField w))
    | 4 => withoutProto w .blend
    | 5 => withoutProto w .gray
    | _ => .error .reservedOp
  else .error .mustBeZeroBitSet

/-- Decoding at both levels. -/
def decode (pending : Option Byte) : Code → Except DecodeError Instr
  | .pair c n => .ok (decodePair pending c n)
  | .command w => decodeCommand w

/-- The bytes or the word of an instruction, from the tables R75, R76 and R79. -/
def encode : Instr → Code
  | .run c n => .pair c n
  | .hold c n => .pair c n
  | .maxrun c => .pair c 0xFF#8
  | .cont c n => .pair c n
  | .nop => .command 0x00000000#32
  | .cclr => .command 0x00000001#32
  | .lclr => .command 0x00000002#32
  | .decode p => .command ((p.setWidth 32) <<< 8 ||| 3#32)
  | .blend => .command 0x00000004#32
  | .gray => .command 0x00000005#32

/-- The number of bits of an encoding (R70, R71). -/
def Code.width : Code → Nat
  | .pair _ _ => 16
  | .command _ => 32

/-- The word drawings of the spec: `COLOR | LEN << 8` for a pair (R70), the word itself for a command (R71). -/
def Code.bits : Code → Nat
  | .pair c n => c.toNat + 256 * n.toNat
  | .command w => w.toNat

/-- An encoding from its drawing: 16 bits are a pair, its colour byte first (R52, R70); 32 bits are a command word. -/
def Code.ofBits (nbits w : Nat) : Option Code :=
  if nbits = 16 then some (.pair (BitVec.ofNat 8 w) (BitVec.ofNat 8 (w / 256)))
  else if nbits = 32 then some (.command (BitVec.ofNat 32 w))
  else none

/-- The instruction the decoder reads from a word of the opcode table. A pair is read under the normal rule: no word
selects CONT, which only a pending holder selects (R76). -/
def decodeTableWord (nbits w : Nat) : Option Instr :=
  match Code.ofBits nbits (w % 2 ^ nbits) with
  | some k => (decode none k).toOption
  | none => none

end Sys2Proof
end

