-- ==== Sys2Proof/Machine/Params.lean ====
section
/-! DEFINITION. The palette as a function, the constraints on the parameters (R6, R30 to R32) and the default table (R33). -/

namespace Sys2Proof

/-- `PALETTE(c)` (R30): the entry of a recognised code, transparent black for every other byte. -/
def Palette.lookup (p : Palette) (c : Byte) : Pixel :=
  match p.find? (fun e => e.code == c) with
  | some e => e.pixel
  | none => ⟨0, 0, 0, 0⟩

/-- The eight colours that D0 names (R32 (a)). -/
def ColourName.required : List ColourName :=
  [.inkBlack, .inkDarkGray, .inkGray, .markerBlack, .markerDarkGray, .markerGray, .white, .background]

/-- The entries of two names all have one pixel (R32 (b)). -/
def Palette.samePixel (p : Palette) (m n : ColourName) : Bool :=
  p.all fun e => p.all fun f => !(e.name == m && f.name == n) || e.pixel == f.pixel

/-- The constraints of R30 to R32: each code once; the eight colours are there; ink and marker agree; the background is
transparent; 0x61 is ink black or marker black and is opaque black. -/
def Palette.legal (p : Palette) : Bool :=
  decide (p.map (·.code)).Nodup
    && ColourName.required.all (fun n => p.any (fun e => e.name == n))
    && p.samePixel .inkBlack .markerBlack
    && p.samePixel .inkDarkGray .markerDarkGray
    && p.samePixel .inkGray .markerGray
    && p.all (fun e => e.name != .background || e.pixel.a == 0)
    && p.any (fun e => e.code == 0x61#8 && (e.name == .inkBlack || e.name == .markerBlack)
        && e.pixel == ⟨0, 0, 0, 255⟩)

/-- The ranges R6 gives MAXPIX and CBUF_SIZE, and a legal palette. N_ENGINES belongs to a system: `System.legal`. -/
def Config.legal (c : Config) : Bool :=
  4915200 ≤ c.maxPix && c.maxPix ≤ 2 ^ 30 && c.cbufSize ≤ 2 ^ 32 && c.palette.legal

/-- DEFAULT_PALETTE (R33). Only the row of 0x61 is from the source; the rest is the spec's general knowledge. -/
def Palette.default : Palette :=
  [⟨0x61#8, .inkBlack, ⟨0x00#8, 0x00#8, 0x00#8, 0xFF#8⟩⟩,
   ⟨0x62#8, .background, ⟨0xFF#8, 0xFF#8, 0xFF#8, 0x00#8⟩⟩,
   ⟨0x63#8, .inkDarkGray, ⟨0x9D#8, 0x9D#8, 0x9D#8, 0xFF#8⟩⟩,
   ⟨0x64#8, .inkGray, ⟨0xC9#8, 0xC9#8, 0xC9#8, 0xFF#8⟩⟩,
   ⟨0x65#8, .white, ⟨0xFE#8, 0xFE#8, 0xFE#8, 0xFF#8⟩⟩,
   ⟨0x66#8, .markerBlack, ⟨0x00#8, 0x00#8, 0x00#8, 0xFF#8⟩⟩,
   ⟨0x67#8, .markerDarkGray, ⟨0x9D#8, 0x9D#8, 0x9D#8, 0xFF#8⟩⟩,
   ⟨0x68#8, .markerGray, ⟨0xC9#8, 0xC9#8, 0xC9#8, 0xFF#8⟩⟩]

/-- The parameters `State.reset` carries: MAXPIX and the palette are the spec's defaults (R6, R33). DESIGN CHOICE
(log 2): CBUF_SIZE 2^32, the largest it allows; (log 3): one transition a command. -/
def Config.default : Config :=
  { maxPix := 4915200, cbufSize := 2 ^ 32, palette := Palette.default, pairSteps := false }

end Sys2Proof
end

