-- ==== Sys2Proof/Machine/State.lean ====
section
/-! DEFINITION. The state of one RLC instance (10_state), the actions of its host, the reasons a step stops, reset. -/

namespace Sys2Proof.Machine

/-- A memory space: its written bytes, addresses strictly rising (R34, R50). An address not listed holds an unspecified
byte (R37): see `Memory.unlisted`. -/
abbrev Memory := List Host.Cell

/-- What an unlisted address holds: nothing the model knows (R37, 93 U6, log 6). So no listed byte equals it. -/
abbrev Memory.unlisted : Option Byte := none

/-- The canonical form: addresses strictly rising (and no entry equal to `Memory.unlisted`, which no byte is). -/
abbrev Memory.wf (m : Memory) : Prop := m.Pairwise (fun c d => c.1 < d.1)

/-- A range of bytes. -/
structure Span where
  base  : Nat
  len   : Nat
  deriving DecidableEq, Repr

/-- What the host can do (R20, R66, R170). -/
inductive HostAct where
  /-- Write a word to register `x[i]` (offset `4 * i`); a write to `x[0]`, CMD, starts a command (R21). -/
  | writeReg (i : Nat) (v : Word)
  /-- Read register `x[i]`. -/
  | readReg (i : Nat)
  /-- Write bytes to a space, the first at `addr` (R66). -/
  | writeMem (sp : Space) (addr : Nat) (bytes : List Byte)
  /-- Read `n` bytes of a space from `addr` (R66). -/
  | readMem (sp : Space) (addr n : Nat)
  /-- Write the word to CMD if the host's last read was a STATUS with FAULT 0: its test in the page sequence (R136,
  log 19). -/
  | writeCmdUnlessFault (w : Word)
  /-- Assert reset (R170). -/
  | reset
  deriving DecidableEq, Repr

/-- When the host acts (log 4). -/
inductive Timing where
  /-- As R63 asks: while BUSY is 0. -/
  | whenIdle
  /-- While BUSY is 1, after `k` more micro-steps of the engine; at once if BUSY is 0. -/
  | during (k : Nat)
  deriving DecidableEq, Repr

/-- One pending action of the host. -/
structure HostEvent where
  timing : Timing
  act    : HostAct
  deriving DecidableEq, Repr

/-- What one host read returned (log 5). -/
inductive Response where
  | word (v : Word)
  | bytes (bs : List Byte)
  deriving DecidableEq, Repr

/-- The state of one instance. NPIX, the budget and the HOLDV copy are computed; CMD holds nothing (R21, R22, R24, R91). -/
structure State where
  /-- The instance's parameters: constant (R36, log 1). -/
  cfg       : Config
  -- STATUS (R22)
  busy      : Bool
  done      : Bool
  fault     : Bool
  busyErr   : Bool
  clip      : Bool
  odd       : Bool
  under     : Bool
  tailf     : Bool
  -- configuration registers (R23)
  pageW     : BitVec 16
  pageH     : BitVec 16
  srcAddr   : Word
  srcLen    : Word
  -- the decoder's working registers (R25, R26, R27)
  rdptr     : Word
  cursor    : Word
  holdV     : Bool
  holdC     : Byte
  holdN     : Byte
  -- CAUSE (R28)
  causeCode : BitVec 4
  warnCnt   : Byte
  -- memories (R34)
  cbuf      : Memory
  lbuf      : Memory
  canvas    : Memory
  -- the model's own
  /-- Which instance of its system this is (R65): indexes its free values only; no rule reads it (log 6). -/
  ident     : Nat
  /-- How many resets there were: indexes the free contents of LBUF and CANVAS (log 6). -/
  resets    : Nat
  /-- How often CBUF lost its content: indexes its free content (log 6). -/
  cbufResets : Nat
  /-- How many free bytes were drawn (log 7). -/
  drawn     : Nat
  /-- Ranges of LBUF the host wrote while the DECODE runs: unspecified when it ends (R175, log 8). -/
  poison    : List Span
  /-- Ranges of CBUF the host wrote while the DECODE runs: what it derives from them is unspecified when it ends (R175,
  log 8). -/
  tampered  : List Span
  /-- The host's pending actions, oldest first (log 4). -/
  inputs    : List HostEvent
  /-- What the host's reads returned, the last first (log 5). -/
  responses : List Response
  deriving DecidableEq, Repr

/-- The reasons the machine stops. The faults of the spec (R150) are not among them: they are next states. -/
inductive Fault where
  /-- A host access to an address outside its memory space (R58). Raised by `hostWriteMem`, `hostReadMem`. Safe: the
  spec gives such an access no effect (log 11). -/
  | noSuchAddress
  /-- A running DECODE whose stream or page does not lie inside its space, which its checks exclude (R59). Raised by
  `engineStep`, in no state that a run reaches. Safe (log 12). -/
  | outsideSpaces
  deriving DecidableEq, Repr

/-- The reasons a step has no meaning. -/
inductive Refusal where
  /-- An instruction not modelled yet. Raised by an arm of `exec` only; none does. Safe. -/
  | notModelled (mnemonic : String)
  deriving DecidableEq, Repr

/-- An instance right after power-on: registers 0, memories unspecified (R37, R170), no input pending (log 4). -/
def State.powerOn (cfg : Config) : State where
  cfg := cfg
  busy := false
  done := false
  fault := false
  busyErr := false
  clip := false
  odd := false
  under := false
  tailf := false
  pageW := 0
  pageH := 0
  srcAddr := 0
  srcLen := 0
  rdptr := 0
  cursor := 0
  holdV := false
  holdC := 0
  holdN := 0
  causeCode := 0
  warnCnt := 0
  cbuf := []
  lbuf := []
  canvas := []
  ident := 0
  resets := 0
  cbufResets := 0
  drawn := 0
  poison := []
  tampered := []
  inputs := []
  responses := []

/-- The machine right after reset (R37), with the default parameters (log 2). -/
def State.reset : State := State.powerOn Config.default

end Sys2Proof.Machine
end

