-- ==== Sys2Proof/Machine/Flags.lean ====
section
/-! DEFINITION. The flags of STATUS (R22, R29) and the words the host reads from STATUS, HOLD and CAUSE (R22, R27, R28). -/

namespace Sys2Proof.Machine

/-- CLIP after an emission of `count` pixels of which `written` were written (R29, R97). -/
def clipAfter (old : Bool) (written count : Nat) : Bool := old || decide (written < count)

/-- ODD of a DECODE (R29, R125). -/
def oddOf (srcLen : Nat) : Bool := srcLen % 2 == 1

/-- UNDER of a DECODE (R29, R126). -/
def underOf (cursor npix : Nat) : Bool := decide (cursor < npix)

/-- STATUS as a word (R22); bit 8 is the copy of HOLD_V; bits 31:9 read 0. -/
def State.statusWord (s : State) : Word :=
  BitVec.ofNat 32 (s.busy.toNat + 2 * s.done.toNat + 4 * s.fault.toNat + 8 * s.busyErr.toNat + 16 * s.clip.toNat
    + 32 * s.odd.toNat + 64 * s.under.toNat + 128 * s.tailf.toNat + 256 * s.holdV.toNat)

/-- HOLD as a word (R27); bits 31:17 read 0. -/
def State.holdWord (s : State) : Word :=
  BitVec.ofNat 32 (s.holdC.toNat + 256 * s.holdN.toNat + 65536 * s.holdV.toNat)

/-- CAUSE as a word (R28); bits 7:4 and 31:16 read 0. -/
def State.causeWord (s : State) : Word :=
  BitVec.ofNat 32 (s.causeCode.toNat + 256 * s.warnCnt.toNat)

/-- The four decode flags cleared at the start of a DECODE (R124). -/
def State.clearDecodeFlags (s : State) : State :=
  { s with clip := false, odd := false, under := false, tailf := false }

end Sys2Proof.Machine
end

