-- ==== Sys2Proof/Machine/Operands.lean ====
section
/-! DEFINITION. Operand assembly (R77), rounding (R11) and the pixel arithmetic of BLEND and GRAY (R129, R132). -/

namespace Sys2Proof.Machine

/-- `m(h)` (R77): the seven magnitude bits of a stashed length code, biased by one. -/
def magnitude (h : Byte) : Nat := (h &&& 0x7F#8).toNat + 1

/-- `len_run` (R77). -/
def lenRun (n : Byte) : Nat := n.toNat + 1

/-- `len_max` (R77). -/
def lenMax : Nat := 0x4000

/-- `len_ext` (R77): the standalone extended run. -/
def lenExt (h : Byte) : Nat := magnitude h <<< 7

/-- `len_cont` (R77): the multi-byte continuation rule. -/
def lenCont (h n : Byte) : Nat := 1 + n.toNat + (magnitude h <<< 7)

/-- The candidates of TAIL in the order they are tried (R106): shifts 7 down to 0. -/
def tailCandidates (h : Byte) : List Nat :=
  [7, 6, 5, 4, 3, 2, 1, 0].map (fun s => magnitude h <<< s)

/-- `len_tail` (R77, R106): the first candidate that fits the budget, or 0. -/
def lenTail (h : Byte) (budget : Nat) : Nat :=
  ((tailCandidates h).find? (fun k => decide (k ≤ budget))).getD 0

/-- `rdiv` (R11): the quotient rounded to nearest, a tie up. -/
def rdiv (a b : Nat) : Nat := (2 * a + b) / (2 * b)

/-- The four bytes of a pixel, lowest address first (R51). -/
def pixelBytes (p : Pixel) : List Byte := [p.r, p.g, p.b, p.a]

/-- Lane `i` of a pixel in memory order: 0 red, 1 green, 2 blue, otherwise alpha (R51). -/
def pixelLane (p : Pixel) : Nat → Byte
  | 0 => p.r
  | 1 => p.g
  | 2 => p.b
  | _ => p.a

/-- The pixel drawn as a 32-bit little-endian word (R51). -/
def pixelWord (p : Pixel) : Word :=
  BitVec.ofNat 32 (p.r.toNat + 256 * p.g.toNat + 65536 * p.b.toNat + 16777216 * p.a.toNat)

/-- `NA` of R129: 255 times the exact output alpha. -/
def overAlpha (sa da : Nat) : Nat := 255 * sa + da * (255 - sa)

/-- `NC` of R129 for one colour lane. -/
def overLane (sc sa dc da : Nat) : Nat := 255 * sc * sa + dc * da * (255 - sa)

/-- `over` (R129): source over destination, three cases. -/
def overPixel (s d : Pixel) : Pixel :=
  if s.a = 0#8 then d
  else if s.a = 255#8 then ⟨s.r, s.g, s.b, 255#8⟩
  else
    let na := overAlpha s.a.toNat d.a.toNat
    let lane := fun (sc dc : Byte) => BitVec.ofNat 8 (rdiv (overLane sc.toNat s.a.toNat dc.toNat d.a.toNat) na)
    ⟨lane s.r d.r, lane s.g d.g, lane s.b d.b, BitVec.ofNat 8 (rdiv na 255)⟩

/-- `luma` (R132). -/
def luma (r g b : Byte) : Byte :=
  BitVec.ofNat 8 (rdiv (299 * r.toNat + 587 * g.toNat + 114 * b.toNat) 1000)

/-- What GRAY writes for a pixel (R131). -/
def grayPixel (p : Pixel) : Pixel :=
  let y := luma p.r p.g p.b
  ⟨y, y, y, p.a⟩

/-- Raster order, for a consumer of CANVAS (R53; general knowledge, no rule uses it): column and row of pixel `p`. -/
def rasterPosition (w p : Nat) : Nat × Nat := (p % w, p / w)

end Sys2Proof.Machine
end

