-- ==== Sys2Proof/Machine/Ops.lean ====
section
/-! DEFINITION. The named operations over memories and registers, the command frame and fault entry. -/

namespace Sys2Proof.Machine

/-! ### Memory -/

/-- One byte of a memory, if it has been written. -/
def Memory.get : Memory → Nat → Option Byte
  | [], _ => Memory.unlisted
  | (b, v) :: t, a => if b = a then some v else Memory.get t a

/-- Bytes laid out from an address. -/
def Memory.cells (a : Nat) : List Byte → Memory
  | [] => []
  | b :: bs => (a, b) :: Memory.cells (a + 1) bs

/-- `MemWrite` (R9): the bytes from address `a` on. -/
def Memory.write (m : Memory) (a : Nat) (bs : List Byte) : Memory :=
  m.filter (fun c => decide (c.1 < a)) ++ (Memory.cells a bs ++ m.filter (fun c => decide (a + bs.length ≤ c.1)))

/-- `PixWrite` (R10). -/
def Memory.writePixel (m : Memory) (p : Nat) (px : Pixel) : Memory := m.write (4 * p) (pixelBytes px)

/-- The bytes of `k` equal pixels. -/
def pixelRun (k : Nat) (px : Pixel) : List Byte := (List.replicate k (pixelBytes px)).flatten

/-- `PixWrite` of one pixel at the indices `p .. p + k - 1`. -/
def Memory.fillPixels (m : Memory) (p k : Nat) (px : Pixel) : Memory := m.write (4 * p) (pixelRun k px)

/-- `PixWrite` if there is a pixel to write. -/
def Memory.writeIf (m : Memory) (p : Nat) : Option Pixel → Memory
  | some px => m.writePixel p px
  | none => m

/-- `PixWrite` of `f p` at each index `p < n` for which `f p` is a pixel, in ascending order. -/
def Memory.writePixels (m : Memory) (n : Nat) (f : Nat → Option Pixel) : Memory :=
  (List.range n).foldl (fun m p => m.writeIf p (f p)) m

/-- The content of a space. -/
def State.mem (s : State) : Space → Memory
  | .cbuf => s.cbuf
  | .lbuf => s.lbuf
  | .canvas => s.canvas

/-- Replace the content of a space. -/
def State.setMem (s : State) (sp : Space) (m : Memory) : State :=
  match sp with
  | .cbuf => { s with cbuf := m }
  | .lbuf => { s with lbuf := m }
  | .canvas => { s with canvas := m }

/-- The size of a space in bytes (R34). -/
def spaceSize (c : Config) : Space → Nat
  | .cbuf => c.cbufSize
  | .lbuf => 4 * c.maxPix
  | .canvas => 4 * c.maxPix

/-- What a byte holds that nothing has written since the last reset: a free value (R37, log 6). -/
def State.unwritten (s : State) (sp : Space) (a : Nat) : Byte :=
  match sp with
  | .cbuf => Config.cbufByte s.cbufResets a
  | .lbuf => Config.resetByte s.ident s.resets .lbuf a
  | .canvas => Config.resetByte s.ident s.resets .canvas a

/-- `MemRead` of one byte (R9). -/
def State.byteAt (s : State) (sp : Space) (a : Nat) : Byte := ((s.mem sp).get a).getD (s.unwritten sp a)

/-- `PixRead` (R10, R51). -/
def State.pixelAt (s : State) (sp : Space) (p : Nat) : Pixel :=
  ⟨s.byteAt sp (4 * p), s.byteAt sp (4 * p + 1), s.byteAt sp (4 * p + 2), s.byteAt sp (4 * p + 3)⟩

/-- The `n` next free bytes (log 7). -/
def State.freshBytes (s : State) (n : Nat) : List Byte :=
  (List.range n).map (fun i => Config.freeByte s.ident (s.drawn + i))

/-- Fill a range with fresh free bytes: the spec leaves them unspecified (R175, log 7). -/
def State.scramble (s : State) (sp : Space) (r : Span) : State :=
  { s.setMem sp ((s.mem sp).write r.base (s.freshBytes r.len)) with drawn := s.drawn + r.len }

/-! ### Computed state -/

/-- NPIX (R24). -/
def State.npix (s : State) : Nat := s.pageW.toNat * s.pageH.toNat

/-- The budget (R91). -/
def State.budget (s : State) : Nat := s.npix - s.cursor.toNat

/-- The colour of the pending holder, if one is pending (R27, R74). -/
def State.pending (s : State) : Option Byte := if s.holdV then some s.holdC else none

/-! ### The stream level's primitives -/

/-- Emit (R97): write a run at the cursor, clipped at NPIX. -/
def State.emit (s : State) (c : Byte) (count : Nat) : State :=
  let k := min count s.budget
  { s with
    lbuf := s.lbuf.fillPixels s.cursor.toNat k (s.cfg.palette.lookup c)
    clip := clipAfter s.clip k count
    cursor := BitVec.ofNat 32 (s.cursor.toNat + k) }

/-- Clear HOLD_V (R99). -/
def State.clearHolder (s : State) : State := { s with holdV := false }

/-- Stash a pair as the holder (R102). -/
def State.stash (s : State) (c n : Byte) : State := { s with holdV := true, holdC := c, holdN := n }

/-- FLUSH (R104), when a holder is pending: it was a standalone extended run. -/
def State.flush (s : State) : State :=
  if s.holdV then s.clearHolder.emit s.holdC (lenExt s.holdN) else s

/-- The normal rule of the pair step (R99). -/
def State.normalRule (s : State) (c n : Byte) : State :=
  if n = 0xFF#8 then s.emit c 0x4000
  else if n &&& 0x80#8 ≠ 0#8 then s.stash c n
  else s.emit c (n.toNat + 1)

/-- The pair step, as R99 writes it. -/
def State.pairStep (s : State) (c n : Byte) : State :=
  if s.holdV then
    if c = s.holdC then s.clearHolder.emit c (lenCont s.holdN n)
    else (s.clearHolder.emit s.holdC (lenExt s.holdN)).normalRule c n
  else s.normalRule c n

/-- The colour byte fetch reads (R90). -/
def State.fetchedColour (s : State) : Byte := s.byteAt .cbuf (s.srcAddr.toNat + s.rdptr.toNat)

/-- The length code fetch reads (R90). -/
def State.fetchedLength (s : State) : Byte := s.byteAt .cbuf (s.srcAddr.toNat + s.rdptr.toNat + 1)

/-- Fetch's post-increment of RDPTR (R90). -/
def State.advance (s : State) : State := { s with rdptr := s.rdptr + 2#32 }

/-- TAIL (R106). -/
def State.tail (s : State) : State :=
  if s.holdV then { s with tailf := true }.emit s.holdC (lenTail s.holdN s.budget) |>.clearHolder else s

/-! ### The command frame and fault entry -/

/-- The causes of R150. -/
inductive Cause where
  | illcmd
  | dim
  | proto
  | addr
  deriving DecidableEq, Repr

/-- The cause codes of R150. -/
def Cause.code : Cause → BitVec 4
  | .illcmd => 1
  | .dim => 2
  | .proto => 3
  | .addr => 4

/-- The frame's first line (R135). -/
def State.beginCommand (s : State) : State := { s with busy := true, done := false, fault := false }

/-- The frame's last line (R135). -/
def State.endCommand (s : State) : State := { s with busy := false, done := true }

/-- WARNCNT plus one, saturating at 255 (R28, R155). -/
def warnSucc (v : Byte) : Byte := BitVec.ofNat 8 (min 255 (v.toNat + 1))

/-- Fault entry (R155): TAKING AN EXCEPTION. `op3` says that the command word has OP 3. -/
def State.raise (s : State) (op3 : Bool) (cause : Cause) : State :=
  { s with
    causeCode := cause.code
    warnCnt := if op3 && cause != .illcmd then warnSucc s.warnCnt else s.warnCnt
    fault := true
    busy := false
    done := true }

/-- The command frame (R135): the first failed check ends the command, else its body runs. -/
def State.runCommand (s : State) (op3 : Bool) (failed : Option Cause) (body : State → State) : State :=
  match failed with
  | some cause => s.beginCommand.raise op3 cause
  | none => body s.beginCommand

/-- The frame's check of the page size (R135, R151). -/
def State.pageCheck (s : State) : Option Cause :=
  if s.cfg.maxPix < s.npix then some .dim else none

/-- The frame's checks of a DECODE, in their order (R135, R157): DIM, PROTO, ADDR. -/
def State.decodeCheck (s : State) (proto : Byte) : Option Cause :=
  if s.cfg.maxPix < s.npix then some .dim
  else if proto ≠ 0#8 then some .proto
  else if s.cfg.cbufSize < s.srcAddr.toNat + s.srcLen.toNat then some .addr
  else none

/-! ### The body of DECODE -/

/-- Part 1 (R124). A new DECODE owes nothing to an earlier one's host accesses. -/
def State.decodeInit (s : State) : State :=
  { s.clearDecodeFlags with rdptr := 0, cursor := 0, holdV := false, poison := [], tampered := [] }

/-- Part 2 (R125), `n` rounds of the loop: fetch a pair, step it. -/
def State.pairLoop : Nat → State → State
  | 0, s => s
  | n + 1, s => State.pairLoop n (s.advance.pairStep s.fetchedColour s.fetchedLength)

/-- The lone last byte (R125) and part 3 (R126). -/
def State.decodeTail (s : State) : State :=
  let t := { s with odd := s.odd || oddOf s.srcLen.toNat }.tail
  { t with under := t.under || underOf t.cursor.toNat t.npix }

/-! ### What a DECODE derives from stream bytes that the host writes meanwhile (R175, log 8)

A byte of LBUF is derived from them if what the step that emits it writes there can depend on them. Each pair step (R99) is
judged by its outcomes for all values of the written bytes; from one step to the next dependence is carried by HOLD_C, or
by the cursor and with it by all later emissions. -/

/-- Whether the host wrote the stream byte at offset `o` while the DECODE runs. -/
def State.written (s : State) (o : Nat) : Bool :=
  s.tampered.any (fun r => decide (r.base ≤ s.srcAddr.toNat + o ∧ s.srcAddr.toNat + o < r.base + r.len))

/-- The bytes of LBUF of `k` pixels from pixel `p` on, cut at pixel `last`. -/
def pixelSpan (last p k : Nat) : Span := ⟨4 * p, 4 * (min (p + k) last - p)⟩

/-- How many pixels at the cursor take a pending holder's colour, whether the next pair continues it or flushes it
(R103, R104). -/
def State.heldLen (s : State) : Nat := if s.holdV then lenExt s.holdN else 0

/-- Whether a written byte decides if the next pair is CONT (R76): its colour byte, or, as `held` says, HOLD_C. -/
def State.wayWritten (s : State) (held : Bool) : Bool := s.holdV && (held || s.written s.rdptr.toNat)

/-- How many pixels of the next pair's colour follow the holder's, whatever the written bytes hold: the least of the
outcomes that are left (R99). -/
def State.sureLen (s : State) (held : Bool) : Nat :=
  if s.written (s.rdptr.toNat + 1) then
    if s.holdV && !s.wayWritten held && s.fetchedColour == s.holdC then 1 else 0
  else if s.fetchedLength = 0xFF#8 then if s.holdV then 256 else 0x4000
  else if s.fetchedLength &&& 0x80#8 ≠ 0#8 then 0
  else s.fetchedLength.toNat + 1

/-- Whether the cursor after the next pair, or whether a holder is then pending, depends on written bytes. A RUN leaves
both the same as CONT and after a FLUSH: `len_cont` is then `len_ext + len_run`. -/
def State.placeLost (s : State) (held : Bool) : Bool :=
  s.written (s.rdptr.toNat + 1) || s.wayWritten held && s.fetchedLength &&& 0x80#8 != 0#8

/-- The derived bytes of the `n` pairs left and TAIL, in a DECODE that ends with the cursor at `last`. -/
def State.derivedLoop (last : Nat) : Nat → Bool → State → List Span
  | 0, held, s => if s.holdV && held then [pixelSpan last s.cursor.toNat last] else []
  | n + 1, held, s =>
    let p := s.cursor.toNat
    let q := p + s.heldLen
    (if s.holdV && held then [pixelSpan last p s.heldLen] else [])
      ++ ((if s.written s.rdptr.toNat then [pixelSpan last q (s.sureLen held)] else [])
      ++ (if s.placeLost held then [pixelSpan last (q + s.sureLen held) last]
        else State.derivedLoop last n (s.written s.rdptr.toNat) (s.advance.pairStep s.fetchedColour s.fetchedLength)))

/-- The bytes of LBUF that a DECODE ending with the cursor at `last` derived from stream bytes the host wrote meanwhile. -/
def State.derivedSpans (s : State) (last : Nat) : List Span :=
  match s.tampered with
  | [] => []
  | _ :: _ => State.derivedLoop last (s.srcLen.toNat / 2) false { s.decodeInit with tampered := s.tampered }

/-- What R175 leaves unspecified in LBUF at DONE. -/
def State.applyPoison (s : State) : State :=
  { (s.derivedSpans s.cursor.toNat ++ s.poison).foldl (fun t r => t.scramble .lbuf r) s with poison := [], tampered := [] }

/-- The end of a DECODE: R125's last line, R126, the frame's end, R175. -/
def State.finishDecode (s : State) : State := s.decodeTail.endCommand.applyPoison

/-- Whether a DECODE stays inside its spaces, as its checks made sure (R59). -/
def State.fits (s : State) : Bool :=
  s.npix ≤ s.cfg.maxPix && s.srcAddr.toNat + s.srcLen.toNat ≤ s.cfg.cbufSize

/-! ### Reset -/

/-- Reset (R170, R171): registers 0, memories unspecified; the parameters and the host's further plans stay (log 16).
Of a CBUF that several instances read the spec does not say whether the reset of one makes it unspecified: here it does,
for all of them (DESIGN CHOICE, log 22; `System.stepAt`). -/
def State.afterReset (s : State) : State :=
  { State.powerOn s.cfg with
    ident := s.ident, resets := s.resets + 1, cbufResets := s.cbufResets + 1, drawn := s.drawn
    inputs := s.inputs, responses := s.responses }

/-! ### The host's register window -/

/-- A host read of `x[i]` (R20 to R28); above 0x24 it reads 0 (R20, log 9). -/
def State.readReg (s : State) : Nat → Word
  | 0 => 0
  | 1 => s.statusWord
  | 2 => s.pageW.setWidth 32
  | 3 => s.pageH.setWidth 32
  | 4 => s.srcAddr
  | 5 => s.srcLen
  | 6 => s.rdptr
  | 7 => s.cursor
  | 8 => s.holdWord
  | 9 => s.causeWord
  | _ => 0

/-- A configuration write: taken while BUSY is 0, else dropped, setting BUSYERR (R23, R176). -/
def State.unlessBusy (s : State) (t : State) : State := if s.busy then { s with busyErr := true } else t

/-- A host write of `x[i]` other than CMD (R20 to R23, R176); read-only registers and offsets above 0x24 ignore it. -/
def State.writeReg (s : State) (i : Nat) (v : Word) : State :=
  match i with
  | 1 => { s with busyErr := s.busyErr && !v.getLsbD 3 }
  | 2 => s.unlessBusy { s with pageW := v.setWidth 16 }
  | 3 => s.unlessBusy { s with pageH := v.setWidth 16 }
  | 4 => s.unlessBusy { s with srcAddr := v }
  | 5 => s.unlessBusy { s with srcLen := v }
  | _ => s

/-! ### The host's memory port -/

/-- The bytes the running DECODE may write (R175). -/
def State.mayBeWritten (s : State) (sp : Space) (a : Nat) : Bool :=
  s.busy && sp == .lbuf && decide (a < 4 * s.npix)

/-- A host read of one byte, the `i`-th of its access: unspecified if the running command may write it (R175). -/
def State.hostByte (s : State) (sp : Space) (a i : Nat) : Byte :=
  if s.mayBeWritten sp a then Config.freeByte s.ident (s.drawn + i) else s.byteAt sp a

/-- A host read of `n` bytes. -/
def State.hostRead (s : State) (sp : Space) (a n : Nat) : State :=
  { s with
    responses := .bytes ((List.range n).map (fun i => s.hostByte sp (a + i) i)) :: s.responses
    drawn := if s.busy then s.drawn + n else s.drawn }

/-- Bytes of a space were written while a DECODE runs: what that leaves unspecified at its end (R175, log 8). -/
def State.noteWrite (s : State) (sp : Space) (r : Span) : State :=
  match sp with
  | .cbuf => { s with tampered := s.tampered ++ [r] }
  | .lbuf => { s with poison := s.poison ++ [r] }
  | .canvas => s

/-- A host write of bytes (R66); while a command runs it leaves them unspecified (R175). -/
def State.hostWrite (s : State) (sp : Space) (a : Nat) (bs : List Byte) : State :=
  if s.busy then (s.scramble sp ⟨a, bs.length⟩).noteWrite sp ⟨a, bs.length⟩
  else s.setMem sp ((s.mem sp).write a bs)

/-- Whether the host's last read returned a word with bit 2 clear: a STATUS with FAULT 0 (R22, R136). -/
def State.readNoFault (s : State) : Bool :=
  match s.responses with
  | .word v :: _ => !v.getLsbD 2
  | _ => false

end Sys2Proof.Machine
end

