-- ==== Sys2Proof/Machine/Command.lean ====
section
/-! DEFINITION. The meanings of NOP, CCLR, LCLR and DECODE (41_commands), each inside the frame of R135. -/

namespace Sys2Proof.Machine

/-- NOP (R120): an empty body; no check. -/
def execNop (s : State) : Host.Outcome State Fault Refusal :=
  .next (s.runCommand false none State.endCommand)

/-- The body of CCLR (R121). -/
def State.cclrBody (s : State) : State :=
  { s with canvas := s.canvas.fillPixels 0 s.npix ⟨255, 255, 255, 255⟩, warnCnt := 0 }

/-- CCLR (R121). -/
def execCclr (s : State) : Host.Outcome State Fault Refusal :=
  .next (s.runCommand false s.pageCheck (fun t => t.cclrBody.endCommand))

/-- The body of LCLR (R122). -/
def State.lclrBody (s : State) : State :=
  { s with lbuf := s.lbuf.fillPixels 0 s.npix ⟨0, 0, 0, 0⟩ }

/-- LCLR (R122). -/
def execLclr (s : State) : Host.Outcome State Fault Refusal :=
  .next (s.runCommand false s.pageCheck (fun t => t.lclrBody.endCommand))

/-- The whole body of DECODE (R124, R125, R126) with the frame's end: one transition (R5). -/
def State.decodeBody (s : State) : State :=
  (State.pairLoop (s.srcLen.toNat / 2) s.decodeInit).finishDecode

/-- DECODE (R123). Stepped pair by pair (R5, log 3) it ends after R124 with BUSY 1, and the engine's micro-steps follow;
else it is the whole command. -/
def execDecode (proto : Byte) (s : State) : Host.Outcome State Fault Refusal :=
  .next (s.runCommand true (s.decodeCheck proto) (fun t => if t.cfg.pairSteps then t.decodeInit else t.decodeBody))

end Sys2Proof.Machine
end

