-- ==== Sys2Proof/Machine/Compositor.lean ====
section
/-! DEFINITION. The meanings of BLEND and GRAY (41_commands), each inside the frame of R135. Pixel `p` of the result
depends on pixel `p` of the memories before the command only (R134, log 18). -/

namespace Sys2Proof.Machine

/-- What BLEND writes at pixel `p` (R128): nothing where the source is fully transparent. -/
def State.blendAt (s : State) (p : Nat) : Option Pixel :=
  if (s.pixelAt .lbuf p).a = 0#8 then none
  else some (overPixel (s.pixelAt .lbuf p) (s.pixelAt .canvas p))

/-- The body of BLEND (R128). -/
def State.blendBody (s : State) : State := { s with canvas := s.canvas.writePixels s.npix s.blendAt }

/-- BLEND (R128). -/
def execBlend (s : State) : Host.Outcome State Fault Refusal :=
  .next (s.runCommand false s.pageCheck (fun t => t.blendBody.endCommand))

/-- The body of GRAY (R131). -/
def State.grayBody (s : State) : State :=
  { s with canvas := s.canvas.writePixels s.npix (fun p => some (grayPixel (s.pixelAt .canvas p))) }

/-- GRAY (R131). -/
def execGray (s : State) : Host.Outcome State Fault Refusal :=
  .next (s.runCommand false s.pageCheck (fun t => t.grayBody.endCommand))

end Sys2Proof.Machine
end

