-- ==== Sys2Proof/Machine/Stream.lean ====
section
/-! DEFINITION. The meanings of the four pairs (40_rle_stream). The fetch (R90) is the step's; no pair faults (R109). -/

namespace Sys2Proof.Machine

/-- RUN (R100), after the FLUSH of a pending holder (R104). -/
def execRun (c n : Byte) (s : State) : Host.Outcome State Fault Refusal := .next (s.flush.emit c (lenRun n))

/-- HOLD (R102), after the FLUSH of a pending holder (R104). -/
def execHold (c n : Byte) (s : State) : Host.Outcome State Fault Refusal := .next (s.flush.stash c n)

/-- MAXRUN (R101), after the FLUSH of a pending holder (R104). -/
def execMaxrun (c : Byte) (s : State) : Host.Outcome State Fault Refusal := .next (s.flush.emit c lenMax)

/-- CONT (R103). -/
def execCont (c n : Byte) (s : State) : Host.Outcome State Fault Refusal :=
  .next (s.clearHolder.emit c (lenCont s.holdN n))

end Sys2Proof.Machine
end

