-- ==== Sys2Proof/Machine/Dispatch.lean ====
section
/-! DEFINITION. What each instruction does: one arm per constructor. -/

namespace Sys2Proof.Machine

def exec (i : Instr) (s : State) : Host.Outcome State Fault Refusal :=
  match i with
  | .run c n => Sys2Proof.Machine.execRun c n s
  | .hold c n => Sys2Proof.Machine.execHold c n s
  | .maxrun c => Sys2Proof.Machine.execMaxrun c s
  | .cont c n => Sys2Proof.Machine.execCont c n s
  | .nop => Sys2Proof.Machine.execNop s
  | .cclr => Sys2Proof.Machine.execCclr s
  | .lclr => Sys2Proof.Machine.execLclr s
  | .decode p => Sys2Proof.Machine.execDecode p s
  | .blend => Sys2Proof.Machine.execBlend s
  | .gray => Sys2Proof.Machine.execGray s

end Sys2Proof.Machine
end

