-- ==== Sys2Proof/Machine/HostPort.lean ====
section
/-! DEFINITION. Who moves next and what it does: the host's actions, the engine's micro-step, placing an instruction. -/

namespace Sys2Proof.Machine

/-! ### The host -/

/-- A write to CMD (R21, R135): dropped while BUSY (R176); a word that is no command faults with ILLCMD (R154). -/
def writeCommand (w : Word) (s : State) : Host.Outcome State Fault Refusal :=
  if s.busy then .next { s with busyErr := true }
  else match decodeCommand w with
    | .ok i => exec i s
    | .error _ => .next (s.runCommand (opField w == 3) (some .illcmd) id)

/-- A host write to the register window (R20). -/
def hostWriteReg (i : Nat) (v : Word) (s : State) : Host.Outcome State Fault Refusal :=
  if i = 0 then writeCommand v s else .next (s.writeReg i v)

/-- A host write to a memory space (R66); outside the space the address does not exist (R58, log 11). -/
def hostWriteMem (sp : Space) (a : Nat) (bs : List Byte) (s : State) : Host.Outcome State Fault Refusal :=
  if a + bs.length ≤ spaceSize s.cfg sp then .next (s.hostWrite sp a bs) else .fault .noSuchAddress

/-- A host read of a memory space (R66). -/
def hostReadMem (sp : Space) (a n : Nat) (s : State) : Host.Outcome State Fault Refusal :=
  if a + n ≤ spaceSize s.cfg sp then .next (s.hostRead sp a n) else .fault .noSuchAddress

/-- One action of the host. -/
def hostAct (act : HostAct) (s : State) : Host.Outcome State Fault Refusal :=
  match act with
  | .writeReg i v => hostWriteReg i v s
  | .readReg i => .next { s with responses := .word (s.readReg i) :: s.responses }
  | .writeMem sp a bs => hostWriteMem sp a bs s
  | .readMem sp a n => hostReadMem sp a n s
  | .writeCmdUnlessFault w => if s.readNoFault then writeCommand w s else .next s
  | .reset => .next s.afterReset

/-! ### The engine -/

/-- The pair the engine fetches, decoded in the mode the holder selects (R74, R90). -/
def State.fetchedInstr (s : State) : Instr := decodePair s.pending s.fetchedColour s.fetchedLength

/-- The loop condition of R125: a whole pair is left. -/
def State.pairLeft (s : State) : Bool := s.rdptr.toNat + 2 ≤ s.srcLen.toNat

/-- One micro-step of a running DECODE: one pair (R99, R125), or after the last pair the end (R126). -/
def engineStep (s : State) : Host.Outcome State Fault Refusal :=
  if !s.fits then .fault .outsideSpaces
  else if s.pairLeft then exec s.fetchedInstr s.advance
  else .next s.finishDecode

/-! ### Whose turn it is -/

/-- Who moves next, from which state. -/
inductive Turn where
  /-- Nobody: the block is idle and keeps all state (R164). -/
  | nobody
  /-- The engine. -/
  | engine (s : State)
  /-- The host. -/
  | host (act : HostAct) (s : State)
  deriving DecidableEq, Repr

/-- The state with other pending actions of the host. -/
def State.withInputs (s : State) (l : List HostEvent) : State := { s with inputs := l }

/-- While a DECODE runs the engine moves, but for a host action timed to come in between; else the host does (log 4). -/
def State.turn (s : State) : Turn :=
  if s.busy then
    match s.inputs with
    | ⟨.during 0, act⟩ :: rest => .host act (s.withInputs rest)
    | ⟨.during (k + 1), act⟩ :: rest => .engine (s.withInputs (⟨.during k, act⟩ :: rest))
    | _ => .engine s
  else
    match s.inputs with
    | e :: rest => .host e.act (s.withInputs rest)
    | [] => .nobody

/-- One step of the machine. -/
def stepTurn (s : State) : Host.Outcome State Fault Refusal :=
  match s.turn with
  | .nobody => .next s
  | .engine t => engineStep t
  | .host act t => hostAct act t

/-! ### Placing an instruction where the next step takes it (log 15) -/

/-- A write of a command word, to come first. -/
def State.placeCommand (s : State) (w : Word) : State :=
  { s with busy := false, inputs := ⟨.whenIdle, .writeReg 0 w⟩ :: s.inputs }

/-- The state with room for one more pair at the read pointer: page and stream inside their spaces. -/
def State.withRoom (s : State) : State :=
  let s1 := if s.npix ≤ s.cfg.maxPix then s else { s with pageW := 0 }
  let s2 := if 2 ≤ s1.cfg.cbufSize then s1 else { s1 with cfg := { s1.cfg with cbufSize := 2 } }
  if s2.rdptr.toNat + 2 < 2 ^ 32 ∧ s2.srcAddr.toNat + s2.rdptr.toNat + 2 ≤ s2.cfg.cbufSize then
    { s2 with srcLen := s2.rdptr + 2#32 }
  else { s2 with srcAddr := 0, rdptr := 0, srcLen := 2 }

/-- A DECODE in progress under the normal rule, the pair next in its stream and the last. -/
def State.placePair (s : State) (c n : Byte) : State :=
  let t := s.withRoom
  { t with
    busy := true, done := false, fault := false, holdV := false, inputs := []
    cbuf := t.cbuf.write (t.srcAddr.toNat + t.rdptr.toNat) [c, n] }

/-- The state with an encoding placed. -/
def State.placeCode (s : State) : Option Code → State
  | some (.pair c n) => s.placePair c n
  | some (.command w) => s.placeCommand w
  | none => s

end Sys2Proof.Machine
end

