-- ==== Sys2Proof/Machine/Step.lean ====
section
/-! DEFINITION. The step of the machine, and the placing of a table word where the next step takes it. -/

namespace Sys2Proof.Machine

/-- One step: the host's next action, or one micro-step of a running DECODE (R5, log 4). -/
def step (s : State) : Host.Outcome State Fault Refusal := stepTurn s

/-- `s` with a table word placed so that the next step runs it (log 15). -/
def State.withFetchWord (s : State) (nbits w : Nat) : State := s.placeCode (Code.ofBits nbits (w % 2 ^ nbits))

end Sys2Proof.Machine
end

