-- ==== Sys2Proof/Machine/Reference.lean ====
section
/-! DEFINITION. The spec's second description of a DECODE (R111): the stream as a list of runs, with no reference to the
buffer, laid end to end and cut at NPIX; and the result of a page as a function (R137). No step uses it: claims compare
the machine with it. -/

namespace Sys2Proof.Machine

/-- A run: `count` pixels of one colour byte. -/
structure Run where
  color : Byte
  count : Nat
  deriving DecidableEq, Repr

/-- The runs a stream of pairs lays down in order, and the holder that is left (R111). `held` is the pending holder
before the stream. -/
def runsOf (held : Option (Byte × Byte)) : List (Byte × Byte) → List Run × Option (Byte × Byte)
  | [] => ([], held)
  | (c, n) :: rest =>
    match held with
    | some (hc, h) =>
      if c = hc then
        let r := runsOf none rest
        (⟨c, 1 + n.toNat + ((h &&& 0x7F#8).toNat + 1) * 128⟩ :: r.1, r.2)
      else if n = 0xFF#8 then
        let r := runsOf none rest
        (⟨hc, ((h &&& 0x7F#8).toNat + 1) * 128⟩ :: ⟨c, 16384⟩ :: r.1, r.2)
      else if 128 ≤ n.toNat then
        let r := runsOf (some (c, n)) rest
        (⟨hc, ((h &&& 0x7F#8).toNat + 1) * 128⟩ :: r.1, r.2)
      else
        let r := runsOf none rest
        (⟨hc, ((h &&& 0x7F#8).toNat + 1) * 128⟩ :: ⟨c, n.toNat + 1⟩ :: r.1, r.2)
    | none =>
      if n = 0xFF#8 then
        let r := runsOf none rest
        (⟨c, 16384⟩ :: r.1, r.2)
      else if 128 ≤ n.toNat then runsOf (some (c, n)) rest
      else
        let r := runsOf none rest
        (⟨c, n.toNat + 1⟩ :: r.1, r.2)

/-- How many pixels a list of runs asks for. -/
def totalCount (rs : List Run) : Nat := (rs.map (·.count)).sum

/-- The colour bytes of runs laid end to end. -/
def layOut (rs : List Run) : List Byte := (rs.map (fun r => List.replicate r.count r.color)).flatten

/-- What TAIL adds (R106, R111): one more run of the holder's colour, of `len_tail(h, budget)` pixels. -/
def tailRun (held : Option (Byte × Byte)) (budget : Nat) : List Run :=
  match held with
  | some (hc, h) => [⟨hc, lenTail h budget⟩]
  | none => []

/-- The colour bytes of the pixels a DECODE of these pairs writes, from pixel 0 on (R111). -/
def decodedColours (npix : Nat) (pairs : List (Byte × Byte)) : List Byte :=
  let r := runsOf none pairs
  (layOut r.1).take npix ++ layOut (tailRun r.2 (npix - min npix (totalCount r.1)))

/-- The pairs of the stream the registers name (R52): pair `i` is at `SRC_ADDR + 2 * i`. -/
def State.streamPairs (s : State) : List (Byte × Byte) :=
  (List.range (s.srcLen.toNat / 2)).map (fun i =>
    (s.byteAt .cbuf (s.srcAddr.toNat + 2 * i), s.byteAt .cbuf (s.srcAddr.toNat + 2 * i + 1)))

/-- Where a step leads, if it leads to a next state. -/
def nextState : Host.Outcome State Fault Refusal → Option State
  | .next s => some s
  | .fault _ => none
  | .refused _ => none

end Sys2Proof.Machine
end

