-- ==== Sys2Proof/Machine/Page.lean ====
section
/-! DEFINITION. The host's page sequence (R136) as a list of its actions, and the page it should give (R137). -/

namespace Sys2Proof.Machine

/-- A layer of a page as the host presents it (R136): the address and length of its bitmap block, if it has a bitmap,
and the PROTO value (0 when its protocol tag is RATTA_RLE, else 1). -/
structure Layer where
  bitmap : Option (Word × Word)
  proto  : Byte
  deriving DecidableEq, Repr

/-- An action of a host that keeps to R63. -/
def polite (act : HostAct) : HostEvent := ⟨.whenIdle, act⟩

/-- A command word to CMD. -/
def issue (i : Instr) : HostEvent :=
  match encode i with
  | .command w => polite (.writeReg 0 w)
  | .pair _ _ => polite (.writeReg 0 0)

/-- The SRC_ADDR the host writes for a block at `addr`: after the block's 4-byte length prefix (R23, R54). DESIGN CHOICE
(log 21): the spec does not say what the host writes when `addr + 4` passes 32 bits; here the sum wraps. -/
def streamAddress (addr : Word) : Word := addr + 4

/-- What the host does for one layer (R136). -/
def layerEvents (addr len : Word) (proto : Byte) : List HostEvent :=
  [polite (.writeReg 4 (streamAddress addr)), polite (.writeReg 5 len), issue .lclr, issue (.decode proto),
   polite (.readReg 1), polite (.writeCmdUnlessFault 4)]

/-- The layers to paint, back to front (R136): those with a bitmap, reversed. -/
def paintOrder (layers : List Layer) : List (Word × Word × Byte) :=
  (layers.filterMap (fun l => l.bitmap.map (fun b => (b.1, b.2, l.proto)))).reverse

/-- The end of the page sequence (R136): GRAY, then the raster of `npix` pixels and CAUSE are read. -/
def pageEnd (npix : Nat) : List HostEvent :=
  [issue .gray, polite (.readMem .canvas 0 (4 * npix)), polite (.readReg 9)]

/-- RENDER (R83, R136): the page sequence for `layers`, given front to back, on a page of `npix` pixels. -/
def renderPage (npix : Nat) (layers : List Layer) : List HostEvent :=
  issue .cclr :: ((paintOrder layers).flatMap (fun l => layerEvents l.1 l.2.1 l.2.2) ++ pageEnd npix)

/-- `s` with the stream registers of one layer, SRC_ADDR as the host writes it (log 21). -/
def State.forLayer (s : State) (l : Word × Word × Byte) : State :=
  { s with srcAddr := streamAddress l.1, srcLen := l.2.1 }

/-- `ok(L)` of R137: DECODE of the layer does not fault. -/
def State.layerOk (s : State) (l : Word × Word × Byte) : Bool := ((s.forLayer l).decodeCheck l.2.2).isNone

/-- `decode(bytes(L), NPIX, zeros)` of R137 at pixel `p`. -/
def State.layerPixel (s : State) (l : Word × Word × Byte) (p : Nat) : Pixel :=
  match (decodedColours s.npix (s.forLayer l).streamPairs)[p]? with
  | some c => s.cfg.palette.lookup c
  | none => ⟨0, 0, 0, 0⟩

/-- The canvas after the layers, from opaque white on (R137). -/
def State.pageCanvas (s : State) (ls : List (Word × Word × Byte)) (p : Nat) : Pixel :=
  ls.foldl (fun d l => if s.layerOk l then overPixel (s.layerPixel l p) d else d) ⟨255, 255, 255, 255⟩

/-- How many layers fault, as WARNCNT counts them (R28). -/
def State.pageWarns (s : State) (ls : List (Word × Word × Byte)) : Nat :=
  min 255 (ls.countP (fun l => !s.layerOk l))

end Sys2Proof.Machine
end

