-- ==== Sys2Proof/Machine/Assembler.lean ====
section
/-! DEFINITION. The notation of R82 and the pseudo-instruction PIXELS of R83. No step uses it. -/

namespace Sys2Proof.Machine

/-- A line of the stream level (R82). -/
inductive StreamLine where
  | run (c n : Byte)
  | hold (c n : Byte)
  | maxrun (c : Byte)
  | cont (c n : Byte)
  /-- `.pair` -/
  | rawPair (c n : Byte)
  /-- `.byte` -/
  | rawByte (b : Byte)
  deriving DecidableEq, Repr

/-- The bytes a line emits (R82). -/
def StreamLine.bytes : StreamLine → List Byte
  | .run c n => [c, n]
  | .hold c n => [c, n]
  | .maxrun c => [c, 0xFF#8]
  | .cont c n => [c, n]
  | .rawPair c n => [c, n]
  | .rawByte b => [b]

/-- The condition the assembler checks (R82), given the line before. -/
def StreamLine.ok (before : Option StreamLine) : StreamLine → Bool
  | .run _ n => n.toNat ≤ 0x7F
  | .hold _ n => 0x80 ≤ n.toNat && n.toNat ≤ 0xFE
  | .maxrun _ => true
  | .cont c _ => match before with
    | some (.hold d _) => c == d
    | _ => false
  | .rawPair _ _ => true
  | .rawByte _ => true

/-- Assemble a stream: its bytes, or nothing if a line fails its check. -/
def assemble (before : Option StreamLine) : List StreamLine → Option (List Byte)
  | [] => some []
  | l :: rest => if l.ok before then (assemble (some l) rest).map (l.bytes ++ ·) else none

/-- The disassembler's view (R82): it tracks the pending holder to print CONT. -/
def disassemble (pending : Option Byte) : List Byte → List Instr
  | c :: n :: rest =>
    match decodePair pending c n with
    | .hold c n => .hold c n :: disassemble (some c) rest
    | i => i :: disassemble none rest
  | _ => []

/-- `WR` of R82. -/
def WR (i : Nat) (v : Word) : HostEvent := polite (.writeReg i v)

/-- `RD` of R82. -/
def RD (i : Nat) : HostEvent := polite (.readReg i)

/-- `LOAD` of R82. -/
def LOAD (addr : Nat) (bs : List Byte) : HostEvent := polite (.writeMem .cbuf addr bs)

/-- `POKE` of R82. -/
def POKE (sp : Space) (p : Nat) (px : Pixel) : HostEvent := polite (.writeMem sp (4 * p) (pixelBytes px))

/-- `PIXELS c, N` for 1 to 16512 pixels (R83): its first two rows, never the alternatives (DESIGN CHOICE, log 23). -/
def pixelsUpTo16512 (c : Byte) (count : Nat) : List (Byte × Byte) :=
  if count ≤ 128 then [(c, BitVec.ofNat 8 (count - 1))]
  else
    let k := min 126 ((count - 1) / 128 - 1)
    [(c, 0x80#8 ||| BitVec.ofNat 8 k), (c, BitVec.ofNat 8 (count - 1 - (k + 1) * 128))]

/-- `PIXELS c, N` (R83): above 16512 pixels, several of the above; `fuel` bounds how many. DESIGN CHOICE (log 23): R83 does
not say how to split, nor what `PIXELS c, 0` is; here 16512 pixels are taken off first, again and again, the rest comes
last, and 0 pixels are no pair. -/
def pixelsPairs (c : Byte) : Nat → Nat → List (Byte × Byte)
  | 0, _ => []
  | fuel + 1, count =>
    if count = 0 then []
    else if count ≤ 16512 then pixelsUpTo16512 c count
    else pixelsUpTo16512 c 16512 ++ pixelsPairs c fuel (count - 16512)

end Sys2Proof.Machine
end

