-- ==== Sys2Proof/Machine/System.lean ====
section
/-! DEFINITION. Several instances (R6, R65, R165): a product of single-instance machines over one common CBUF. -/

namespace Sys2Proof.Machine

/-- `N_ENGINES` instances and the one CBUF they read (R65, log 17). CBUF is stored here once: what an instance's own
CBUF fields hold is not looked at. -/
structure System where
  cbuf       : Memory
  cbufSize   : Nat
  /-- How often the common CBUF lost its content (log 6). -/
  cbufResets : Nat
  engines    : List State
  deriving DecidableEq, Repr

/-- N_ENGINES (R6). -/
def System.nEngines (y : System) : Nat := y.engines.length

/-- The ranges of R6: at least one instance, legal parameters, and each instance numbered by its place. -/
def System.legal (y : System) : Bool :=
  1 ≤ y.nEngines && y.cbufSize ≤ 2 ^ 32 && y.engines.all (fun s => s.cfg.legal)
    && y.engines.map (·.ident) == List.range y.nEngines

/-- `n` instances right after power-on. -/
def System.powerOn (n : Nat) (cfg : Config) : System where
  cbuf := []
  cbufSize := cfg.cbufSize
  cbufResets := 0
  engines := (List.range n).map (fun i => { State.powerOn cfg with ident := i })

/-- The default of N_ENGINES (R6). -/
def defaultEngines : Nat := 1

/-- The system right after reset, with the default parameters (log 2). -/
def System.reset : System := System.powerOn defaultEngines Config.default

/-! ### The common CBUF -/

/-- An instance as it runs: it reads the common CBUF. -/
def System.view (y : System) (s : State) : State :=
  { s with cbuf := y.cbuf, cbufResets := y.cbufResets, cfg := { s.cfg with cbufSize := y.cbufSize } }

/-- An instance as it is stored: without CBUF. -/
def State.detach (s : State) : State := { s with cbuf := [], cbufResets := 0 }

/-- What a host action does to CBUF. -/
inductive CbufChange where
  /-- It writes the bytes of a range. -/
  | written (r : Span)
  /-- It is a reset: CBUF becomes unspecified, for every instance that reads it (DESIGN CHOICE, log 22). -/
  | lost
  deriving DecidableEq, Repr

/-- What a host action does to CBUF, if anything. -/
def HostAct.cbufChange : HostAct → Option CbufChange
  | .writeMem .cbuf a bs => some (.written ⟨a, bs.length⟩)
  | .writeMem .lbuf _ _ => none
  | .writeMem .canvas _ _ => none
  | .writeReg _ _ => none
  | .readReg _ => none
  | .readMem _ _ _ => none
  | .writeCmdUnlessFault _ => none
  | .reset => some .lost

/-- What the next step of an instance does to CBUF: the engine never writes it (R61). -/
def State.cbufChange (s : State) : Option CbufChange :=
  match s.turn with
  | .host act _ => act.cbufChange
  | .engine _ => none
  | .nobody => none

/-- Bytes `r` of the common CBUF have changed: R175 counts, for each instance that runs a DECODE, what it derives from
them. -/
def System.noteWritten (y : System) (r : Span) : System :=
  { y with engines := y.engines.map (fun s => if s.busy then s.noteWrite .cbuf r else s) }

/-- Whether another instance than `i` runs a DECODE. -/
def System.othersBusy (y : System) (i : Nat) : Bool := (y.engines.eraseIdx i).any (·.busy)

/-- Instance `i` has become `t`, CBUF included. -/
def System.put (y : System) (i : Nat) (t : State) : System :=
  { y with cbuf := t.cbuf, cbufResets := t.cbufResets, engines := y.engines.set i t.detach }

/-- Instance `i` has become `t` and wrote or lost CBUF. The bytes written are unspecified if another instance runs a
DECODE (R175). -/
def System.putChanged (y : System) (i : Nat) (t : State) : CbufChange → System
  | .written r => (y.noteWritten r).put i (if y.othersBusy i then t.scramble .cbuf r else t)
  | .lost => (y.noteWritten ⟨0, y.cbufSize⟩).put i t

/-! ### Steps -/

/-- Instance `i` takes its step, its host's action included; nothing if there is no such instance, or if it stops. -/
def System.stepAt (y : System) (i : Nat) : System :=
  match y.engines[i]? with
  | some s => match step (y.view s), (y.view s).cbufChange with
    | .next t, none => y.put i t
    | .next t, some change => y.putChanged i t change
    | .fault _, _ => y
    | .refused _, _ => y
  | none => y

/-- The instances named by a schedule take their steps in turn. -/
def System.runSchedule : List Nat → System → System
  | [], y => y
  | i :: rest, y => System.runSchedule rest (y.stepAt i)

/-- `n` steps of one instance alone, staying put where it stops. -/
def State.runAlone : Nat → State → State
  | 0, s => s
  | n + 1, s => match step s with
    | .next t => State.runAlone n t
    | .fault _ => s
    | .refused _ => s

/-- None of the host's pending actions on this instance changes CBUF: no write to it and no reset. -/
def State.leavesCbuf (s : State) : Bool := s.inputs.all (fun e => e.act.cbufChange.isNone)

/-- The host loads bytes into the common CBUF, past every instance: between commands (R61) and inside CBUF (R58); else
there is no such load. -/
def System.loadCbuf (y : System) (a : Nat) (bs : List Byte) : Option System :=
  if a + bs.length ≤ y.cbufSize ∧ y.engines.all (fun s => !s.busy) then
    some { y with cbuf := y.cbuf.write a bs }
  else none

end Sys2Proof.Machine
end

