-- ==== Sys2Proof/Safety.lean ====
section
/-! DEFINITION. The terms claims use: the invariant of the machine, and what an emission leaves. -/

namespace Sys2Proof.Machine

/-- What every state a run reaches satisfies. -/
structure State.Inv (s : State) : Prop where
  /-- The memories are in canonical form. -/
  memWf : ∀ sp, (s.mem sp).wf
  /-- No byte is stored outside its space (R58, R59). -/
  memInside : ∀ sp, ∀ c ∈ s.mem sp, c.1 < spaceSize s.cfg sp
  /-- A pending holder's length code is 0x80 to 0xFE (R27). -/
  holdRange : s.holdV = true → 0x80 ≤ s.holdN.toNat ∧ s.holdN.toNat ≤ 0xFE
  /-- RDPTR is even (R26). -/
  rdptrEven : s.rdptr.toNat % 2 = 0
  /-- Only the codes 0 to 4 are produced (R150). -/
  causeKnown : s.causeCode.toNat ≤ 4
  /-- FAULT comes with DONE (R155). -/
  faultDone : s.fault = true → s.done = true
  /-- Between commands no holder is pending (R27, R126). -/
  idle : s.busy = false → s.holdV = false ∧ s.poison = [] ∧ s.tampered = []
  /-- While BUSY a DECODE runs inside its spaces: R22, R25, R26, R59. -/
  running : s.busy = true → s.done = false ∧ s.fault = false ∧ s.fits = true ∧ s.rdptr.toNat ≤ s.srcLen.toNat
    ∧ s.cursor.toNat ≤ s.npix ∧ s.cfg.pairSteps = true
  /-- What will be unspecified lies inside its space. -/
  poisonInside : ∀ r ∈ s.poison, r.base + r.len ≤ spaceSize s.cfg .lbuf
  /-- At the transaction level BUSYERR keeps its reset value (R22). -/
  noBusyErr : s.cfg.pairSteps = false → s.busyErr = false

/-- `t` is `s` after the emission of `count` pixels of colour `c` (R97): the cursor moved by the clipped count, CLIP set
if it was clipped, the bytes between the two cursors are the palette's, and nothing else changed. -/
structure Emitted (c : Byte) (count : Nat) (s t : State) : Prop where
  cursor : t.cursor.toNat = s.cursor.toNat + min count s.budget
  clip : t.clip = (s.clip || decide (s.budget < count))
  bytes : ∀ a, t.byteAt .lbuf a =
    if 4 * s.cursor.toNat ≤ a ∧ a < 4 * t.cursor.toNat then pixelLane (s.cfg.palette.lookup c) (a % 4)
    else s.byteAt .lbuf a
  frame : t = { s with cursor := t.cursor, clip := t.clip, lbuf := t.lbuf }

/-- `t` is `s` after a command that ended without a fault and changed, beside the frame's bits, at most CANVAS. -/
def endedWithCanvas (s t : State) : Prop :=
  t = { s with busy := false, done := true, fault := false, canvas := t.canvas }

end Sys2Proof.Machine
end

