-- ==== Sys2Proof/Certificates/Slice0/Obligations.lean ====
section
/-! DEFINITION. The statements for the provers. -/

open Sys2Proof Sys2Proof.Machine

/-! ### Encodings -/

/-- A few words written out from R75 and R79: `61 02`, `61 83`, `61 FF`, and the six command words. -/
def Obligations.SpecWordsDecode : Prop :=
  decodeTableWord 16 0x0261 = some (.run 0x61 0x02)
  ∧ decodeTableWord 16 0x8361 = some (.hold 0x61 0x83)
  ∧ decodeTableWord 16 0xFF61 = some (.maxrun 0x61)
  ∧ decode (some 0x61) (.pair 0x61 0xFF) = .ok (.cont 0x61 0xFF)
  ∧ decodeTableWord 32 0x00000000 = some .nop
  ∧ decodeTableWord 32 0x00000001 = some .cclr
  ∧ decodeTableWord 32 0x00000002 = some .lclr
  ∧ decodeTableWord 32 0x00000103 = some (.decode 0x01)
  ∧ decodeTableWord 32 0x00000004 = some .blend
  ∧ decodeTableWord 32 0x00000005 = some .gray
  ∧ decodeTableWord 32 0x00000006 = none

/-- Decoding the encoding of a well-formed instruction, in a mode that selects it (R74), gives the instruction back. -/
def Obligations.DecodeOfEncode : Prop :=
  ∀ (i : Instr) (pending : Option Byte), i.wf = true → i.selectedBy pending = true →
    decode pending (encode i) = .ok i

/-- Each pair and each command word has one meaning: what decodes to an instruction is that instruction's encoding. -/
def Obligations.EncodeOfDecode : Prop :=
  ∀ (pending : Option Byte) (k : Code) (i : Instr), decode pending k = .ok i →
    i.wf = true ∧ i.selectedBy pending = true ∧ encode i = k

/-- Format C (R71, R78): a word is no command exactly if OP is 6 to 15, a must-be-zero bit is set, or PROTO is not 0
outside DECODE. -/
def Obligations.IllegalWordsExactly : Prop :=
  ∀ w : Word, (∃ e, decodeCommand w = .error e) ↔
    (6 ≤ w.toNat % 16 ∨ w.toNat / 16 % 16 ≠ 0 ∨ w.toNat / 65536 ≠ 0 ∨ (w.toNat / 256 % 256 ≠ 0 ∧ w.toNat % 16 ≠ 3))

/-- The stream opcode map (R75, R76) by match and mask on `PW = COLOR | LEN << 8`; no pair is refused (R80). -/
def Obligations.StreamOpcodeMap : Prop :=
  ∀ (pending : Option Byte) (c n : Byte),
    (pending = some c → decodePair pending c n = .cont c n)
    ∧ (pending ≠ some c →
        ((c.toNat + 256 * n.toNat) &&& 0xFF00 = 0xFF00 → decodePair pending c n = .maxrun c)
        ∧ ((c.toNat + 256 * n.toNat) &&& 0x8000 = 0x8000 → (c.toNat + 256 * n.toNat) &&& 0xFF00 ≠ 0xFF00 →
            decodePair pending c n = .hold c n)
        ∧ ((c.toNat + 256 * n.toNat) &&& 0x8000 = 0 → decodePair pending c n = .run c n))

/-- The pseudo-instruction PIXELS (R83) stands for pairs that ask for exactly the pixels it names, and leaves no holder. Which
pairs, above 16512 pixels and for 0, is the model's choice (log 23). -/
def Obligations.PixelsExpansionExact : Prop :=
  ∀ (c : Byte) (fuel count : Nat), count ≤ fuel * 16512 →
    totalCount (runsOf none (pixelsPairs c fuel count)).1 = count
    ∧ (∀ r ∈ (runsOf none (pixelsPairs c fuel count)).1, r.color = c)
    ∧ (runsOf none (pixelsPairs c fuel count)).2 = none

/-! ### Operands -/

/-- The palette (R30, R31): 0x61 is opaque black, every recognised byte has its entry's pixel, every other byte is
transparent black; the default table (R33) meets the constraints. -/
def Obligations.PaletteLookup : Prop :=
  (∀ p : Palette, p.legal = true →
    p.lookup 0x61 = ⟨0, 0, 0, 255⟩
    ∧ (∀ e ∈ p, p.lookup e.code = e.pixel)
    ∧ (∀ c, (∀ e ∈ p, e.code ≠ c) → p.lookup c = ⟨0, 0, 0, 0⟩))
  ∧ Palette.default.legal = true

/-- The bounds of R93 on every count passed to emit. -/
def Obligations.RunLengthBounds : Prop :=
  (∀ n : Byte, n.toNat ≤ 0x7F → 1 ≤ lenRun n ∧ lenRun n ≤ 128)
  ∧ lenMax = 16384
  ∧ (∀ h : Byte, 0x80 ≤ h.toNat → h.toNat ≤ 0xFE → 128 ≤ lenExt h ∧ lenExt h ≤ 16256 ∧ lenExt h % 128 = 0)
  ∧ (∀ h n : Byte, 0x80 ≤ h.toNat → h.toNat ≤ 0xFE →
      129 ≤ lenCont h n ∧ lenCont h n ≤ 16512 ∧ lenCont h n = 1 + n.toNat + (h.toNat - 127) * 128)
  ∧ (∀ (h : Byte) (b : Nat), 0x80 ≤ h.toNat → h.toNat ≤ 0xFE → lenTail h b ≤ 16256)
  ∧ lenTail 0xFE 126 = 0

/-- The choice of TAIL (R106): the largest of the eight candidates that fits the budget, or nothing if none fits. -/
def Obligations.TailTakesLargestShift : Prop :=
  ∀ (h : Byte) (budget : Nat),
    (∀ k ≤ 7, ((h &&& 0x7F#8).toNat + 1) * 2 ^ k ≤ budget → ((h &&& 0x7F#8).toNat + 1) * 2 ^ k ≤ lenTail h budget)
    ∧ lenTail h budget ≤ budget
    ∧ (lenTail h budget = 0 ∨ ∃ k ≤ 7, lenTail h budget = ((h &&& 0x7F#8).toNat + 1) * 2 ^ k)
    ∧ (lenTail h budget = 0 ↔ budget < (h &&& 0x7F#8).toNat + 1)

/-- The table of R107, row by row. -/
def Obligations.TailTable : Prop :=
  magnitude 0x80 = 1 ∧ magnitude 0x83 = 4 ∧ magnitude 0x84 = 5 ∧ magnitude 0xFE = 127 ∧ magnitude 0x81 = 2
  ∧ tailCandidates 0x80 = [128, 64, 32, 16, 8, 4, 2, 1]
  ∧ tailCandidates 0x83 = [512, 256, 128, 64, 32, 16, 8, 4]
  ∧ tailCandidates 0x84 = [640, 320, 160, 80, 40, 20, 10, 5]
  ∧ tailCandidates 0xFE = [16256, 8128, 4064, 2032, 1016, 508, 254, 127]
  ∧ tailCandidates 0x81 = [256, 128, 64, 32, 16, 8, 4, 2]
  ∧ lenTail 0x80 512 = 128 ∧ lenTail 0x83 512 = 512 ∧ lenTail 0x83 511 = 256 ∧ lenTail 0x84 512 = 320
  ∧ lenTail 0xFE 512 = 508 ∧ lenTail 0xFE 126 = 0 ∧ lenTail 0x80 1 = 1 ∧ lenTail 0x81 1 = 0
  ∧ (∀ h : Byte, lenTail h 0 = 0) ∧ lenTail 0x80 100000 = 128

/-! ### Pairs -/

/-- RUN (R100) under the normal rule with no holder pending: `n + 1` pixels of the colour. -/
def Obligations.RunEmits : Prop :=
  ∀ (c n : Byte) (s : State), s.holdV = false →
    ∃ t, exec (.run c n) s = .next t ∧ Emitted c (n.toNat + 1) s t

/-- MAXRUN (R101) under the normal rule with no holder pending: 16384 pixels of the colour. -/
def Obligations.MaxrunEmits : Prop :=
  ∀ (c : Byte) (s : State), s.holdV = false →
    ∃ t, exec (.maxrun c) s = .next t ∧ Emitted c 16384 s t

/-- HOLD (R102) under the normal rule with no holder pending: the pair becomes the holder; nothing else changes. -/
def Obligations.HoldStashes : Prop :=
  ∀ (c n : Byte) (s : State), s.holdV = false →
    exec (.hold c n) s = .next { s with holdV := true, holdC := c, holdN := n }

/-- CONT (R103): the holder is cleared and `1 + n + (((HOLD_N & 0x7F) + 1) << 7)` pixels are emitted. -/
def Obligations.ContEmits : Prop :=
  ∀ (c n : Byte) (s : State), s.holdV = true → s.holdC = c →
    ∃ t, exec (.cont c n) s = .next t
      ∧ Emitted c (1 + n.toNat + ((s.holdN &&& 0x7F#8).toNat + 1) * 128) { s with holdV := false } t

/-- FLUSH (R104): RUN, MAXRUN and HOLD of another colour than a pending holder's first emit the holder as a standalone
extended run, `((HOLD_N & 0x7F) + 1) << 7` pixels, and then do what they do with no holder pending. -/
def Obligations.FlushThenNormalRule : Prop :=
  ∀ (c n : Byte) (s : State), s.holdV = true → s.holdC ≠ c →
    ∃ u, Emitted s.holdC (((s.holdN &&& 0x7F#8).toNat + 1) * 128) { s with holdV := false } u
      ∧ (∃ t, exec (.run c n) s = .next t ∧ Emitted c (n.toNat + 1) u t)
      ∧ (∃ t, exec (.maxrun c) s = .next t ∧ Emitted c 16384 u t)
      ∧ exec (.hold c n) s = .next { u with holdV := true, holdC := c, holdN := n }

/-- The pair step of R99 is the instruction that the two-mode opcode map (R74 to R76) decodes the pair to. -/
def Obligations.PairStepIsDecodedPair : Prop :=
  ∀ (s : State) (c n : Byte), exec (decodePair s.pending c n) s = .next (s.pairStep c n)

/-- The frame of the four pairs: they change the holder, CURSOR, CLIP and LBUF bytes between the old and the new cursor,
and never a byte at or above `4 * NPIX`; with the read pointer already advanced by the fetch, nothing else. -/
def Obligations.PairFrame : Prop :=
  ∀ (i : Instr) (s t : State) (c n : Byte),
    i = .run c n ∨ i = .maxrun c ∨ i = .hold c n ∨ i = .cont c n → exec i s = .next t →
      t = { s with cursor := t.cursor, clip := t.clip, lbuf := t.lbuf, holdV := t.holdV, holdC := t.holdC, holdN := t.holdN }
      ∧ s.cursor.toNat ≤ t.cursor.toNat ∧ t.cursor.toNat ≤ max s.cursor.toNat s.npix
      ∧ (s.clip = true → t.clip = true)
      ∧ ∀ a, ¬(4 * s.cursor.toNat ≤ a ∧ a < 4 * t.cursor.toNat) → t.byteAt .lbuf a = s.byteAt .lbuf a

/-! ### DECODE -/

/-- DECODE as one transition (R111, R123 to R126): the pixels it writes are those of the runs of the stream laid end to
end and cut at NPIX, and the tail; RDPTR, CURSOR, the holder and the flags end as R126 and R29 say; nothing else changes
(HOLD_C and HOLD_N keep the last stash, 93 U12). -/
def Obligations.DecodeAsOneTransition : Prop :=
  ∀ s : State, s.cfg.pairSteps = false → s.npix ≤ s.cfg.maxPix → s.srcAddr.toNat + s.srcLen.toNat ≤ s.cfg.cbufSize →
    ∃ t, exec (.decode 0) s = .next t
      ∧ t.cursor.toNat = (decodedColours s.npix s.streamPairs).length
      ∧ (∀ p, t.pixelAt .lbuf p = match (decodedColours s.npix s.streamPairs)[p]? with
          | some c => s.cfg.palette.lookup c
          | none => s.pixelAt .lbuf p)
      ∧ t.rdptr.toNat = 2 * (s.srcLen.toNat / 2)
      ∧ t.holdV = false
      ∧ t.clip = decide (s.npix < totalCount (runsOf none s.streamPairs).1)
      ∧ t.odd = decide (s.srcLen.toNat % 2 = 1)
      ∧ t.tailf = (runsOf none s.streamPairs).2.isSome
      ∧ t.under = decide (t.cursor.toNat < s.npix)
      ∧ t = { s with
          busy := false, done := true, fault := false, clip := t.clip, odd := t.odd, under := t.under, tailf := t.tailf
          rdptr := t.rdptr, cursor := t.cursor, holdV := t.holdV, holdC := t.holdC, holdN := t.holdN, lbuf := t.lbuf
          poison := [], tampered := [] }

/-- DECODE stepped pair by pair starts from the state of R124 with BUSY 1, whatever the command before left. -/
def Obligations.SteppedDecodeStarts : Prop :=
  ∀ s : State, s.cfg.pairSteps = true → s.npix ≤ s.cfg.maxPix → s.srcAddr.toNat + s.srcLen.toNat ≤ s.cfg.cbufSize →
    exec (.decode 0) s = .next { s with
      busy := true, done := false, fault := false, rdptr := 0, cursor := 0, holdV := false
      clip := false, odd := false, under := false, tailf := false, poison := [], tampered := [] }

/-- R5: the micro-steps of a DECODE, one a pair and one for the end, lead to the state the one transition leads to. -/
def Obligations.SteppedDecodeRefines : Prop :=
  ∀ s u : State, s.cfg.pairSteps = true → s.npix ≤ s.cfg.maxPix →
    s.srcAddr.toNat + s.srcLen.toNat ≤ s.cfg.cbufSize → s.inputs = [] → exec (.decode 0) s = .next u →
    ∃ t, Sys2Proof.core.run (s.srcLen.toNat / 2 + 1) u = .next t
      ∧ exec (.decode 0) { s with cfg := { s.cfg with pairSteps := false } }
          = .next { t with cfg := { t.cfg with pairSteps := false } }

/-- R124, R127 (c): a DECODE depends on the stream, the page size and the parameters only; nothing an earlier command
left in the holder, the cursors, the flags or LBUF reaches CURSOR, RDPTR, the flags or a pixel that it writes. -/
def Obligations.DecodeForgetsThePast : Prop :=
  ∀ s1 s2 t1 t2 : State, s1.cfg = s2.cfg → s1.cfg.pairSteps = false → s1.pageW = s2.pageW → s1.pageH = s2.pageH →
    s1.srcAddr = s2.srcAddr → s1.srcLen = s2.srcLen → s1.decodeCheck 0 = none →
    (∀ a, s1.byteAt .cbuf a = s2.byteAt .cbuf a) →
    exec (.decode 0) s1 = .next t1 → exec (.decode 0) s2 = .next t2 →
      t1.cursor = t2.cursor ∧ t1.rdptr = t2.rdptr ∧ t1.clip = t2.clip ∧ t1.odd = t2.odd ∧ t1.under = t2.under
      ∧ t1.tailf = t2.tailf ∧ t1.holdV = t2.holdV
      ∧ ∀ p < t1.cursor.toNat, t1.pixelAt .lbuf p = t2.pixelAt .lbuf p

/-- R127 (d): if a stream leaves no holder pending, the pixels it writes are the same when it is extended by pairs. -/
def Obligations.DecodePrefix : Prop :=
  ∀ (npix : Nat) (pairs more : List (Byte × Byte)), (runsOf none pairs).2 = none →
    decodedColours npix pairs <+: decodedColours npix (pairs ++ more)

/-! ### Faults -/

/-- Fault entry (R155), with the codes of R150: what `raise` changes, and that it changes nothing else. -/
def Obligations.FaultEntryRecords : Prop :=
  ∀ (s : State) (op3 : Bool) (cause : Cause),
    s.raise op3 cause = { s with
      causeCode := match cause with | .illcmd => 1 | .dim => 2 | .proto => 3 | .addr => 4
      warnCnt := if op3 = true ∧ cause ≠ .illcmd then BitVec.ofNat 8 (min 255 (s.warnCnt.toNat + 1)) else s.warnCnt
      fault := true, busy := false, done := true }

/-- DIM (R151, R155): a buffer command whose page does not fit faults; only STATUS and CAUSE change; WARNCNT counts
DECODE, saturating. -/
def Obligations.PageTooLargeFaults : Prop :=
  ∀ s : State, s.cfg.maxPix < s.npix →
    (∀ i ∈ [Instr.cclr, .lclr, .blend, .gray],
      exec i s = .next { s with busy := false, done := true, fault := true, causeCode := 2 })
    ∧ ∀ proto, exec (.decode proto) s = .next { s with
        busy := false, done := true, fault := true, causeCode := 2
        warnCnt := BitVec.ofNat 8 (min 255 (s.warnCnt.toNat + 1)) }

/-- PROTO and ADDR (R152, R153), in the order of R157: DECODE changes only STATUS and CAUSE and counts in WARNCNT. -/
def Obligations.DecodeFaults : Prop :=
  ∀ (s : State) (proto : Byte), s.npix ≤ s.cfg.maxPix →
    (proto ≠ 0 → exec (.decode proto) s = .next { s with
        busy := false, done := true, fault := true, causeCode := 3
        warnCnt := BitVec.ofNat 8 (min 255 (s.warnCnt.toNat + 1)) })
    ∧ (s.cfg.cbufSize < s.srcAddr.toNat + s.srcLen.toNat → exec (.decode 0) s = .next { s with
        busy := false, done := true, fault := true, causeCode := 4
        warnCnt := BitVec.ofNat 8 (min 255 (s.warnCnt.toNat + 1)) })

/-- ILLCMD (R154, R155): a write to CMD, while BUSY is 0, of a word that is no command records the fault and does
nothing else. -/
def Obligations.IllegalCommandFaults : Prop :=
  ∀ (s : State) (w : Word) (e : DecodeError) (tm : Timing) (rest : List HostEvent), s.busy = false →
    s.inputs = ⟨tm, .writeReg 0 w⟩ :: rest → decodeCommand w = .error e →
    step s = .next { s with inputs := rest, busy := false, done := true, fault := true, causeCode := 1 }

/-! ### Commands -/

/-- NOP (R120): its word, and that only the frame's bits of STATUS change, whatever the page size. -/
def Obligations.NopChangesStatusOnly : Prop :=
  decodeCommand 0x00000000 = .ok .nop
  ∧ ∀ s : State, exec .nop s = .next { s with busy := false, done := true, fault := false }

/-- CCLR (R121): its word; every byte of CANVAS below `4 * NPIX` becomes 0xFF and WARNCNT 0, nothing else changes; a
page that does not fit faults DIM and clears nothing. -/
def Obligations.CclrWhitensCanvas : Prop :=
  decodeCommand 0x00000001 = .ok .cclr
  ∧ ∀ s : State,
    (s.npix ≤ s.cfg.maxPix → ∃ t, exec .cclr s = .next t
      ∧ (∀ a, t.byteAt .canvas a = if a < 4 * s.npix then 0xFF else s.byteAt .canvas a)
      ∧ endedWithCanvas { s with warnCnt := 0 } t)
    ∧ (s.cfg.maxPix < s.npix →
      exec .cclr s = .next { s with busy := false, done := true, fault := true, causeCode := 2 })

/-- LCLR (R122): its word; every byte of LBUF below `4 * NPIX` becomes 0, nothing else changes; a page that does not
fit faults DIM. -/
def Obligations.LclrZeroesLbuf : Prop :=
  decodeCommand 0x00000002 = .ok .lclr
  ∧ ∀ s : State,
    (s.npix ≤ s.cfg.maxPix → ∃ t, exec .lclr s = .next t
      ∧ (∀ a, t.byteAt .lbuf a = if a < 4 * s.npix then 0 else s.byteAt .lbuf a)
      ∧ t = { s with busy := false, done := true, fault := false, lbuf := t.lbuf })
    ∧ (s.cfg.maxPix < s.npix →
      exec .lclr s = .next { s with busy := false, done := true, fault := true, causeCode := 2 })

/-- BLEND (R128, R129): each CANVAS pixel below NPIX whose source has alpha other than 0 becomes `over` of the two; every
other byte of CANVAS, and everything else, is unchanged. -/
def Obligations.BlendPaintsOver : Prop :=
  ∀ s : State, s.npix ≤ s.cfg.maxPix →
    ∃ t, exec .blend s = .next t
      ∧ (∀ p < s.npix, (s.pixelAt .lbuf p).a ≠ 0 →
          t.pixelAt .canvas p = overPixel (s.pixelAt .lbuf p) (s.pixelAt .canvas p))
      ∧ (∀ a, s.npix ≤ a / 4 ∨ (s.pixelAt .lbuf (a / 4)).a = 0 → t.byteAt .canvas a = s.byteAt .canvas a)
      ∧ endedWithCanvas s t

/-- GRAY (R131, R132): each CANVAS pixel below NPIX becomes its luma, alpha untouched; nothing else changes. -/
def Obligations.GrayTakesLuma : Prop :=
  ∀ s : State, s.npix ≤ s.cfg.maxPix →
    ∃ t, exec .gray s = .next t
      ∧ (∀ p < s.npix,
          (t.pixelAt .canvas p).a = (s.pixelAt .canvas p).a
          ∧ (t.pixelAt .canvas p).r = (t.pixelAt .canvas p).g ∧ (t.pixelAt .canvas p).r = (t.pixelAt .canvas p).b
          ∧ (t.pixelAt .canvas p).r.toNat = (299 * (s.pixelAt .canvas p).r.toNat + 587 * (s.pixelAt .canvas p).g.toNat
              + 114 * (s.pixelAt .canvas p).b.toNat + 500) / 1000)
      ∧ (∀ a, 4 * s.npix ≤ a → t.byteAt .canvas a = s.byteAt .canvas a)
      ∧ endedWithCanvas s t

/-- The three cases of `over` (R129), over every destination. Alpha 0 keeps the destination, alpha 255 overwrites it; and
for every other alpha, and by R130 (a) for 255 too, the channels are the exact quotients rounded once, and fit a byte
unclamped. -/
def Obligations.OverRoundsExactQuotient : Prop :=
  ∀ s d : Pixel,
    (s.a = 0 → overPixel s d = d)
    ∧ (s.a = 255 → overPixel s d = ⟨s.r, s.g, s.b, 255⟩)
    ∧ (s.a ≠ 0 →
      let na := 255 * s.a.toNat + d.a.toNat * (255 - s.a.toNat)
      255 ≤ na ∧ na ≤ 65025
      ∧ (overPixel s d).a.toNat = rdiv na 255
      ∧ (overPixel s d).r.toNat = rdiv (255 * s.r.toNat * s.a.toNat + d.r.toNat * d.a.toNat * (255 - s.a.toNat)) na
      ∧ (overPixel s d).g.toNat = rdiv (255 * s.g.toNat * s.a.toNat + d.g.toNat * d.a.toNat * (255 - s.a.toNat)) na
      ∧ (overPixel s d).b.toNat = rdiv (255 * s.b.toNat * s.a.toNat + d.b.toNat * d.a.toNat * (255 - s.a.toNat)) na)

/-- R130 (c), (d): over an opaque destination the result is opaque and each channel is one division by 255; gray over
gray is gray. -/
def Obligations.OverKeepsOpaqueAndGray : Prop :=
  ∀ s d : Pixel,
    (d.a = 255 → (overPixel s d).a = 255
      ∧ (overPixel s d).r.toNat = rdiv (s.r.toNat * s.a.toNat + d.r.toNat * (255 - s.a.toNat)) 255
      ∧ (overPixel s d).g.toNat = rdiv (s.g.toNat * s.a.toNat + d.g.toNat * (255 - s.a.toNat)) 255
      ∧ (overPixel s d).b.toNat = rdiv (s.b.toNat * s.a.toNat + d.b.toNat * (255 - s.a.toNat)) 255)
    ∧ (s.r = s.g → s.r = s.b → d.r = d.g → d.r = d.b →
        (overPixel s d).r = (overPixel s d).g ∧ (overPixel s d).r = (overPixel s d).b)

/-- R133 (a), (b): a gray pixel is unchanged by GRAY, so GRAY twice leaves every CANVAS byte as GRAY once does. -/
def Obligations.GrayIsIdempotent : Prop :=
  (∀ v : Byte, luma v v v = v)
  ∧ ∀ s t u : State, s.npix ≤ s.cfg.maxPix → exec .gray s = .next t → exec .gray t = .next u →
      ∀ a, u.byteAt .canvas a = t.byteAt .canvas a

/-! ### Steps and the host -/

/-- Who moves (log 4), and R21: with BUSY 0 a step is the host's next action, and a write to CMD of a word that decodes to an
instruction is that instruction; while a DECODE runs a step is the host's next action if that is due, else the engine's
micro-step, which brings an action with a count one nearer. -/
def Obligations.StepRunsHostAction : Prop :=
  ∀ (s : State) (act : HostAct) (rest : List HostEvent),
    (s.busy = false → ∀ tm, s.inputs = ⟨tm, act⟩ :: rest → step s = hostAct act { s with inputs := rest })
    ∧ (s.busy = true → s.inputs = ⟨.during 0, act⟩ :: rest → step s = hostAct act { s with inputs := rest })
    ∧ (s.busy = true → ∀ k, s.inputs = ⟨.during (k + 1), act⟩ :: rest →
        step s = engineStep { s with inputs := ⟨.during k, act⟩ :: rest })
    ∧ (s.busy = true → s.inputs = ⟨.whenIdle, act⟩ :: rest → step s = engineStep s)
    ∧ (s.busy = false → ∀ w i, decodeCommand w = .ok i → hostAct (.writeReg 0 w) s = exec i s)

/-- While a DECODE runs and the host does not act in between, a step fetches the pair at SRC_ADDR + RDPTR, advances
RDPTR by 2 and runs the instruction the pair decodes to in the mode the holder selects (R74, R90, R125). -/
def Obligations.StepRunsFetchedPair : Prop :=
  ∀ s : State, s.busy = true → s.inputs = [] → s.npix ≤ s.cfg.maxPix →
    s.srcAddr.toNat + s.srcLen.toNat ≤ s.cfg.cbufSize → s.rdptr.toNat + 2 ≤ s.srcLen.toNat →
    step s = exec (decodePair (if s.holdV then some s.holdC else none)
        (s.byteAt .cbuf (s.srcAddr.toNat + s.rdptr.toNat)) (s.byteAt .cbuf (s.srcAddr.toNat + s.rdptr.toNat + 1)))
      { s with rdptr := s.rdptr + 2 }

/-- A word of the opcode table placed by `withFetchWord` is what the next step runs: the model's own (log 15). -/
def Obligations.PlacedWordRunsNext : Prop :=
  ∀ (s : State) (nbits w : Nat) (i : Instr), decodeTableWord nbits w = some i →
    ∃ u, step (s.withFetchWord nbits w) = exec i u
      ∧ (nbits = 32 → u = { s with busy := false })
      ∧ (nbits = 16 → u = (s.withFetchWord nbits w).advance)

/-- After the last pair a step resolves a pending holder against the budget (R106), sets ODD and UNDER (R125, R126), and
ends the command. -/
def Obligations.StepEndsDecode : Prop :=
  ∀ s : State, s.busy = true → s.inputs = [] → s.npix ≤ s.cfg.maxPix →
    s.srcAddr.toNat + s.srcLen.toNat ≤ s.cfg.cbufSize → s.srcLen.toNat < s.rdptr.toNat + 2 →
    s.poison = [] → s.tampered = [] →
    ∃ t u, step s = .next t ∧ Emitted s.holdC (if s.holdV then lenTail s.holdN (s.npix - s.cursor.toNat) else 0) s u
      ∧ u.clip = s.clip
      ∧ t = { u with
          busy := false, done := true, holdV := false
          odd := s.odd || decide (s.srcLen.toNat % 2 = 1), tailf := s.tailf || s.holdV
          under := s.under || decide (u.cursor.toNat < s.npix), lbuf := t.lbuf }
      ∧ ∀ a, t.byteAt .lbuf a = u.byteAt .lbuf a

/-- With BUSY 0 and nothing to do the block keeps all state (R164). -/
def Obligations.IdleKeepsState : Prop :=
  ∀ s : State, s.busy = false → s.inputs = [] → step s = .next s

/-- R176: while BUSY a write to CMD, W, H, SRC_ADDR or SRC_LEN is dropped and sets BUSYERR; a write to STATUS clears
BUSYERR if its bit 3 is set, BUSY or not, and does nothing else. -/
def Obligations.BusyWritesDropped : Prop :=
  ∀ (s : State) (v : Word),
    (s.busy = true → ∀ i ∈ [0, 2, 3, 4, 5], hostAct (.writeReg i v) s = .next { s with busyErr := true })
    ∧ hostAct (.writeReg 1 v) s = .next { s with busyErr := if v.getLsbD 3 then false else s.busyErr }

/-- R20, R23, R25, R26: the host's register port. A read returns what the register reads, at any time; W, H, SRC_ADDR,
SRC_LEN, RDPTR and CURSOR read their contents (`StatusHoldCauseFields` has the other three); with BUSY 0 a write of a
configuration register changes what it reads and nothing else; a write of a read-only register or above offset 0x24 is
ignored; CMD and offsets above 0x24 read 0 (log 9). -/
def Obligations.RegisterWindow : Prop :=
  ∀ (s : State) (v : Word),
    (∀ i, hostAct (.readReg i) s = .next { s with responses := .word (s.readReg i) :: s.responses })
    ∧ (s.busy = false → ∀ i ∈ [2, 3, 4, 5], ∃ t, hostAct (.writeReg i v) s = .next t
        ∧ t.readReg i = (if i = 2 ∨ i = 3 then v &&& 0xFFFF#32 else v)
        ∧ (∀ j, j ≠ i → t.readReg j = s.readReg j)
        ∧ t = { s with pageW := t.pageW, pageH := t.pageH, srcAddr := t.srcAddr, srcLen := t.srcLen })
    ∧ (∀ i, 6 ≤ i → hostAct (.writeReg i v) s = .next s)
    ∧ s.readReg 0 = 0 ∧ s.readReg 2 = s.pageW.setWidth 32 ∧ s.readReg 3 = s.pageH.setWidth 32
    ∧ s.readReg 4 = s.srcAddr ∧ s.readReg 5 = s.srcLen ∧ s.readReg 6 = s.rdptr ∧ s.readReg 7 = s.cursor
    ∧ (∀ i, 10 ≤ i → s.readReg i = 0)

/-- R22, R27, R28: the fields of STATUS, HOLD and CAUSE stand at their bits, and the reserved bits read 0. -/
def Obligations.StatusHoldCauseFields : Prop :=
  ∀ s : State,
    (s.readReg 1).getLsbD 0 = s.busy ∧ (s.readReg 1).getLsbD 1 = s.done ∧ (s.readReg 1).getLsbD 2 = s.fault
    ∧ (s.readReg 1).getLsbD 3 = s.busyErr ∧ (s.readReg 1).getLsbD 4 = s.clip ∧ (s.readReg 1).getLsbD 5 = s.odd
    ∧ (s.readReg 1).getLsbD 6 = s.under ∧ (s.readReg 1).getLsbD 7 = s.tailf ∧ (s.readReg 1).getLsbD 8 = s.holdV
    ∧ (s.readReg 1).toNat < 2 ^ 9
    ∧ (s.readReg 8).extractLsb' 0 8 = s.holdC ∧ (s.readReg 8).extractLsb' 8 8 = s.holdN
    ∧ (s.readReg 8).getLsbD 16 = s.holdV ∧ (s.readReg 8).toNat < 2 ^ 17
    ∧ (s.readReg 9).extractLsb' 0 4 = s.causeCode ∧ (s.readReg 9).extractLsb' 4 4 = 0
    ∧ (s.readReg 9).extractLsb' 8 8 = s.warnCnt ∧ (s.readReg 9).toNat < 2 ^ 16

/-- R66: between commands the host writes any bytes of a space, and reads any; outside the space the model stops
(log 11). -/
def Obligations.HostMemoryBetweenCommands : Prop :=
  ∀ (s : State) (sp : Space) (a : Nat) (bs : List Byte), s.busy = false →
    (a + bs.length ≤ spaceSize s.cfg sp →
      ∃ t, hostAct (.writeMem sp a bs) s = .next t
        ∧ (∀ x, t.byteAt sp x = if h : a ≤ x ∧ x < a + bs.length then bs[x - a]'(by omega) else s.byteAt sp x)
        ∧ t = s.setMem sp (t.mem sp))
    ∧ (∀ n, a + n ≤ spaceSize s.cfg sp →
      hostAct (.readMem sp a n) s
        = .next { s with responses := .bytes ((List.range n).map (fun i => s.byteAt sp (a + i))) :: s.responses })
    ∧ (spaceSize s.cfg sp < a + bs.length → hostAct (.writeMem sp a bs) s = .fault .noSuchAddress)

/-- R175, the write: bytes the host writes while a DECODE runs become free values at once, and the model keeps what must be
unspecified at DONE as well: the ranges of LBUF and of CBUF that were written (log 8). Nothing else changes. `BusyStepKeepsPoison` and `DecodeEndFreesPoisoned` carry this to DONE. -/
def Obligations.HostWriteWhileBusyPoisons : Prop :=
  ∀ (s t : State) (sp : Space) (a : Nat) (bs : List Byte), s.busy = true →
    hostAct (.writeMem sp a bs) s = .next t →
      (∀ x, a ≤ x → x < a + bs.length → ∃ k, t.byteAt sp x = Config.freeByte s.ident k)
      ∧ (∀ sp' x, ¬(sp' = sp ∧ a ≤ x ∧ x < a + bs.length) → t.byteAt sp' x = s.byteAt sp' x)
      ∧ t.poison = (if sp = .lbuf then s.poison ++ [⟨a, bs.length⟩] else s.poison)
      ∧ t.tampered = (if sp = .cbuf then s.tampered ++ [⟨a, bs.length⟩] else s.tampered)
      ∧ t = { s with
          cbuf := t.cbuf, lbuf := t.lbuf, canvas := t.canvas, drawn := t.drawn, poison := t.poison, tampered := t.tampered }

/-- R37, R170: after reset every register reads 0, and no byte of a memory is known: each is a free value, of LBUF and
CANVAS the instance's own (log 6). -/
def Obligations.ResetClearsRegisters : Prop :=
  (∀ i, State.reset.readReg i = 0)
  ∧ (∀ a, State.reset.byteAt .cbuf a = Config.cbufByte 0 a
      ∧ State.reset.byteAt .lbuf a = Config.resetByte 0 0 .lbuf a
      ∧ State.reset.byteAt .canvas a = Config.resetByte 0 0 .canvas a)
  ∧ ∀ s : State, ∃ t, hostAct .reset s = .next t ∧ (∀ i, t.readReg i = 0) ∧ t.cfg = s.cfg ∧ t.inputs = s.inputs
      ∧ ∀ a, t.byteAt .cbuf a = Config.cbufByte (s.cbufResets + 1) a
        ∧ t.byteAt .lbuf a = Config.resetByte s.ident (s.resets + 1) .lbuf a
        ∧ t.byteAt .canvas a = Config.resetByte s.ident (s.resets + 1) .canvas a

/-! ### Invariants -/

/-- The invariant holds right after reset. -/
def Obligations.ResetSatisfiesInvariant : Prop := State.reset.Inv

/-- Every step keeps the invariant: memories canonical and inside their spaces, the holder's range, RDPTR even, the
cursor and the read pointer within their bounds while a DECODE runs, no holder pending between commands. -/
def Obligations.StepKeepsInvariant : Prop :=
  ∀ s t : State, s.Inv → step s = .next t → t.Inv

/-- R36: no step changes the parameters. -/
def Obligations.StepKeepsParameters : Prop :=
  ∀ s t : State, step s = .next t → t.cfg = s.cfg

/-- R61, R34: no instruction writes CBUF; only the pairs, LCLR and DECODE write LBUF; only CCLR, BLEND and GRAY write
CANVAS; none writes the configuration registers. -/
def Obligations.WhoWritesWhat : Prop :=
  ∀ (i : Instr) (s t : State), exec i s = .next t →
    t.cbuf = s.cbuf ∧ t.pageW = s.pageW ∧ t.pageH = s.pageH ∧ t.srcAddr = s.srcAddr ∧ t.srcLen = s.srcLen
    ∧ (i = .nop ∨ i = .cclr ∨ i = .blend ∨ i = .gray → t.lbuf = s.lbuf ∧ t.cursor = s.cursor ∧ t.rdptr = s.rdptr
        ∧ t.holdV = s.holdV ∧ t.holdC = s.holdC ∧ t.holdN = s.holdN ∧ t.clip = s.clip ∧ t.odd = s.odd
        ∧ t.under = s.under ∧ t.tailf = s.tailf)
    ∧ ((∀ proto, i ≠ .decode proto) → i ≠ .cclr → t.warnCnt = s.warnCnt)
    ∧ (i ≠ .cclr → i ≠ .blend → i ≠ .gray → t.canvas = s.canvas)

/-- R22: at the transaction level BUSY and BUSYERR stay 0 from step to step. -/
def Obligations.TransactionLevelNeverBusy : Prop :=
  ∀ s t : State, s.cfg.pairSteps = false → s.busy = false → s.busyErr = false → step s = .next t →
    t.busy = false ∧ t.busyErr = false

/-- R166: every word written to CMD while BUSY is 0, command or not, leads to DONE in a bounded number of steps: one for
the command, and if DECODE is stepped pair by pair one for each pair and one for the end. -/
def Obligations.EveryCommandEnds : Prop :=
  ∀ (s : State) (w : Word), s.busy = false → s.inputs = [⟨.whenIdle, .writeReg 0 w⟩] →
    ∃ t, Sys2Proof.core.run (s.srcLen.toNat / 2 + 2) s = .next t ∧ t.busy = false ∧ t.done = true ∧ t.inputs = []

/-- R65, R165: while no host action changes the common CBUF (none is pending that writes it or resets an instance), it
stays as it is, and whatever the interleaving each instance ends where its own steps alone, over that CBUF, would take it.
Instances as a product over one stored CBUF are the model's form (log 17). -/
def Obligations.EnginesDoNotInterfere : Prop :=
  ∀ (y : System) (sched : List Nat) (j : Nat) (s : State), (∀ e ∈ y.engines, e.leavesCbuf = true) →
    y.engines[j]? = some s →
      let z := System.runSchedule sched y
      z.cbuf = y.cbuf ∧ z.cbufResets = y.cbufResets ∧ z.cbufSize = y.cbufSize
      ∧ ∃ t, z.engines[j]? = some t ∧ z.view t = State.runAlone (sched.count j) (y.view s)

/-! ### The page -/

/-- R136, R137: the page sequence leaves the gray of the layers blended back to front over white, a layer whose DECODE
faults being skipped, and WARNCNT counts the skipped layers; the host's last two reads return the raster and CAUSE. The
host as a list of actions is log 4, its test of FAULT log 19, the SRC_ADDR of a block near 2^32 log 21. -/
def Obligations.PageSequenceResult : Prop :=
  ∀ (s : State) (layers : List Layer), s.busy = false → s.cfg.pairSteps = false → s.npix ≤ s.cfg.maxPix →
    s.inputs = renderPage s.npix layers →
    ∃ t, Sys2Proof.core.run (renderPage s.npix layers).length s = .next t
      ∧ t.inputs = [] ∧ t.fault = false ∧ t.cbuf = s.cbuf ∧ t.pageW = s.pageW ∧ t.pageH = s.pageH
      ∧ (∀ p < s.npix, t.pixelAt .canvas p = grayPixel (s.pageCanvas (paintOrder layers) p))
      ∧ (∀ a, 4 * s.npix ≤ a → t.byteAt .canvas a = s.byteAt .canvas a)
      ∧ t.warnCnt.toNat = s.pageWarns (paintOrder layers)
      ∧ ∃ earlier, t.responses
          = .word (t.readReg 9) :: .bytes ((List.range (4 * s.npix)).map (fun a => t.byteAt .canvas a)) :: earlier

/-- R137: every pixel of the page is opaque and gray. -/
def Obligations.PageIsOpaqueAndGray : Prop :=
  ∀ (s : State) (ls : List (Word × Word × Byte)) (p : Nat),
    let px := grayPixel (s.pageCanvas ls p)
    px.a = 255 ∧ px.r = px.g ∧ px.g = px.b

/-! ### Host accesses while a DECODE runs, and several instances over one CBUF -/

/-- R175: from one step of a running DECODE to the next, nothing that must be unspecified at DONE is forgotten, and a byte
of CBUF or CANVAS changes only to a free value (log 8). -/
def Obligations.BusyStepKeepsPoison : Prop :=
  ∀ s t : State, s.busy = true → step s = .next t → t.busy = true →
    s.poison <+: t.poison
    ∧ s.tampered <+: t.tampered
    ∧ t.ident = s.ident
    ∧ ∀ sp ∈ [Space.cbuf, .canvas], ∀ x, t.byteAt sp x = s.byteAt sp x ∨ ∃ k, t.byteAt sp x = Config.freeByte s.ident k

/-- R175, at DONE: every byte of LBUF the host wrote meanwhile is a free value, and so is every byte the DECODE derived from
a stream byte the host wrote; every other byte is what the DECODE leaves there, and CBUF and CANVAS are as they were. Which
bytes are derived is the model's reading (log 8), on which see `DerivedBytesCoverDependence`. -/
def Obligations.DecodeEndFreesPoisoned : Prop :=
  ∀ s u : State, s.turn = .engine u → u.fits = true → u.pairLeft = false →
    ∃ t, step s = .next t ∧ t.busy = false ∧ t.done = true ∧ t.poison = [] ∧ t.tampered = []
      ∧ (∀ r ∈ s.derivedSpans t.cursor.toNat ++ s.poison, ∀ x, r.base ≤ x → x < r.base + r.len →
          ∃ k, t.byteAt .lbuf x = Config.freeByte s.ident k)
      ∧ (∀ x, (∀ r ∈ s.derivedSpans t.cursor.toNat ++ s.poison, ¬(r.base ≤ x ∧ x < r.base + r.len)) →
          t.byteAt .lbuf x = u.decodeTail.byteAt .lbuf x)
      ∧ (∀ x, t.byteAt .cbuf x = s.byteAt .cbuf x ∧ t.byteAt .canvas x = s.byteAt .canvas x)

/-- R175, which bytes a DECODE derives from written stream bytes (log 8).
All that depend on them: of two streams that differ in the ranges `rs` only, a DECODE emits every byte that is not derived
from `rs` at the same place with the same value, whatever the ranges hold.
And exactly this counts as derived from one written byte of pair `k`, in a DECODE that ends at `last`; `b` is where the
pixels of a pending holder end that the pair continues or flushes. From the colour byte of a RUN, or of a MAXRUN with no
holder pending: the pixels of its colour. From that of a HOLD with no holder pending: the holder's pixels, and what is
emitted after a MAXRUN or HOLD that follows. From that of a MAXRUN or HOLD while a holder pends: all from `b` on. From the
length code: all from `b` on, but for the one pixel that CONT emits in any case. From bytes of no whole pair: nothing. Not
every byte that counts as derived depends (61 00 61 00, log 8). -/
def Obligations.DerivedBytesCoverDependence : Prop :=
  (∀ (s1 s2 t1 t2 : State) (rs : List Span), s1.cfg = s2.cfg → s1.cfg.pairSteps = false → s1.pageW = s2.pageW →
    s1.pageH = s2.pageH → s1.srcAddr = s2.srcAddr → s1.srcLen = s2.srcLen → s1.decodeCheck 0 = none →
    (∀ a, (∀ r ∈ rs, ¬(r.base ≤ a ∧ a < r.base + r.len)) → s1.byteAt .cbuf a = s2.byteAt .cbuf a) →
    exec (.decode 0) s1 = .next t1 → exec (.decode 0) s2 = .next t2 →
      ∀ x < 4 * t1.cursor.toNat,
        (∀ r ∈ ({ s1 with tampered := rs } : State).derivedSpans t1.cursor.toNat, ¬(r.base ≤ x ∧ x < r.base + r.len)) →
        x < 4 * t2.cursor.toNat ∧ t1.byteAt .lbuf x = t2.byteAt .lbuf x)
  ∧ ∀ (s : State) (k last : Nat), 2 * k + 1 < s.srcLen.toNat →
    let u := State.pairLoop k s.decodeInit
    let v := State.pairLoop (k + 1) s.decodeInit
    let derived := fun (w : Span) (x : Nat) =>
      ∃ r ∈ ({ s with tampered := [w] } : State).derivedSpans last, r.base ≤ x ∧ x < r.base + r.len
    let n := u.fetchedLength.toNat
    let next := v.fetchedLength.toNat
    let held := fun (h : Byte) => ((h &&& 0x7F#8).toNat + 1) * 128
    let b := u.cursor.toNat + (if u.holdV then held u.holdN else 0)
    let colour := derived ⟨s.srcAddr.toNat + 2 * k, 1⟩
    let length := derived ⟨s.srcAddr.toNat + 2 * k + 1, 1⟩
    v.cursor.toNat ≤ last → last ≤ s.npix →
      (n ≤ 0x7F ∨ u.holdV = false ∧ n = 0xFF → ∀ x, colour x ↔ 4 * b ≤ x ∧ x < 4 * v.cursor.toNat)
      ∧ (u.holdV = true → 0x80 ≤ n → ∀ x, colour x ↔ 4 * b ≤ x ∧ x < 4 * last)
      ∧ (u.holdV = false → 0x80 ≤ n → n ≤ 0xFE → ∀ x,
        let e := v.cursor.toNat + held u.fetchedLength
        (s.srcLen.toNat < 2 * k + 4 → (colour x ↔ 4 * v.cursor.toNat ≤ x ∧ x < 4 * last))
        ∧ (2 * k + 4 ≤ s.srcLen.toNat →
          (next ≤ 0x7F → (colour x ↔ 4 * v.cursor.toNat ≤ x ∧ x < 4 * min e last))
          ∧ (0x80 ≤ next → next ≤ 0xFE → (colour x ↔ 4 * v.cursor.toNat ≤ x ∧ x < 4 * last))
          ∧ (next = 0xFF → (colour x ↔ 4 * v.cursor.toNat ≤ x ∧ x < 4 * min e last
              ∨ 4 * (e + 256) ≤ x ∧ x < 4 * last))))
      ∧ (¬(u.holdV = true ∧ u.fetchedColour = u.holdC) → ∀ x, length x ↔ 4 * b ≤ x ∧ x < 4 * last)
      ∧ (u.holdV = true → u.fetchedColour = u.holdC → ∀ x, length x ↔ 4 * (b + 1) ≤ x ∧ x < 4 * last)
      ∧ ∀ w : Span,
        (∀ o < 2 * (s.srcLen.toNat / 2), ¬(w.base ≤ s.srcAddr.toNat + o ∧ s.srcAddr.toNat + o < w.base + w.len)) →
          ∀ x, ¬derived w x

/-- R175, the read: while a DECODE runs the host reads a free value for each byte of LBUF below `4 * NPIX`, and the byte
itself elsewhere. The read changes nothing but what the host has read and the count of drawn bytes (logs 5, 7). -/
def Obligations.HostReadWhileBusyUnspecified : Prop :=
  ∀ (s : State) (sp : Space) (a n : Nat), s.busy = true → a + n ≤ spaceSize s.cfg sp →
    ∃ bs : List Byte, bs.length = n
      ∧ hostAct (.readMem sp a n) s = .next { s with responses := .bytes bs :: s.responses, drawn := s.drawn + n }
      ∧ ∀ (i : Nat) (b : Byte), bs[i]? = some b →
          (sp = .lbuf → a + i < 4 * s.npix → ∃ k, b = Config.freeByte s.ident k)
          ∧ (sp ≠ .lbuf ∨ 4 * s.npix ≤ a + i → b = s.byteAt sp (a + i))

/-- R65: there is one CBUF. What the host writes to it through one idle instance, or loads into it, every instance reads;
if another instance runs a DECODE the bytes written are free values, and that instance counts them for R175 (logs 8, 17).
Registers, LBUF and CANVAS of the other instances are not touched. -/
def Obligations.CommonCbufIsOne : Prop :=
  (∀ (y : System) (i : Nat) (s : State) (tm : Timing) (a : Nat) (bs : List Byte) (rest : List HostEvent),
    y.engines[i]? = some s → s.busy = false → s.inputs = ⟨tm, .writeMem .cbuf a bs⟩ :: rest →
    a + bs.length ≤ y.cbufSize →
      let z := y.stepAt i
      (∀ (j : Nat) (t : State), z.engines[j]? = some t → ∀ x, (z.view t).byteAt .cbuf x =
        if h : a ≤ x ∧ x < a + bs.length then
          if y.othersBusy i then Config.freeByte s.ident (s.drawn + (x - a)) else bs[x - a]'(by omega)
        else (y.view s).byteAt .cbuf x)
      ∧ ∀ (j : Nat) (t : State), j ≠ i → y.engines[j]? = some t → z.engines[j]? = some
          (if t.busy then { t with tampered := t.tampered ++ [⟨a, bs.length⟩] } else t))
  ∧ ∀ (y z : System) (a : Nat) (bs : List Byte), y.loadCbuf a bs = some z →
      a + bs.length ≤ y.cbufSize ∧ z.engines = y.engines
      ∧ ∀ s ∈ y.engines, s.busy = false ∧ ∀ x, (z.view s).byteAt .cbuf x =
          if h : a ≤ x ∧ x < a + bs.length then bs[x - a]'(by omega) else (y.view s).byteAt .cbuf x

/-- R165, R170: the reset of one instance, BUSY or not, clears its registers; the common CBUF becomes unspecified for every
instance (DESIGN CHOICE, log 22), and of the others nothing changes but what R175 counts for one that runs a DECODE. -/
def Obligations.ResetOfOneInstance : Prop :=
  ∀ (y : System) (i : Nat) (s s' : State), y.engines[i]? = some s → s.turn = .host .reset s' →
      let z := y.stepAt i
      (∃ u, z.engines[i]? = some u ∧ ∀ r, (z.view u).readReg r = 0)
      ∧ (∀ (j : Nat) (t : State), z.engines[j]? = some t → ∀ x,
          (z.view t).byteAt .cbuf x = Config.cbufByte (y.cbufResets + 1) x)
      ∧ ∀ (j : Nat) (t : State), j ≠ i → y.engines[j]? = some t → z.engines[j]? = some
          (if t.busy then { t with tampered := t.tampered ++ [⟨0, y.cbufSize⟩] } else t)
end

