-- ==== Sys2Proof/Laws/Memory.lean ====
section
/-! SUPPORT. What the memory operations do: a byte read after a write, and that each keeps the canonical form. -/

namespace Sys2Proof.Machine

/-! ### Reading a byte -/

theorem Memory.get_nil (a : Nat) : Memory.get [] a = none := rfl

theorem Memory.get_cons (b : Nat) (v : Byte) (t : Memory) (a : Nat) :
    Memory.get ((b, v) :: t) a = if b = a then some v else Memory.get t a := rfl

/-- Cells kept by a test on addresses read as before where the test holds. -/
theorem Memory.get_filter (q : Nat → Bool) (m : Memory) (a : Nat) :
    Memory.get (m.filter (fun c => q c.1)) a = if q a then m.get a else none := by
  induction m with
  | nil => simp [Memory.get]
  | cons c t ih =>
    obtain ⟨b, v⟩ := c
    by_cases hb : q b
    · simp only [List.filter_cons, hb, if_true, Memory.get_cons, ih]
      by_cases hba : b = a
      · subst hba; simp [hb]
      · simp [hba]
    · simp only [List.filter_cons, hb, Memory.get_cons]
      by_cases hba : b = a
      · subst hba; simp [hb, ih]
      · simp [hba, ih]

theorem Memory.get_append (m n : Memory) (a : Nat) : Memory.get (m ++ n) a = (m.get a).or (n.get a) := by
  induction m with
  | nil => simp [Memory.get]
  | cons c t ih =>
    obtain ⟨b, v⟩ := c
    simp only [List.cons_append, Memory.get_cons, ih]
    split <;> simp

theorem Memory.get_cells (bs : List Byte) : ∀ a x, Memory.get (Memory.cells a bs) x =
    if a ≤ x then bs[x - a]? else none := by
  induction bs with
  | nil => intro a x; simp [Memory.cells, Memory.get]
  | cons b bs ih =>
    intro a x
    simp only [Memory.cells, Memory.get_cons, ih]
    by_cases h : a = x
    · subst h; simp
    · by_cases h2 : a ≤ x
      · have h3 : a + 1 ≤ x := by omega
        obtain ⟨d, rfl⟩ : ∃ d, x = a + 1 + d := ⟨x - (a + 1), by omega⟩
        have e1 : a + 1 + d - a = d + 1 := by omega
        simp [h, h2, h3, e1]
      · have h3 : ¬ a + 1 ≤ x := by omega
        simp [h, h2, h3]

/-- A read after a write: the written bytes inside the range, what was there outside it. -/
theorem Memory.get_write (m : Memory) (a : Nat) (bs : List Byte) (x : Nat) :
    (m.write a bs).get x = if a ≤ x ∧ x < a + bs.length then bs[x - a]? else m.get x := by
  have hlo := Memory.get_filter (fun y => decide (y < a)) m x
  have hhi := Memory.get_filter (fun y => decide (a + bs.length ≤ y)) m x
  simp only [Memory.write, Memory.get_append, Memory.get_cells]
  rw [hlo, hhi]
  by_cases h1 : a ≤ x
  · by_cases h2 : x < a + bs.length
    · have e : bs[x - a]? = some (bs[x - a]'(by omega)) := List.getElem?_eq_getElem _
      have h3 : ¬ x < a := by omega
      simp [h1, h2, h3, e]
    · have h3 : ¬ x < a := by omega
      have h4 : a + bs.length ≤ x := by omega
      have e : bs[x - a]? = none := List.getElem?_eq_none (by omega)
      simp [h1, h2, h3, h4, e]
  · have h3 : x < a := by omega
    have h4 : ¬ a + bs.length ≤ x := by omega
    simp [h1, h3, h4]

theorem Memory.get_write_outside (m : Memory) (a : Nat) (bs : List Byte) (x : Nat)
    (h : ¬(a ≤ x ∧ x < a + bs.length)) : (m.write a bs).get x = m.get x := by
  rw [Memory.get_write, if_neg h]

theorem length_pixelRun (k : Nat) (px : Pixel) : (pixelRun k px).length = 4 * k := by
  simp [pixelRun, pixelBytes, Nat.mul_comm]

/-- Byte `j` of a run of equal pixels is a lane of the pixel. -/
theorem getElem?_pixelRun (k : Nat) (px : Pixel) : ∀ j, j < 4 * k → (pixelRun k px)[j]? = some (pixelLane px (j % 4)) := by
  induction k with
  | zero => intro j hj; omega
  | succ k ih =>
    intro j hj
    have e : pixelRun (k + 1) px = px.r :: px.g :: px.b :: px.a :: pixelRun k px := by
      simp [pixelRun, pixelBytes, List.replicate_succ]
    rw [e]
    match j, hj with
    | 0, _ => rfl
    | 1, _ => rfl
    | 2, _ => rfl
    | 3, _ => rfl
    | j + 4, hj =>
      have := ih j (by omega)
      simp only [List.getElem?_cons_succ, this]
      congr 2
      omega

/-- A byte after a run of equal pixels has been written. -/
theorem Memory.get_fillPixels (m : Memory) (p k : Nat) (px : Pixel) (x : Nat) :
    (m.fillPixels p k px).get x =
      if 4 * p ≤ x ∧ x < 4 * (p + k) then some (pixelLane px (x % 4)) else m.get x := by
  unfold Memory.fillPixels
  rw [Memory.get_write, length_pixelRun]
  by_cases h : 4 * p ≤ x ∧ x < 4 * (p + k)
  · have h' : 4 * p ≤ x ∧ x < 4 * p + 4 * k := by omega
    rw [if_pos h, if_pos h', getElem?_pixelRun _ _ _ (by omega)]
    congr 2
    omega
  · have h' : ¬(4 * p ≤ x ∧ x < 4 * p + 4 * k) := by omega
    rw [if_neg h, if_neg h']

/-- A byte after one pixel has been written. -/
theorem Memory.get_writePixel (m : Memory) (p : Nat) (px : Pixel) (x : Nat) :
    (m.writePixel p px).get x = if x / 4 = p then some (pixelLane px (x % 4)) else m.get x := by
  have h := Memory.get_fillPixels m p 1 px x
  have e : m.fillPixels p 1 px = m.writePixel p px := by
    simp [Memory.fillPixels, Memory.writePixel, pixelRun]
  rw [e] at h
  rw [h]
  by_cases hx : x / 4 = p
  · rw [if_pos hx, if_pos (by omega)]
  · rw [if_neg hx, if_neg (by omega)]

/-- A byte after a pixel-wise update. -/
theorem Memory.get_writePixels (m : Memory) (n : Nat) (f : Nat → Option Pixel) (x : Nat) :
    (m.writePixels n f).get x =
      if x / 4 < n then ((f (x / 4)).map (fun px => pixelLane px (x % 4))).or (m.get x) else m.get x := by
  induction n with
  | zero => simp [Memory.writePixels]
  | succ n ih =>
    have e : m.writePixels (n + 1) f = (m.writePixels n f).writeIf n (f n) := by
      simp only [Memory.writePixels, List.range_succ, List.foldl_append, List.foldl_cons, List.foldl_nil]
    rw [e]
    by_cases hx : x / 4 = n
    · have h1 : ¬ x / 4 < n := by omega
      have h2 : x / 4 < n + 1 := by omega
      rw [if_neg h1] at ih
      rw [if_pos h2, hx]
      cases hf : f n with
      | none => simpa [Memory.writeIf] using ih
      | some px => simp [Memory.writeIf, Memory.get_writePixel, hx]
    · have h0 : ((m.writePixels n f).writeIf n (f n)).get x = (m.writePixels n f).get x := by
        cases f n with
        | none => rfl
        | some px => simp [Memory.writeIf, Memory.get_writePixel, hx]
      rw [h0, ih]
      by_cases h1 : x / 4 < n
      · rw [if_pos h1, if_pos (by omega)]
      · rw [if_neg h1, if_neg (by omega)]

/-! ### The canonical form -/

theorem Memory.mem_cells {bs : List Byte} : ∀ {a : Nat} {c : Host.Cell}, c ∈ Memory.cells a bs →
    a ≤ c.1 ∧ c.1 < a + bs.length := by
  induction bs with
  | nil => intro a c h; simp [Memory.cells] at h
  | cons b bs ih =>
    intro a c h
    simp only [Memory.cells, List.mem_cons] at h
    rcases h with rfl | h
    · simp
    · have := ih h
      simp only [List.length_cons]
      omega

theorem Memory.wf_cells (bs : List Byte) : ∀ a, (Memory.cells a bs).wf := by
  induction bs with
  | nil => intro a; exact List.Pairwise.nil
  | cons b bs ih =>
    intro a
    refine List.Pairwise.cons ?_ (ih (a + 1))
    intro c hc
    have := Memory.mem_cells hc
    show a < c.1
    omega

theorem Memory.mem_write {m : Memory} {a : Nat} {bs : List Byte} {c : Host.Cell} (h : c ∈ m.write a bs) :
    c ∈ m ∨ (a ≤ c.1 ∧ c.1 < a + bs.length) := by
  simp only [Memory.write, List.mem_append, List.mem_filter] at h
  rcases h with h | h | h
  · exact .inl h.1
  · exact .inr (Memory.mem_cells h)
  · exact .inl h.1

theorem Memory.wf_write {m : Memory} (h : m.wf) (a : Nat) (bs : List Byte) : (m.write a bs).wf := by
  refine List.pairwise_append.2 ⟨h.filter _, List.pairwise_append.2 ⟨Memory.wf_cells bs a, h.filter _, ?_⟩, ?_⟩
  · intro c hc d hd
    have h1 := Memory.mem_cells hc
    have h2 : a + bs.length ≤ d.1 := by simpa using (List.mem_filter.1 hd).2
    omega
  · intro c hc d hd
    have h1 : c.1 < a := by simpa using (List.mem_filter.1 hc).2
    rcases List.mem_append.1 hd with hd | hd
    · have h2 := Memory.mem_cells hd
      omega
    · have h2 : a + bs.length ≤ d.1 := by simpa using (List.mem_filter.1 hd).2
      omega

theorem Memory.wf_fillPixels {m : Memory} (h : m.wf) (p k : Nat) (px : Pixel) : (m.fillPixels p k px).wf :=
  Memory.wf_write h _ _

theorem Memory.wf_writePixel {m : Memory} (h : m.wf) (p : Nat) (px : Pixel) : (m.writePixel p px).wf :=
  Memory.wf_write h _ _

theorem Memory.mem_fillPixels {m : Memory} {p k : Nat} {px : Pixel} {c : Host.Cell} (h : c ∈ m.fillPixels p k px) :
    c ∈ m ∨ c.1 < 4 * (p + k) := by
  rcases Memory.mem_write h with h | h
  · exact .inl h
  · rw [length_pixelRun] at h
    exact .inr (by omega)

/-- A pixel-wise update keeps every property that writing one pixel below the bound keeps. -/
theorem Memory.writePixels_induction (P : Memory → Prop) (m : Memory) (n : Nat) (f : Nat → Option Pixel) (h0 : P m)
    (hs : ∀ m p px, p < n → P m → P (m.writePixel p px)) : P (m.writePixels n f) := by
  unfold Memory.writePixels
  suffices h : ∀ (l : List Nat), (∀ p ∈ l, p < n) → ∀ m, P m → P (l.foldl (fun m p => m.writeIf p (f p)) m) from h _ (fun p hp => List.mem_range.1 hp) m h0
  intro l
  induction l with
  | nil => intro _ m hm; exact hm
  | cons p l ih =>
    intro hl m hm
    simp only [List.foldl_cons]
    refine ih (fun q hq => hl q (List.mem_cons_of_mem _ hq)) _ ?_
    cases f p with
    | none => exact hm
    | some px => exact hs _ _ _ (hl p List.mem_cons_self) hm

theorem Memory.wf_writePixels {m : Memory} (h : m.wf) (n : Nat) (f : Nat → Option Pixel) : (m.writePixels n f).wf :=
  Memory.writePixels_induction Memory.wf m n f h (fun _ _ _ _ hm => Memory.wf_writePixel hm _ _)

theorem Memory.inside_writePixels {m : Memory} {b n : Nat} {f : Nat → Option Pixel} (hn : 4 * n ≤ b)
    (h : ∀ c ∈ m, c.1 < b) : ∀ c ∈ m.writePixels n f, c.1 < b :=
  Memory.writePixels_induction (fun m => ∀ c ∈ m, c.1 < b) m n f h (by
    intro m p px hp hm c hc
    rcases Memory.mem_write hc with hc | hc
    · exact hm c hc
    · have : (pixelBytes px).length = 4 := rfl
      omega)

end Sys2Proof.Machine
end

