-- ==== Sys2Proof/Laws/State.lean ====
section
/-! SUPPORT. One lemma per field per update of the state, and what a byte or pixel reads after an update. -/

namespace Sys2Proof.Machine

/-! ### `emit` -/

@[simp] theorem State.emit_cfg (s : State) (c : Byte) (k : Nat) : (s.emit c k).cfg = s.cfg := rfl
@[simp] theorem State.emit_busy (s : State) (c : Byte) (k : Nat) : (s.emit c k).busy = s.busy := rfl
@[simp] theorem State.emit_done (s : State) (c : Byte) (k : Nat) : (s.emit c k).done = s.done := rfl
@[simp] theorem State.emit_fault (s : State) (c : Byte) (k : Nat) : (s.emit c k).fault = s.fault := rfl
@[simp] theorem State.emit_busyErr (s : State) (c : Byte) (k : Nat) : (s.emit c k).busyErr = s.busyErr := rfl
@[simp] theorem State.emit_odd (s : State) (c : Byte) (k : Nat) : (s.emit c k).odd = s.odd := rfl
@[simp] theorem State.emit_under (s : State) (c : Byte) (k : Nat) : (s.emit c k).under = s.under := rfl
@[simp] theorem State.emit_tailf (s : State) (c : Byte) (k : Nat) : (s.emit c k).tailf = s.tailf := rfl
@[simp] theorem State.emit_pageW (s : State) (c : Byte) (k : Nat) : (s.emit c k).pageW = s.pageW := rfl
@[simp] theorem State.emit_pageH (s : State) (c : Byte) (k : Nat) : (s.emit c k).pageH = s.pageH := rfl
@[simp] theorem State.emit_srcAddr (s : State) (c : Byte) (k : Nat) : (s.emit c k).srcAddr = s.srcAddr := rfl
@[simp] theorem State.emit_srcLen (s : State) (c : Byte) (k : Nat) : (s.emit c k).srcLen = s.srcLen := rfl
@[simp] theorem State.emit_rdptr (s : State) (c : Byte) (k : Nat) : (s.emit c k).rdptr = s.rdptr := rfl
@[simp] theorem State.emit_holdV (s : State) (c : Byte) (k : Nat) : (s.emit c k).holdV = s.holdV := rfl
@[simp] theorem State.emit_holdC (s : State) (c : Byte) (k : Nat) : (s.emit c k).holdC = s.holdC := rfl
@[simp] theorem State.emit_holdN (s : State) (c : Byte) (k : Nat) : (s.emit c k).holdN = s.holdN := rfl
@[simp] theorem State.emit_causeCode (s : State) (c : Byte) (k : Nat) : (s.emit c k).causeCode = s.causeCode := rfl
@[simp] theorem State.emit_warnCnt (s : State) (c : Byte) (k : Nat) : (s.emit c k).warnCnt = s.warnCnt := rfl
@[simp] theorem State.emit_cbuf (s : State) (c : Byte) (k : Nat) : (s.emit c k).cbuf = s.cbuf := rfl
@[simp] theorem State.emit_canvas (s : State) (c : Byte) (k : Nat) : (s.emit c k).canvas = s.canvas := rfl
@[simp] theorem State.emit_ident (s : State) (c : Byte) (k : Nat) : (s.emit c k).ident = s.ident := rfl
@[simp] theorem State.emit_resets (s : State) (c : Byte) (k : Nat) : (s.emit c k).resets = s.resets := rfl
@[simp] theorem State.emit_cbufResets (s : State) (c : Byte) (k : Nat) : (s.emit c k).cbufResets = s.cbufResets := rfl
@[simp] theorem State.emit_drawn (s : State) (c : Byte) (k : Nat) : (s.emit c k).drawn = s.drawn := rfl
@[simp] theorem State.emit_poison (s : State) (c : Byte) (k : Nat) : (s.emit c k).poison = s.poison := rfl
@[simp] theorem State.emit_tampered (s : State) (c : Byte) (k : Nat) : (s.emit c k).tampered = s.tampered := rfl
@[simp] theorem State.emit_inputs (s : State) (c : Byte) (k : Nat) : (s.emit c k).inputs = s.inputs := rfl
@[simp] theorem State.emit_responses (s : State) (c : Byte) (k : Nat) : (s.emit c k).responses = s.responses := rfl

/-! ### `clearHolder` -/

@[simp] theorem State.clearHolder_cfg (s : State) : (s.clearHolder).cfg = s.cfg := rfl
@[simp] theorem State.clearHolder_busy (s : State) : (s.clearHolder).busy = s.busy := rfl
@[simp] theorem State.clearHolder_done (s : State) : (s.clearHolder).done = s.done := rfl
@[simp] theorem State.clearHolder_fault (s : State) : (s.clearHolder).fault = s.fault := rfl
@[simp] theorem State.clearHolder_busyErr (s : State) : (s.clearHolder).busyErr = s.busyErr := rfl
@[simp] theorem State.clearHolder_clip (s : State) : (s.clearHolder).clip = s.clip := rfl
@[simp] theorem State.clearHolder_odd (s : State) : (s.clearHolder).odd = s.odd := rfl
@[simp] theorem State.clearHolder_under (s : State) : (s.clearHolder).under = s.under := rfl
@[simp] theorem State.clearHolder_tailf (s : State) : (s.clearHolder).tailf = s.tailf := rfl
@[simp] theorem State.clearHolder_pageW (s : State) : (s.clearHolder).pageW = s.pageW := rfl
@[simp] theorem State.clearHolder_pageH (s : State) : (s.clearHolder).pageH = s.pageH := rfl
@[simp] theorem State.clearHolder_srcAddr (s : State) : (s.clearHolder).srcAddr = s.srcAddr := rfl
@[simp] theorem State.clearHolder_srcLen (s : State) : (s.clearHolder).srcLen = s.srcLen := rfl
@[simp] theorem State.clearHolder_rdptr (s : State) : (s.clearHolder).rdptr = s.rdptr := rfl
@[simp] theorem State.clearHolder_cursor (s : State) : (s.clearHolder).cursor = s.cursor := rfl
@[simp] theorem State.clearHolder_holdV (s : State) : (s.clearHolder).holdV = false := rfl
@[simp] theorem State.clearHolder_holdC (s : State) : (s.clearHolder).holdC = s.holdC := rfl
@[simp] theorem State.clearHolder_holdN (s : State) : (s.clearHolder).holdN = s.holdN := rfl
@[simp] theorem State.clearHolder_causeCode (s : State) : (s.clearHolder).causeCode = s.causeCode := rfl
@[simp] theorem State.clearHolder_warnCnt (s : State) : (s.clearHolder).warnCnt = s.warnCnt := rfl
@[simp] theorem State.clearHolder_cbuf (s : State) : (s.clearHolder).cbuf = s.cbuf := rfl
@[simp] theorem State.clearHolder_lbuf (s : State) : (s.clearHolder).lbuf = s.lbuf := rfl
@[simp] theorem State.clearHolder_canvas (s : State) : (s.clearHolder).canvas = s.canvas := rfl
@[simp] theorem State.clearHolder_ident (s : State) : (s.clearHolder).ident = s.ident := rfl
@[simp] theorem State.clearHolder_resets (s : State) : (s.clearHolder).resets = s.resets := rfl
@[simp] theorem State.clearHolder_cbufResets (s : State) : (s.clearHolder).cbufResets = s.cbufResets := rfl
@[simp] theorem State.clearHolder_drawn (s : State) : (s.clearHolder).drawn = s.drawn := rfl
@[simp] theorem State.clearHolder_poison (s : State) : (s.clearHolder).poison = s.poison := rfl
@[simp] theorem State.clearHolder_tampered (s : State) : (s.clearHolder).tampered = s.tampered := rfl
@[simp] theorem State.clearHolder_inputs (s : State) : (s.clearHolder).inputs = s.inputs := rfl
@[simp] theorem State.clearHolder_responses (s : State) : (s.clearHolder).responses = s.responses := rfl

/-! ### `stash` -/

@[simp] theorem State.stash_cfg (s : State) (c n : Byte) : (s.stash c n).cfg = s.cfg := rfl
@[simp] theorem State.stash_busy (s : State) (c n : Byte) : (s.stash c n).busy = s.busy := rfl
@[simp] theorem State.stash_done (s : State) (c n : Byte) : (s.stash c n).done = s.done := rfl
@[simp] theorem State.stash_fault (s : State) (c n : Byte) : (s.stash c n).fault = s.fault := rfl
@[simp] theorem State.stash_busyErr (s : State) (c n : Byte) : (s.stash c n).busyErr = s.busyErr := rfl
@[simp] theorem State.stash_clip (s : State) (c n : Byte) : (s.stash c n).clip = s.clip := rfl
@[simp] theorem State.stash_odd (s : State) (c n : Byte) : (s.stash c n).odd = s.odd := rfl
@[simp] theorem State.stash_under (s : State) (c n : Byte) : (s.stash c n).under = s.under := rfl
@[simp] theorem State.stash_tailf (s : State) (c n : Byte) : (s.stash c n).tailf = s.tailf := rfl
@[simp] theorem State.stash_pageW (s : State) (c n : Byte) : (s.stash c n).pageW = s.pageW := rfl
@[simp] theorem State.stash_pageH (s : State) (c n : Byte) : (s.stash c n).pageH = s.pageH := rfl
@[simp] theorem State.stash_srcAddr (s : State) (c n : Byte) : (s.stash c n).srcAddr = s.srcAddr := rfl
@[simp] theorem State.stash_srcLen (s : State) (c n : Byte) : (s.stash c n).srcLen = s.srcLen := rfl
@[simp] theorem State.stash_rdptr (s : State) (c n : Byte) : (s.stash c n).rdptr = s.rdptr := rfl
@[simp] theorem State.stash_cursor (s : State) (c n : Byte) : (s.stash c n).cursor = s.cursor := rfl
@[simp] theorem State.stash_holdV (s : State) (c n : Byte) : (s.stash c n).holdV = true := rfl
@[simp] theorem State.stash_holdC (s : State) (c n : Byte) : (s.stash c n).holdC = c := rfl
@[simp] theorem State.stash_holdN (s : State) (c n : Byte) : (s.stash c n).holdN = n := rfl
@[simp] theorem State.stash_causeCode (s : State) (c n : Byte) : (s.stash c n).causeCode = s.causeCode := rfl
@[simp] theorem State.stash_warnCnt (s : State) (c n : Byte) : (s.stash c n).warnCnt = s.warnCnt := rfl
@[simp] theorem State.stash_cbuf (s : State) (c n : Byte) : (s.stash c n).cbuf = s.cbuf := rfl
@[simp] theorem State.stash_lbuf (s : State) (c n : Byte) : (s.stash c n).lbuf = s.lbuf := rfl
@[simp] theorem State.stash_canvas (s : State) (c n : Byte) : (s.stash c n).canvas = s.canvas := rfl
@[simp] theorem State.stash_ident (s : State) (c n : Byte) : (s.stash c n).ident = s.ident := rfl
@[simp] theorem State.stash_resets (s : State) (c n : Byte) : (s.stash c n).resets = s.resets := rfl
@[simp] theorem State.stash_cbufResets (s : State) (c n : Byte) : (s.stash c n).cbufResets = s.cbufResets := rfl
@[simp] theorem State.stash_drawn (s : State) (c n : Byte) : (s.stash c n).drawn = s.drawn := rfl
@[simp] theorem State.stash_poison (s : State) (c n : Byte) : (s.stash c n).poison = s.poison := rfl
@[simp] theorem State.stash_tampered (s : State) (c n : Byte) : (s.stash c n).tampered = s.tampered := rfl
@[simp] theorem State.stash_inputs (s : State) (c n : Byte) : (s.stash c n).inputs = s.inputs := rfl
@[simp] theorem State.stash_responses (s : State) (c n : Byte) : (s.stash c n).responses = s.responses := rfl

/-! ### `advance` -/

@[simp] theorem State.advance_cfg (s : State) : (s.advance).cfg = s.cfg := rfl
@[simp] theorem State.advance_busy (s : State) : (s.advance).busy = s.busy := rfl
@[simp] theorem State.advance_done (s : State) : (s.advance).done = s.done := rfl
@[simp] theorem State.advance_fault (s : State) : (s.advance).fault = s.fault := rfl
@[simp] theorem State.advance_busyErr (s : State) : (s.advance).busyErr = s.busyErr := rfl
@[simp] theorem State.advance_clip (s : State) : (s.advance).clip = s.clip := rfl
@[simp] theorem State.advance_odd (s : State) : (s.advance).odd = s.odd := rfl
@[simp] theorem State.advance_under (s : State) : (s.advance).under = s.under := rfl
@[simp] theorem State.advance_tailf (s : State) : (s.advance).tailf = s.tailf := rfl
@[simp] theorem State.advance_pageW (s : State) : (s.advance).pageW = s.pageW := rfl
@[simp] theorem State.advance_pageH (s : State) : (s.advance).pageH = s.pageH := rfl
@[simp] theorem State.advance_srcAddr (s : State) : (s.advance).srcAddr = s.srcAddr := rfl
@[simp] theorem State.advance_srcLen (s : State) : (s.advance).srcLen = s.srcLen := rfl
@[simp] theorem State.advance_rdptr (s : State) : (s.advance).rdptr = s.rdptr + 2#32 := rfl
@[simp] theorem State.advance_cursor (s : State) : (s.advance).cursor = s.cursor := rfl
@[simp] theorem State.advance_holdV (s : State) : (s.advance).holdV = s.holdV := rfl
@[simp] theorem State.advance_holdC (s : State) : (s.advance).holdC = s.holdC := rfl
@[simp] theorem State.advance_holdN (s : State) : (s.advance).holdN = s.holdN := rfl
@[simp] theorem State.advance_causeCode (s : State) : (s.advance).causeCode = s.causeCode := rfl
@[simp] theorem State.advance_warnCnt (s : State) : (s.advance).warnCnt = s.warnCnt := rfl
@[simp] theorem State.advance_cbuf (s : State) : (s.advance).cbuf = s.cbuf := rfl
@[simp] theorem State.advance_lbuf (s : State) : (s.advance).lbuf = s.lbuf := rfl
@[simp] theorem State.advance_canvas (s : State) : (s.advance).canvas = s.canvas := rfl
@[simp] theorem State.advance_ident (s : State) : (s.advance).ident = s.ident := rfl
@[simp] theorem State.advance_resets (s : State) : (s.advance).resets = s.resets := rfl
@[simp] theorem State.advance_cbufResets (s : State) : (s.advance).cbufResets = s.cbufResets := rfl
@[simp] theorem State.advance_drawn (s : State) : (s.advance).drawn = s.drawn := rfl
@[simp] theorem State.advance_poison (s : State) : (s.advance).poison = s.poison := rfl
@[simp] theorem State.advance_tampered (s : State) : (s.advance).tampered = s.tampered := rfl
@[simp] theorem State.advance_inputs (s : State) : (s.advance).inputs = s.inputs := rfl
@[simp] theorem State.advance_responses (s : State) : (s.advance).responses = s.responses := rfl

/-! ### `beginCommand` -/

@[simp] theorem State.beginCommand_cfg (s : State) : (s.beginCommand).cfg = s.cfg := rfl
@[simp] theorem State.beginCommand_busy (s : State) : (s.beginCommand).busy = true := rfl
@[simp] theorem State.beginCommand_done (s : State) : (s.beginCommand).done = false := rfl
@[simp] theorem State.beginCommand_fault (s : State) : (s.beginCommand).fault = false := rfl
@[simp] theorem State.beginCommand_busyErr (s : State) : (s.beginCommand).busyErr = s.busyErr := rfl
@[simp] theorem State.beginCommand_clip (s : State) : (s.beginCommand).clip = s.clip := rfl
@[simp] theorem State.beginCommand_odd (s : State) : (s.beginCommand).odd = s.odd := rfl
@[simp] theorem State.beginCommand_under (s : State) : (s.beginCommand).under = s.under := rfl
@[simp] theorem State.beginCommand_tailf (s : State) : (s.beginCommand).tailf = s.tailf := rfl
@[simp] theorem State.beginCommand_pageW (s : State) : (s.beginCommand).pageW = s.pageW := rfl
@[simp] theorem State.beginCommand_pageH (s : State) : (s.beginCommand).pageH = s.pageH := rfl
@[simp] theorem State.beginCommand_srcAddr (s : State) : (s.beginCommand).srcAddr = s.srcAddr := rfl
@[simp] theorem State.beginCommand_srcLen (s : State) : (s.beginCommand).srcLen = s.srcLen := rfl
@[simp] theorem State.beginCommand_rdptr (s : State) : (s.beginCommand).rdptr = s.rdptr := rfl
@[simp] theorem State.beginCommand_cursor (s : State) : (s.beginCommand).cursor = s.cursor := rfl
@[simp] theorem State.beginCommand_holdV (s : State) : (s.beginCommand).holdV = s.holdV := rfl
@[simp] theorem State.beginCommand_holdC (s : State) : (s.beginCommand).holdC = s.holdC := rfl
@[simp] theorem State.beginCommand_holdN (s : State) : (s.beginCommand).holdN = s.holdN := rfl
@[simp] theorem State.beginCommand_causeCode (s : State) : (s.beginCommand).causeCode = s.causeCode := rfl
@[simp] theorem State.beginCommand_warnCnt (s : State) : (s.beginCommand).warnCnt = s.warnCnt := rfl
@[simp] theorem State.beginCommand_cbuf (s : State) : (s.beginCommand).cbuf = s.cbuf := rfl
@[simp] theorem State.beginCommand_lbuf (s : State) : (s.beginCommand).lbuf = s.lbuf := rfl
@[simp] theorem State.beginCommand_canvas (s : State) : (s.beginCommand).canvas = s.canvas := rfl
@[simp] theorem State.beginCommand_ident (s : State) : (s.beginCommand).ident = s.ident := rfl
@[simp] theorem State.beginCommand_resets (s : State) : (s.beginCommand).resets = s.resets := rfl
@[simp] theorem State.beginCommand_cbufResets (s : State) : (s.beginCommand).cbufResets = s.cbufResets := rfl
@[simp] theorem State.beginCommand_drawn (s : State) : (s.beginCommand).drawn = s.drawn := rfl
@[simp] theorem State.beginCommand_poison (s : State) : (s.beginCommand).poison = s.poison := rfl
@[simp] theorem State.beginCommand_tampered (s : State) : (s.beginCommand).tampered = s.tampered := rfl
@[simp] theorem State.beginCommand_inputs (s : State) : (s.beginCommand).inputs = s.inputs := rfl
@[simp] theorem State.beginCommand_responses (s : State) : (s.beginCommand).responses = s.responses := rfl

/-! ### `endCommand` -/

@[simp] theorem State.endCommand_cfg (s : State) : (s.endCommand).cfg = s.cfg := rfl
@[simp] theorem State.endCommand_busy (s : State) : (s.endCommand).busy = false := rfl
@[simp] theorem State.endCommand_done (s : State) : (s.endCommand).done = true := rfl
@[simp] theorem State.endCommand_fault (s : State) : (s.endCommand).fault = s.fault := rfl
@[simp] theorem State.endCommand_busyErr (s : State) : (s.endCommand).busyErr = s.busyErr := rfl
@[simp] theorem State.endCommand_clip (s : State) : (s.endCommand).clip = s.clip := rfl
@[simp] theorem State.endCommand_odd (s : State) : (s.endCommand).odd = s.odd := rfl
@[simp] theorem State.endCommand_under (s : State) : (s.endCommand).under = s.under := rfl
@[simp] theorem State.endCommand_tailf (s : State) : (s.endCommand).tailf = s.tailf := rfl
@[simp] theorem State.endCommand_pageW (s : State) : (s.endCommand).pageW = s.pageW := rfl
@[simp] theorem State.endCommand_pageH (s : State) : (s.endCommand).pageH = s.pageH := rfl
@[simp] theorem State.endCommand_srcAddr (s : State) : (s.endCommand).srcAddr = s.srcAddr := rfl
@[simp] theorem State.endCommand_srcLen (s : State) : (s.endCommand).srcLen = s.srcLen := rfl
@[simp] theorem State.endCommand_rdptr (s : State) : (s.endCommand).rdptr = s.rdptr := rfl
@[simp] theorem State.endCommand_cursor (s : State) : (s.endCommand).cursor = s.cursor := rfl
@[simp] theorem State.endCommand_holdV (s : State) : (s.endCommand).holdV = s.holdV := rfl
@[simp] theorem State.endCommand_holdC (s : State) : (s.endCommand).holdC = s.holdC := rfl
@[simp] theorem State.endCommand_holdN (s : State) : (s.endCommand).holdN = s.holdN := rfl
@[simp] theorem State.endCommand_causeCode (s : State) : (s.endCommand).causeCode = s.causeCode := rfl
@[simp] theorem State.endCommand_warnCnt (s : State) : (s.endCommand).warnCnt = s.warnCnt := rfl
@[simp] theorem State.endCommand_cbuf (s : State) : (s.endCommand).cbuf = s.cbuf := rfl
@[simp] theorem State.endCommand_lbuf (s : State) : (s.endCommand).lbuf = s.lbuf := rfl
@[simp] theorem State.endCommand_canvas (s : State) : (s.endCommand).canvas = s.canvas := rfl
@[simp] theorem State.endCommand_ident (s : State) : (s.endCommand).ident = s.ident := rfl
@[simp] theorem State.endCommand_resets (s : State) : (s.endCommand).resets = s.resets := rfl
@[simp] theorem State.endCommand_cbufResets (s : State) : (s.endCommand).cbufResets = s.cbufResets := rfl
@[simp] theorem State.endCommand_drawn (s : State) : (s.endCommand).drawn = s.drawn := rfl
@[simp] theorem State.endCommand_poison (s : State) : (s.endCommand).poison = s.poison := rfl
@[simp] theorem State.endCommand_tampered (s : State) : (s.endCommand).tampered = s.tampered := rfl
@[simp] theorem State.endCommand_inputs (s : State) : (s.endCommand).inputs = s.inputs := rfl
@[simp] theorem State.endCommand_responses (s : State) : (s.endCommand).responses = s.responses := rfl

/-! ### `raise` -/

@[simp] theorem State.raise_cfg (s : State) (o : Bool) (k : Cause) : (s.raise o k).cfg = s.cfg := rfl
@[simp] theorem State.raise_busy (s : State) (o : Bool) (k : Cause) : (s.raise o k).busy = false := rfl
@[simp] theorem State.raise_done (s : State) (o : Bool) (k : Cause) : (s.raise o k).done = true := rfl
@[simp] theorem State.raise_fault (s : State) (o : Bool) (k : Cause) : (s.raise o k).fault = true := rfl
@[simp] theorem State.raise_busyErr (s : State) (o : Bool) (k : Cause) : (s.raise o k).busyErr = s.busyErr := rfl
@[simp] theorem State.raise_clip (s : State) (o : Bool) (k : Cause) : (s.raise o k).clip = s.clip := rfl
@[simp] theorem State.raise_odd (s : State) (o : Bool) (k : Cause) : (s.raise o k).odd = s.odd := rfl
@[simp] theorem State.raise_under (s : State) (o : Bool) (k : Cause) : (s.raise o k).under = s.under := rfl
@[simp] theorem State.raise_tailf (s : State) (o : Bool) (k : Cause) : (s.raise o k).tailf = s.tailf := rfl
@[simp] theorem State.raise_pageW (s : State) (o : Bool) (k : Cause) : (s.raise o k).pageW = s.pageW := rfl
@[simp] theorem State.raise_pageH (s : State) (o : Bool) (k : Cause) : (s.raise o k).pageH = s.pageH := rfl
@[simp] theorem State.raise_srcAddr (s : State) (o : Bool) (k : Cause) : (s.raise o k).srcAddr = s.srcAddr := rfl
@[simp] theorem State.raise_srcLen (s : State) (o : Bool) (k : Cause) : (s.raise o k).srcLen = s.srcLen := rfl
@[simp] theorem State.raise_rdptr (s : State) (o : Bool) (k : Cause) : (s.raise o k).rdptr = s.rdptr := rfl
@[simp] theorem State.raise_cursor (s : State) (o : Bool) (k : Cause) : (s.raise o k).cursor = s.cursor := rfl
@[simp] theorem State.raise_holdV (s : State) (o : Bool) (k : Cause) : (s.raise o k).holdV = s.holdV := rfl
@[simp] theorem State.raise_holdC (s : State) (o : Bool) (k : Cause) : (s.raise o k).holdC = s.holdC := rfl
@[simp] theorem State.raise_holdN (s : State) (o : Bool) (k : Cause) : (s.raise o k).holdN = s.holdN := rfl
@[simp] theorem State.raise_causeCode (s : State) (o : Bool) (k : Cause) : (s.raise o k).causeCode = k.code := rfl
@[simp] theorem State.raise_warnCnt (s : State) (o : Bool) (k : Cause) : (s.raise o k).warnCnt = if o && k != .illcmd then warnSucc s.warnCnt else s.warnCnt := rfl
@[simp] theorem State.raise_cbuf (s : State) (o : Bool) (k : Cause) : (s.raise o k).cbuf = s.cbuf := rfl
@[simp] theorem State.raise_lbuf (s : State) (o : Bool) (k : Cause) : (s.raise o k).lbuf = s.lbuf := rfl
@[simp] theorem State.raise_canvas (s : State) (o : Bool) (k : Cause) : (s.raise o k).canvas = s.canvas := rfl
@[simp] theorem State.raise_ident (s : State) (o : Bool) (k : Cause) : (s.raise o k).ident = s.ident := rfl
@[simp] theorem State.raise_resets (s : State) (o : Bool) (k : Cause) : (s.raise o k).resets = s.resets := rfl
@[simp] theorem State.raise_cbufResets (s : State) (o : Bool) (k : Cause) : (s.raise o k).cbufResets = s.cbufResets := rfl
@[simp] theorem State.raise_drawn (s : State) (o : Bool) (k : Cause) : (s.raise o k).drawn = s.drawn := rfl
@[simp] theorem State.raise_poison (s : State) (o : Bool) (k : Cause) : (s.raise o k).poison = s.poison := rfl
@[simp] theorem State.raise_tampered (s : State) (o : Bool) (k : Cause) : (s.raise o k).tampered = s.tampered := rfl
@[simp] theorem State.raise_inputs (s : State) (o : Bool) (k : Cause) : (s.raise o k).inputs = s.inputs := rfl
@[simp] theorem State.raise_responses (s : State) (o : Bool) (k : Cause) : (s.raise o k).responses = s.responses := rfl

/-! ### `decodeInit` -/

@[simp] theorem State.decodeInit_cfg (s : State) : (s.decodeInit).cfg = s.cfg := rfl
@[simp] theorem State.decodeInit_busy (s : State) : (s.decodeInit).busy = s.busy := rfl
@[simp] theorem State.decodeInit_done (s : State) : (s.decodeInit).done = s.done := rfl
@[simp] theorem State.decodeInit_fault (s : State) : (s.decodeInit).fault = s.fault := rfl
@[simp] theorem State.decodeInit_busyErr (s : State) : (s.decodeInit).busyErr = s.busyErr := rfl
@[simp] theorem State.decodeInit_clip (s : State) : (s.decodeInit).clip = false := rfl
@[simp] theorem State.decodeInit_odd (s : State) : (s.decodeInit).odd = false := rfl
@[simp] theorem State.decodeInit_under (s : State) : (s.decodeInit).under = false := rfl
@[simp] theorem State.decodeInit_tailf (s : State) : (s.decodeInit).tailf = false := rfl
@[simp] theorem State.decodeInit_pageW (s : State) : (s.decodeInit).pageW = s.pageW := rfl
@[simp] theorem State.decodeInit_pageH (s : State) : (s.decodeInit).pageH = s.pageH := rfl
@[simp] theorem State.decodeInit_srcAddr (s : State) : (s.decodeInit).srcAddr = s.srcAddr := rfl
@[simp] theorem State.decodeInit_srcLen (s : State) : (s.decodeInit).srcLen = s.srcLen := rfl
@[simp] theorem State.decodeInit_rdptr (s : State) : (s.decodeInit).rdptr = 0 := rfl
@[simp] theorem State.decodeInit_cursor (s : State) : (s.decodeInit).cursor = 0 := rfl
@[simp] theorem State.decodeInit_holdV (s : State) : (s.decodeInit).holdV = false := rfl
@[simp] theorem State.decodeInit_holdC (s : State) : (s.decodeInit).holdC = s.holdC := rfl
@[simp] theorem State.decodeInit_holdN (s : State) : (s.decodeInit).holdN = s.holdN := rfl
@[simp] theorem State.decodeInit_causeCode (s : State) : (s.decodeInit).causeCode = s.causeCode := rfl
@[simp] theorem State.decodeInit_warnCnt (s : State) : (s.decodeInit).warnCnt = s.warnCnt := rfl
@[simp] theorem State.decodeInit_cbuf (s : State) : (s.decodeInit).cbuf = s.cbuf := rfl
@[simp] theorem State.decodeInit_lbuf (s : State) : (s.decodeInit).lbuf = s.lbuf := rfl
@[simp] theorem State.decodeInit_canvas (s : State) : (s.decodeInit).canvas = s.canvas := rfl
@[simp] theorem State.decodeInit_ident (s : State) : (s.decodeInit).ident = s.ident := rfl
@[simp] theorem State.decodeInit_resets (s : State) : (s.decodeInit).resets = s.resets := rfl
@[simp] theorem State.decodeInit_cbufResets (s : State) : (s.decodeInit).cbufResets = s.cbufResets := rfl
@[simp] theorem State.decodeInit_drawn (s : State) : (s.decodeInit).drawn = s.drawn := rfl
@[simp] theorem State.decodeInit_poison (s : State) : (s.decodeInit).poison = [] := rfl
@[simp] theorem State.decodeInit_tampered (s : State) : (s.decodeInit).tampered = [] := rfl
@[simp] theorem State.decodeInit_inputs (s : State) : (s.decodeInit).inputs = s.inputs := rfl
@[simp] theorem State.decodeInit_responses (s : State) : (s.decodeInit).responses = s.responses := rfl

/-! ### Reading -/

@[simp] theorem State.mem_cbuf (s : State) : s.mem .cbuf = s.cbuf := rfl
@[simp] theorem State.mem_lbuf (s : State) : s.mem .lbuf = s.lbuf := rfl
@[simp] theorem State.mem_canvas (s : State) : s.mem .canvas = s.canvas := rfl

/-- What indexes the free content of the memories: the instance and how often it lost its content. -/
def State.epoch (s : State) : Nat × Nat × Nat := (s.ident, s.resets, s.cbufResets)

theorem State.unwritten_congr {s t : State} (h : s.epoch = t.epoch) (sp : Space) (a : Nat) :
    s.unwritten sp a = t.unwritten sp a := by
  have h1 : s.ident = t.ident := congrArg (·.1) h
  have h2 : s.resets = t.resets := congrArg (·.2.1) h
  have h3 : s.cbufResets = t.cbufResets := congrArg (·.2.2) h
  unfold State.unwritten
  rw [h1, h2, h3]

/-- A byte depends on its space and on the epoch. -/
theorem State.byteAt_congr {s t : State} {sp : Space} (hm : s.mem sp = t.mem sp) (hr : s.epoch = t.epoch) (a : Nat) :
    s.byteAt sp a = t.byteAt sp a := by
  unfold State.byteAt
  rw [hm, State.unwritten_congr hr]

/-- A byte of CBUF depends on the content of CBUF and on how often it was lost, not on the instance. -/
theorem State.cbufByte_congr {s t : State} (hm : s.cbuf = t.cbuf) (hr : s.cbufResets = t.cbufResets) (a : Nat) :
    s.byteAt .cbuf a = t.byteAt .cbuf a := by
  show (s.cbuf.get a).getD (Config.cbufByte s.cbufResets a) = (t.cbuf.get a).getD (Config.cbufByte t.cbufResets a)
  rw [hm, hr]

/-- A pixel is its four bytes. -/
theorem State.pixelAt_congr {s t : State} {sp : Space} {p : Nat}
    (h : ∀ a, a / 4 = p → s.byteAt sp a = t.byteAt sp a) : s.pixelAt sp p = t.pixelAt sp p := by
  unfold State.pixelAt
  rw [h (4 * p) (by omega), h (4 * p + 1) (by omega), h (4 * p + 2) (by omega), h (4 * p + 3) (by omega)]

/-- A pixel all four of whose bytes are the lanes of `px` is `px`. -/
theorem State.pixelAt_eq {s : State} {sp : Space} {p : Nat} {px : Pixel}
    (h : ∀ a, a / 4 = p → s.byteAt sp a = pixelLane px (a % 4)) : s.pixelAt sp p = px := by
  unfold State.pixelAt
  rw [h (4 * p) (by omega), h (4 * p + 1) (by omega), h (4 * p + 2) (by omega), h (4 * p + 3) (by omega)]
  have e0 : 4 * p % 4 = 0 := by omega
  have e1 : (4 * p + 1) % 4 = 1 := by omega
  have e2 : (4 * p + 2) % 4 = 2 := by omega
  have e3 : (4 * p + 3) % 4 = 3 := by omega
  rw [e0, e1, e2, e3]
  rfl

/-- A byte is a lane of its pixel. -/
theorem State.byteAt_eq_lane (s : State) (sp : Space) (a : Nat) :
    s.byteAt sp a = pixelLane (s.pixelAt sp (a / 4)) (a % 4) := by
  unfold State.pixelAt
  have h : a % 4 < 4 := Nat.mod_lt _ (by decide)
  have e := Nat.div_add_mod a 4
  match hm : a % 4, h with
  | 0, _ => simp only [pixelLane]; congr 1; omega
  | 1, _ => simp only [pixelLane]; congr 1; omega
  | 2, _ => simp only [pixelLane]; congr 1; omega
  | 3, _ => simp only [pixelLane]; congr 1; omega

/-! ### Replacing the content of a space -/

theorem State.setMem_self (s : State) (sp : Space) : s.setMem sp (s.mem sp) = s := by cases sp <;> rfl
theorem State.mem_setMem (s : State) (sp : Space) (m : Memory) : (s.setMem sp m).mem sp = m := by cases sp <;> rfl
theorem State.mem_setMem_ne (s : State) {sp sp' : Space} (h : sp' ≠ sp) (m : Memory) :
    (s.setMem sp m).mem sp' = s.mem sp' := by
  cases sp <;> cases sp' <;> first | rfl | exact absurd rfl h
@[simp] theorem State.setMem_epoch (s : State) (sp : Space) (m : Memory) : (s.setMem sp m).epoch = s.epoch := by
  cases sp <;> rfl
@[simp] theorem State.setMem_cfg (s : State) (sp : Space) (m : Memory) : (s.setMem sp m).cfg = s.cfg := by
  cases sp <;> rfl

/-- What replacing a space leaves alone: everything but the three memories. -/
theorem State.setMem_frame (s : State) (sp : Space) (m : Memory) :
    s.setMem sp m = { s with
      cbuf := (s.setMem sp m).cbuf, lbuf := (s.setMem sp m).lbuf, canvas := (s.setMem sp m).canvas } := by
  cases sp <;> rfl

end Sys2Proof.Machine
end

