-- ==== Sys2Proof/Laws/Stream.lean ====
section
/-! SUPPORT. What the stream level's shared operations do: emit, flush, the pair step, TAIL. -/

namespace Sys2Proof.Machine

/-- NPIX fits 32 bits (R24). -/
theorem State.npix_le (s : State) : s.npix ≤ 4294836225 := by
  have h1 : s.pageW.toNat ≤ 65535 := by have := s.pageW.isLt; omega
  have h2 : s.pageH.toNat ≤ 65535 := by have := s.pageH.isLt; omega
  exact Nat.mul_le_mul h1 h2

/-- The cursor after an emission, as a number: the clipped count never overflows the register (R97). -/
theorem State.emit_cursor_toNat (s : State) (c : Byte) (k : Nat) :
    (s.emit c k).cursor.toNat = s.cursor.toNat + min k s.budget := by
  show (BitVec.ofNat 32 (s.cursor.toNat + min k s.budget)).toNat = _
  have h1 := s.npix_le
  have h2 := s.cursor.isLt
  have h3 : s.budget = s.npix - s.cursor.toNat := rfl
  rw [BitVec.toNat_ofNat, Nat.mod_eq_of_lt]
  omega

theorem State.emit_clip (s : State) (c : Byte) (k : Nat) :
    (s.emit c k).clip = (s.clip || decide (s.budget < k)) := by
  show clipAfter s.clip (min k s.budget) k = _
  unfold clipAfter
  congr 2
  simp only [eq_iff_iff]
  omega

/-- The bytes of LBUF after an emission (R97, R98). -/
theorem State.emit_byteAt (s : State) (c : Byte) (k a : Nat) :
    (s.emit c k).byteAt .lbuf a =
      if 4 * s.cursor.toNat ≤ a ∧ a < 4 * (s.cursor.toNat + min k s.budget)
      then pixelLane (s.cfg.palette.lookup c) (a % 4) else s.byteAt .lbuf a := by
  show ((s.lbuf.fillPixels s.cursor.toNat (min k s.budget) (s.cfg.palette.lookup c)).get a).getD _ = _
  rw [Memory.get_fillPixels]
  split <;> rfl

/-- All that an emission does. -/
theorem emit_emitted (s : State) (c : Byte) (k : Nat) : Emitted c k s (s.emit c k) where
  cursor := s.emit_cursor_toNat c k
  clip := s.emit_clip c k
  bytes a := by rw [s.emit_cursor_toNat, s.emit_byteAt]
  frame := rfl

/-- Two states that an emission leads to differ at most in how LBUF lists its bytes. -/
theorem Emitted.cursor_le {c : Byte} {k : Nat} {s t : State} (h : Emitted c k s t) : s.cursor.toNat ≤ t.cursor.toNat := by
  rw [h.cursor]; omega

/-- Outside its own range an emission changes no byte. -/
theorem Emitted.outside {c : Byte} {k : Nat} {s t : State} (h : Emitted c k s t) {a : Nat}
    (ha : ¬(4 * s.cursor.toNat ≤ a ∧ a < 4 * t.cursor.toNat)) : t.byteAt .lbuf a = s.byteAt .lbuf a := by
  rw [h.bytes, if_neg ha]

/-- What the decoder may change of the state: its own registers, its flags and LBUF. -/
def DecoderOnly (s t : State) : Prop :=
  t = { s with
    clip := t.clip, odd := t.odd, under := t.under, tailf := t.tailf, rdptr := t.rdptr, cursor := t.cursor
    holdV := t.holdV, holdC := t.holdC, holdN := t.holdN, lbuf := t.lbuf }

theorem DecoderOnly.refl (s : State) : DecoderOnly s s := rfl

theorem DecoderOnly.trans {s t u : State} (h1 : DecoderOnly s t) (h2 : DecoderOnly t u) : DecoderOnly s u := by
  unfold DecoderOnly at *
  rw [h2, h1]

theorem DecoderOnly.emit (s : State) (c : Byte) (k : Nat) : DecoderOnly s (s.emit c k) := rfl
theorem DecoderOnly.stash (s : State) (c n : Byte) : DecoderOnly s (s.stash c n) := rfl
theorem DecoderOnly.clearHolder (s : State) : DecoderOnly s s.clearHolder := rfl
theorem DecoderOnly.advance (s : State) : DecoderOnly s s.advance := rfl

theorem DecoderOnly.flush (s : State) : DecoderOnly s s.flush := by
  unfold State.flush
  split <;> rfl

theorem DecoderOnly.normalRule (s : State) (c n : Byte) : DecoderOnly s (s.normalRule c n) := by
  unfold State.normalRule
  split
  · rfl
  · split <;> rfl

theorem DecoderOnly.pairStep (s : State) (c n : Byte) : DecoderOnly s (s.pairStep c n) := by
  unfold State.pairStep
  split
  · split
    · rfl
    · exact .trans (.trans (.clearHolder s) (.emit _ _ _)) (.normalRule _ c n)
  · exact .normalRule s c n

theorem DecoderOnly.tail (s : State) : DecoderOnly s s.tail := by
  unfold State.tail
  split <;> rfl

theorem DecoderOnly.pairLoop (n : Nat) : ∀ s : State, DecoderOnly s (State.pairLoop n s) := by
  induction n with
  | zero => exact fun s => .refl s
  | succ n ih => exact fun s => .trans (.trans (.advance s) (.pairStep _ _ _)) (ih _)

theorem DecoderOnly.decodeTail (s : State) : DecoderOnly s s.decodeTail :=
  .trans (t := State.tail { s with odd := s.odd || oddOf s.srcLen.toNat })
    (.trans (t := { s with odd := s.odd || oddOf s.srcLen.toNat }) rfl (.tail _)) rfl

/-- What the decoder leaves alone, field by field, as later proofs ask for it. -/
theorem DecoderOnly.same {s t : State} (h : DecoderOnly s t) :
    t.cfg = s.cfg ∧ t.pageW = s.pageW ∧ t.pageH = s.pageH ∧ t.srcAddr = s.srcAddr ∧ t.srcLen = s.srcLen
    ∧ t.cbuf = s.cbuf ∧ t.canvas = s.canvas ∧ t.epoch = s.epoch ∧ t.drawn = s.drawn ∧ t.poison = s.poison
    ∧ t.inputs = s.inputs ∧ t.responses = s.responses ∧ t.busy = s.busy ∧ t.done = s.done ∧ t.fault = s.fault
    ∧ t.busyErr = s.busyErr ∧ t.causeCode = s.causeCode ∧ t.warnCnt = s.warnCnt
    ∧ t.ident = s.ident ∧ t.cbufResets = s.cbufResets ∧ t.tampered = s.tampered := by
  rw [h]
  simp [State.epoch]

theorem DecoderOnly.npix {s t : State} (h : DecoderOnly s t) : t.npix = s.npix := by
  obtain ⟨_, hw, hh, _⟩ := h.same
  unfold State.npix
  rw [hw, hh]

theorem DecoderOnly.cbufByte {s t : State} (h : DecoderOnly s t) (a : Nat) : t.byteAt .cbuf a = s.byteAt .cbuf a := by
  obtain ⟨_, _, _, _, _, hc, _, hr, _⟩ := h.same
  exact State.byteAt_congr (sp := .cbuf) hc hr a

theorem DecoderOnly.canvasByte {s t : State} (h : DecoderOnly s t) (a : Nat) :
    t.byteAt .canvas a = s.byteAt .canvas a := by
  obtain ⟨_, _, _, _, _, _, hc, hr, _⟩ := h.same
  exact State.byteAt_congr (sp := .canvas) hc hr a

end Sys2Proof.Machine
end

