-- ==== Sys2Proof/Laws/Command.lean ====
section
/-! SUPPORT. What the shared operations of the command level do: the frame's checks, the end of a DECODE, R175's
unspecified bytes, and which instructions a command word can decode to. -/

namespace Sys2Proof.Machine

/-! ### The checks of the frame -/

theorem pageCheck_none {s : State} (h : s.npix ≤ s.cfg.maxPix) : s.pageCheck = none := by
  unfold State.pageCheck
  rw [if_neg (by omega)]

theorem pageCheck_dim {s : State} (h : s.cfg.maxPix < s.npix) : s.pageCheck = some .dim := by
  unfold State.pageCheck
  rw [if_pos h]

theorem decodeCheck_none_iff {s : State} {proto : Byte} : s.decodeCheck proto = none ↔
    s.npix ≤ s.cfg.maxPix ∧ proto = 0#8 ∧ s.srcAddr.toNat + s.srcLen.toNat ≤ s.cfg.cbufSize := by
  unfold State.decodeCheck
  by_cases h1 : s.cfg.maxPix < s.npix
  · rw [if_pos h1]; simp; omega
  · by_cases h2 : proto ≠ 0#8
    · rw [if_neg h1, if_pos h2]; simp [h2]
    · by_cases h3 : s.cfg.cbufSize < s.srcAddr.toNat + s.srcLen.toNat
      · rw [if_neg h1, if_neg h2, if_pos h3]; simp; omega
      · rw [if_neg h1, if_neg h2, if_neg h3]
        simp only [true_iff]
        exact ⟨by omega, by simpa using h2, by omega⟩

theorem fits_iff {s : State} : s.fits = true ↔
    s.npix ≤ s.cfg.maxPix ∧ s.srcAddr.toNat + s.srcLen.toNat ≤ s.cfg.cbufSize := by
  unfold State.fits
  simp

/-- What DECODE answers when its checks pass. -/
theorem execDecode_of_checks {s : State} {proto : Byte} (h : s.decodeCheck proto = none) :
    execDecode proto s = .next (if s.cfg.pairSteps then s.beginCommand.decodeInit else s.beginCommand.decodeBody) := by
  unfold execDecode
  rw [h]
  rfl

/-! ### Unspecified bytes -/

/-- What scrambling a range may change: the memories and the count of drawn bytes. -/
def MemoriesOnly (s t : State) : Prop :=
  t = { s with cbuf := t.cbuf, lbuf := t.lbuf, canvas := t.canvas, drawn := t.drawn }

theorem MemoriesOnly.refl (s : State) : MemoriesOnly s s := rfl

theorem MemoriesOnly.trans {s t u : State} (h1 : MemoriesOnly s t) (h2 : MemoriesOnly t u) : MemoriesOnly s u := by
  unfold MemoriesOnly at *
  rw [h2, h1]

theorem MemoriesOnly.scramble (s : State) (sp : Space) (r : Span) : MemoriesOnly s (s.scramble sp r) := by
  unfold MemoriesOnly State.scramble State.setMem
  cases sp <;> rfl

/-- What MemoriesOnly keeps, field by field, as later proofs ask for it. -/
theorem MemoriesOnly.same {s t : State} (h : MemoriesOnly s t) :
    t.cfg = s.cfg ∧ t.busy = s.busy ∧ t.done = s.done ∧ t.fault = s.fault ∧ t.busyErr = s.busyErr
    ∧ t.pageW = s.pageW ∧ t.pageH = s.pageH ∧ t.srcAddr = s.srcAddr ∧ t.srcLen = s.srcLen ∧ t.rdptr = s.rdptr
    ∧ t.cursor = s.cursor ∧ t.holdV = s.holdV ∧ t.holdC = s.holdC ∧ t.holdN = s.holdN ∧ t.causeCode = s.causeCode
    ∧ t.warnCnt = s.warnCnt ∧ t.epoch = s.epoch ∧ t.poison = s.poison ∧ t.inputs = s.inputs
    ∧ t.tampered = s.tampered ∧ t.ident = s.ident := by
  rw [h]
  simp [State.epoch]

theorem State.mem_scramble (s : State) (sp : Space) (r : Span) :
    (s.scramble sp r).mem sp = (s.mem sp).write r.base (s.freshBytes r.len) := by
  unfold State.scramble State.setMem
  cases sp <;> rfl

theorem State.mem_scramble_ne (s : State) {sp sp' : Space} (h : sp' ≠ sp) (r : Span) :
    (s.scramble sp r).mem sp' = s.mem sp' := by
  unfold State.scramble State.setMem
  cases sp <;> cases sp' <;> first | rfl | exact absurd rfl h

/-- A byte after scrambling: a free byte inside the range, what was there outside it. -/
theorem scramble_byteAt (s : State) (sp : Space) (r : Span) (sp' : Space) (a : Nat) :
    (s.scramble sp r).byteAt sp' a =
      if sp' = sp ∧ r.base ≤ a ∧ a < r.base + r.len then Config.freeByte s.ident (s.drawn + (a - r.base))
      else s.byteAt sp' a := by
  have he : (s.scramble sp r).epoch = s.epoch := by
    obtain ⟨_, _, _, _, _, _, _, _, _, _, _, _, _, _, _, _, he, _⟩ := (MemoriesOnly.scramble s sp r).same
    exact he
  by_cases hsp : sp' = sp
  · subst hsp
    unfold State.byteAt
    rw [s.mem_scramble, State.unwritten_congr he, Memory.get_write]
    unfold State.freshBytes
    by_cases h : r.base ≤ a ∧ a < r.base + r.len
    · rw [if_pos (by simpa using h), if_pos ⟨rfl, h⟩]
      have h2 : a - r.base < r.len := by omega
      simp [h2]
    · rw [if_neg (by simpa using h), if_neg (by simp; omega)]
  · rw [if_neg (fun h => hsp h.1)]
    exact State.byteAt_congr (s.mem_scramble_ne hsp r) he a

/-- What scrambling ranges of LBUF changes: LBUF and the count of drawn bytes. -/
def LbufOnly (s t : State) : Prop := t = { s with lbuf := t.lbuf, drawn := t.drawn }

theorem LbufOnly.trans {s t u : State} (h1 : LbufOnly s t) (h2 : LbufOnly t u) : LbufOnly s u := by
  unfold LbufOnly at *
  rw [h2, h1]

theorem LbufOnly.scrambles (rs : List Span) :
    ∀ s : State, LbufOnly s (rs.foldl (fun t r => t.scramble .lbuf r) s) := by
  induction rs with
  | nil => exact fun s => rfl
  | cons r rs ih => exact fun s => .trans (t := s.scramble .lbuf r) rfl (ih _)

/-- A byte of LBUF after scrambling ranges: free inside one of them, as before outside all. -/
theorem scrambles_byteAt (rs : List Span) : ∀ (s : State) (a : Nat),
    let t := rs.foldl (fun t r => t.scramble .lbuf r) s
    ((∃ r ∈ rs, r.base ≤ a ∧ a < r.base + r.len) → ∃ k, t.byteAt .lbuf a = Config.freeByte s.ident k)
    ∧ ((∀ r ∈ rs, ¬(r.base ≤ a ∧ a < r.base + r.len)) → t.byteAt .lbuf a = s.byteAt .lbuf a) := by
  induction rs with
  | nil => intro s a; exact ⟨fun ⟨q, hq, _⟩ => absurd hq List.not_mem_nil, fun _ => rfl⟩
  | cons r rs ih =>
    intro s a
    obtain ⟨h1, h2⟩ := ih (s.scramble .lbuf r) a
    have hb := scramble_byteAt s .lbuf r .lbuf a
    simp only [true_and] at hb
    refine ⟨fun ⟨q, hq, ha⟩ => ?_, fun h => ?_⟩
    · by_cases hr : ∃ r ∈ rs, r.base ≤ a ∧ a < r.base + r.len
      · exact h1 hr
      · have hin : r.base ≤ a ∧ a < r.base + r.len := by
          rcases List.mem_cons.1 hq with rfl | hq
          · exact ha
          · exact absurd ⟨q, hq, ha⟩ hr
        rw [if_pos hin] at hb
        exact ⟨_, (h2 fun x hx hc => hr ⟨x, hx, hc⟩).trans hb⟩
    · rw [if_neg (h r List.mem_cons_self)] at hb
      exact (h2 fun x hx => h x (List.mem_cons_of_mem _ hx)).trans hb

theorem applyPoison_of_nil {s : State} (h : s.poison = []) (ht : s.tampered = []) : s.applyPoison = s := by
  unfold State.applyPoison State.derivedSpans
  rw [h, ht]
  cases s
  simp only at h ht
  rw [List.append_nil, List.foldl_nil, h, ht]

/-- What the end of a DECODE sets, whatever the host did meanwhile. -/
theorem finishDecode_ends (s : State) :
    s.finishDecode.busy = false ∧ s.finishDecode.done = true ∧ s.finishDecode.holdV = false
    ∧ s.finishDecode.poison = [] ∧ s.finishDecode.tampered = [] ∧ s.finishDecode.cfg = s.cfg
    ∧ s.finishDecode.inputs = s.inputs ∧ s.finishDecode.busyErr = s.busyErr ∧ s.finishDecode.fault = s.fault
    ∧ s.finishDecode.rdptr = s.rdptr ∧ s.finishDecode.causeCode = s.causeCode ∧ s.finishDecode.cbuf = s.cbuf
    ∧ s.finishDecode.canvas = s.canvas ∧ s.finishDecode.epoch = s.epoch := by
  have hd := (DecoderOnly.decodeTail s).same
  have hv : s.decodeTail.holdV = false := by
    unfold State.decodeTail State.tail
    by_cases h : s.holdV
    · simp [h]
    · simp [h]
  have hr : s.decodeTail.rdptr = s.rdptr := by
    unfold State.decodeTail State.tail
    by_cases h : s.holdV <;> simp [h]
  have hl := LbufOnly.scrambles (s.decodeTail.endCommand.derivedSpans s.decodeTail.endCommand.cursor.toNat ++ s.decodeTail.endCommand.poison)
    s.decodeTail.endCommand
  obtain ⟨d1, _, _, _, _, d6, d7, d8, _, _, d11, _, _, _, d15, d16, d17, _⟩ := hd
  unfold State.finishDecode State.applyPoison
  rw [hl]
  exact ⟨rfl, rfl, hv, rfl, rfl, d1, d11, d16, d15, hr, d17, d6, d7, d8⟩

/-! ### What a DECODE derives from its stream -/

/-- Two decoders that will emit at the same places: they differ in no register the pair step asks for. -/
structure SameDecoder (s t : State) : Prop where
  cfg : s.cfg = t.cfg
  pageW : s.pageW = t.pageW
  pageH : s.pageH = t.pageH
  srcAddr : s.srcAddr = t.srcAddr
  cbuf : s.cbuf = t.cbuf
  cbufResets : s.cbufResets = t.cbufResets
  tampered : s.tampered = t.tampered
  rdptr : s.rdptr = t.rdptr
  cursor : s.cursor = t.cursor
  holdV : s.holdV = t.holdV
  held : s.holdV = true → s.holdC = t.holdC ∧ s.holdN = t.holdN

theorem SameDecoder.emit {s t : State} (h : SameDecoder s t) (c : Byte) (k : Nat) : SameDecoder (s.emit c k) (t.emit c k) := by
  refine ⟨h.cfg, h.pageW, h.pageH, h.srcAddr, h.cbuf, h.cbufResets, h.tampered, h.rdptr, ?_, h.holdV, h.held⟩
  show BitVec.ofNat 32 (s.cursor.toNat + min k (s.pageW.toNat * s.pageH.toNat - s.cursor.toNat)) = _
  rw [h.cursor, h.pageW, h.pageH]
  rfl

theorem SameDecoder.clearHolder {s t : State} (h : SameDecoder s t) : SameDecoder s.clearHolder t.clearHolder :=
  ⟨h.cfg, h.pageW, h.pageH, h.srcAddr, h.cbuf, h.cbufResets, h.tampered, h.rdptr, h.cursor, rfl, fun e => nomatch e⟩

theorem SameDecoder.stash {s t : State} (h : SameDecoder s t) (c n : Byte) : SameDecoder (s.stash c n) (t.stash c n) :=
  ⟨h.cfg, h.pageW, h.pageH, h.srcAddr, h.cbuf, h.cbufResets, h.tampered, h.rdptr, h.cursor, rfl, fun _ => ⟨rfl, rfl⟩⟩

theorem SameDecoder.advance {s t : State} (h : SameDecoder s t) : SameDecoder s.advance t.advance :=
  ⟨h.cfg, h.pageW, h.pageH, h.srcAddr, h.cbuf, h.cbufResets, h.tampered, congrArg (· + 2#32) h.rdptr, h.cursor, h.holdV, h.held⟩

theorem SameDecoder.fetched {s t : State} (h : SameDecoder s t) :
    s.fetchedColour = t.fetchedColour ∧ s.fetchedLength = t.fetchedLength := by
  unfold State.fetchedColour State.fetchedLength
  rw [h.srcAddr, h.rdptr]
  exact ⟨State.cbufByte_congr h.cbuf h.cbufResets _, State.cbufByte_congr h.cbuf h.cbufResets _⟩

theorem SameDecoder.normalRule {s t : State} (h : SameDecoder s t) (c n : Byte) :
    SameDecoder (s.normalRule c n) (t.normalRule c n) := by
  unfold State.normalRule
  split
  · exact h.emit _ _
  · split
    · exact h.stash c n
    · exact h.emit _ _

theorem SameDecoder.flush {s t : State} (h : SameDecoder s t) : SameDecoder s.flush t.flush := by
  unfold State.flush
  rw [← h.holdV]
  by_cases hv : s.holdV = true
  · obtain ⟨hc, hn⟩ := h.held hv
    rw [if_pos hv, if_pos hv, ← hc, ← hn]
    exact h.clearHolder.emit _ _
  · rw [if_neg hv, if_neg hv]
    exact h

theorem SameDecoder.pairStep {s t : State} (h : SameDecoder s t) (c n : Byte) :
    SameDecoder (s.pairStep c n) (t.pairStep c n) := by
  unfold State.pairStep
  rw [← h.holdV]
  by_cases hv : s.holdV = true
  · obtain ⟨hc, hn⟩ := h.held hv
    rw [if_pos hv, if_pos hv, ← hc, ← hn]
    split
    · exact h.clearHolder.emit _ _
    · exact (h.clearHolder.emit _ _).normalRule c n
  · rw [if_neg hv, if_neg hv]
    exact h.normalRule c n

theorem SameDecoder.pairLoop (n : Nat) :
    ∀ {s t : State}, SameDecoder s t → SameDecoder (State.pairLoop n s) (State.pairLoop n t) := by
  induction n with
  | zero => exact fun h => h
  | succ n ih =>
    intro s t h
    obtain ⟨hc, hl⟩ := h.fetched
    simp only [State.pairLoop]
    rw [hc, hl]
    exact ih (h.advance.pairStep _ _)

theorem SameDecoder.written {s t : State} (h : SameDecoder s t) (o : Nat) : s.written o = t.written o := by
  unfold State.written
  rw [h.tampered, h.srcAddr]

theorem SameDecoder.derivedLoop (last n : Nat) : ∀ {s t : State} (held : Bool), SameDecoder s t →
    State.derivedLoop last n held s = State.derivedLoop last n held t := by
  induction n with
  | zero => intro s t held h; simp only [State.derivedLoop, h.holdV, h.cursor]
  | succ n ih =>
    intro s t held h
    have hx : s.heldLen = t.heldLen := by
      unfold State.heldLen
      rw [← h.holdV]
      by_cases hv : s.holdV = true
      · rw [if_pos hv, if_pos hv, (h.held hv).2]
      · rw [if_neg hv, if_neg hv]
    have hw : s.wayWritten held = t.wayWritten held := by
      unfold State.wayWritten
      rw [h.holdV, h.rdptr, h.written]
    have hs : s.sureLen held = t.sureLen held := by
      unfold State.sureLen
      rw [hw, h.rdptr, h.written, h.fetched.1, h.fetched.2, ← h.holdV]
      by_cases hv : s.holdV = true
      · rw [(h.held hv).1]
      · simp [hv]
    have hp : s.placeLost held = t.placeLost held := by
      unfold State.placeLost
      rw [hw, h.rdptr, h.written, h.fetched.2]
    simp only [State.derivedLoop]
    rw [hx, hs, hp, h.cursor, h.rdptr, h.written, h.fetched.1, h.fetched.2, h.holdV,
      ih (t.written t.rdptr.toNat) (h.advance.pairStep t.fetchedColour t.fetchedLength)]

/-- What is derived from the written bytes does not depend on how far the DECODE has come. -/
theorem derivedSpans_congr {s t : State} (hcfg : s.cfg = t.cfg) (hw : s.pageW = t.pageW) (hh : s.pageH = t.pageH)
    (ha : s.srcAddr = t.srcAddr) (hl : s.srcLen = t.srcLen) (hc : s.cbuf = t.cbuf) (hr : s.cbufResets = t.cbufResets)
    (ht : s.tampered = t.tampered) (last : Nat) : s.derivedSpans last = t.derivedSpans last := by
  unfold State.derivedSpans
  rw [← ht, hl]
  split
  · rfl
  · exact SameDecoder.derivedLoop _ _ _ ⟨hcfg, hw, hh, ha, hc, hr, rfl, rfl, rfl, rfl, fun e => nomatch e⟩

/-! ### A host write to memory -/

theorem noteWrite_byteAt (s : State) (sp : Space) (r : Span) (sp' : Space) (a : Nat) :
    (s.noteWrite sp r).byteAt sp' a = s.byteAt sp' a := by
  cases sp <;> cases sp' <;> rfl

/-! ### Command words -/

/-- A command word decodes to a command, never to a pair. -/
theorem decodeCommand_is_command {w : Word} {i : Instr} (h : decodeCommand w = .ok i) :
    i = .nop ∨ i = .cclr ∨ i = .lclr ∨ (∃ p, i = .decode p) ∨ i = .blend ∨ i = .gray := by
  have hp : ∀ j, withoutProto w j = .ok i → i = j := by
    intro j hj
    unfold withoutProto at hj
    split at hj
    · cases hj; rfl
    · cases hj
  unfold decodeCommand at h
  split at h
  · split at h
    · exact .inl (hp _ h)
    · exact .inr (.inl (hp _ h))
    · exact .inr (.inr (.inl (hp _ h)))
    · cases h; exact .inr (.inr (.inr (.inl ⟨_, rfl⟩)))
    · exact .inr (.inr (.inr (.inr (.inl (hp _ h)))))
    · exact .inr (.inr (.inr (.inr (.inr (hp _ h)))))
    · cases h
  · cases h

end Sys2Proof.Machine
end

