-- ==== Sys2Proof/Laws/Decoder.lean ====
section
/-! SUPPORT. The pair loop against the list of runs: what has been painted after some pairs is the layout of their runs. -/

namespace Sys2Proof.Machine

/-! ### Operands and layouts -/

theorem lenExt_eq (h : Byte) : lenExt h = ((h &&& 0x7F#8).toNat + 1) * 128 := by
  simp [lenExt, magnitude, Nat.shiftLeft_eq]

theorem lenCont_eq (h n : Byte) : lenCont h n = 1 + n.toNat + ((h &&& 0x7F#8).toNat + 1) * 128 := by
  simp [lenCont, magnitude, Nat.shiftLeft_eq]

theorem high_bit_iff : ∀ n : Byte, (n &&& 0x80#8 ≠ 0#8) ↔ 128 ≤ n.toNat := by decide

theorem lenTail_le (h : Byte) (b : Nat) : lenTail h b ≤ b := by
  unfold lenTail
  cases hf : (tailCandidates h).find? (fun k => decide (k ≤ b)) with
  | none => simp
  | some k => have := List.find?_some hf; simpa using this

theorem layOut_cons (r : Run) (rs : List Run) : layOut (r :: rs) = List.replicate r.count r.color ++ layOut rs := by
  simp [layOut]

theorem length_layOut (rs : List Run) : (layOut rs).length = totalCount rs := by
  simp [layOut, totalCount, List.length_flatten, List.map_map, Function.comp_def]

theorem length_decodedColours_le (npix : Nat) (pairs : List (Byte × Byte)) : (decodedColours npix pairs).length ≤ npix := by
  unfold decodedColours
  simp only [List.length_append, List.length_take, length_layOut]
  cases h : (runsOf none pairs).2 with
  | none => simp [tailRun, totalCount]
  | some p => 
    have := lenTail_le p.2 (npix - min npix (totalCount (runsOf none pairs).1))
    simp [tailRun, totalCount] at *; omega

theorem State.pairStep_rdptr (s : State) (c n : Byte) : (s.pairStep c n).rdptr = s.rdptr := by
  unfold State.pairStep State.normalRule
  repeat' split
  all_goals rfl

/-! ### What is painted so far -/

/-- The pending holder as a pair. -/
def State.holder (s : State) : Option (Byte × Byte) := if s.holdV then some (s.holdC, s.holdN) else none

/-- From `s0`, whose cursor was 0 and CLIP clear, to `s` the runs laid down have the colours `cols`. -/
structure Painted (s0 s : State) (cols : List Byte) : Prop where
  only : DecoderOnly s0 s
  cursor : s.cursor.toNat = min s0.npix cols.length
  clip : s.clip = decide (s0.npix < cols.length)
  bytes : ∀ a, s.byteAt .lbuf a = if a < 4 * min s0.npix cols.length then pixelLane (s0.cfg.palette.lookup (cols.getD (a/4) 0)) (a % 4) else s0.byteAt .lbuf a
  flags : s.odd = s0.odd ∧ s.under = s0.under ∧ s.tailf = s0.tailf

theorem Painted.emit {s0 s : State} {cols : List Byte} (h : Painted s0 s cols) (c : Byte) (k : Nat) :
    Painted s0 (s.emit c k) (cols ++ List.replicate k c) where
  only := h.only.trans (.emit s c k)
  cursor := by
    rw [s.emit_cursor_toNat, h.cursor]
    have : s.budget = s0.npix - min s0.npix cols.length := by unfold State.budget; rw [h.only.npix, h.cursor]
    rw [this]; simp; omega
  clip := by
    rw [s.emit_clip, h.clip]
    have : s.budget = s0.npix - min s0.npix cols.length := by unfold State.budget; rw [h.only.npix, h.cursor]
    rw [this, ← Bool.decide_or]
    congr 1
    simp; omega
  bytes a := by
    rw [s.emit_byteAt, h.bytes, h.cursor]
    have hb : s.budget = s0.npix - min s0.npix cols.length := by unfold State.budget; rw [h.only.npix, h.cursor]
    have hc : s.cfg = s0.cfg := h.only.same.1
    rw [hb, hc]
    simp only [List.length_append, List.length_replicate]
    by_cases h1 : a < 4 * min s0.npix cols.length
    · have h2 : ¬ (4 * min s0.npix cols.length ≤ a ∧ a < 4 * (min s0.npix cols.length + min k (s0.npix - min s0.npix cols.length))) := by omega
      have h3 : a < 4 * min s0.npix (cols.length + k) := by omega
      rw [if_neg h2, if_pos h1, if_pos h3]
      have h4 : a / 4 < cols.length := by omega
      congr 2
      simp only [List.getD_eq_getElem?_getD]
      rw [List.getElem?_append_left h4]
    · by_cases h3 : a < 4 * min s0.npix (cols.length + k)
      · have h2 : (4 * min s0.npix cols.length ≤ a ∧ a < 4 * (min s0.npix cols.length + min k (s0.npix - min s0.npix cols.length))) := by omega
        rw [if_pos h2, if_pos h3]
        congr 2
        have h4 : cols.length ≤ a / 4 := by omega
        have h5 : a / 4 < cols.length + k := by omega
        simp only [List.getD_eq_getElem?_getD]
        rw [List.getElem?_append_right h4]
        have h6 : a / 4 - cols.length < k := by omega
        simp [h6]
      · have h2 : ¬ (4 * min s0.npix cols.length ≤ a ∧ a < 4 * (min s0.npix cols.length + min k (s0.npix - min s0.npix cols.length))) := by omega
        rw [if_neg h2, if_neg h1, if_neg h3]
  flags := h.flags

theorem Painted.clear {s0 s : State} {cols : List Byte} (h : Painted s0 s cols) : Painted s0 s.clearHolder cols :=
  ⟨h.only.trans (.clearHolder s), h.cursor, h.clip, h.bytes, h.flags⟩
theorem Painted.stash {s0 s : State} {cols : List Byte} (h : Painted s0 s cols) (c n : Byte) : Painted s0 (s.stash c n) cols :=
  ⟨h.only.trans (.stash s c n), h.cursor, h.clip, h.bytes, h.flags⟩
theorem Painted.advance {s0 s : State} {cols : List Byte} (h : Painted s0 s cols) : Painted s0 s.advance cols :=
  ⟨h.only.trans (.advance s), h.cursor, h.clip, h.bytes, h.flags⟩

@[simp] theorem State.clearHolder_holder (s : State) : State.holder s.clearHolder = none := rfl
@[simp] theorem State.emit_holder (s : State) (c k) : State.holder (s.emit c k) = State.holder s := rfl
@[simp] theorem State.advance_holder (s : State) : State.holder (s.advance) = State.holder s := rfl
@[simp] theorem State.stash_holder (s : State) (c n) : State.holder (s.stash c n) = some (c,n) := rfl

/-- One pair lays down the runs that `runsOf` takes off the stream. -/
theorem Painted.step {s0 s : State} {cols : List Byte} (h : Painted s0 s cols) (c n : Byte) (rest : List (Byte × Byte)) :
    ∃ rs, (runsOf (State.holder s) ((c, n) :: rest)) = (rs ++ (runsOf (State.holder (s.pairStep c n)) rest).1, (runsOf (State.holder (s.pairStep c n)) rest).2)
      ∧ Painted s0 (s.pairStep c n) (cols ++ layOut rs) := by
  have normal : ∀ (u : State) (cs : List Byte), State.holder u = none → Painted s0 u cs →
      ∃ rs, (runsOf none ((c, n) :: rest)) = (rs ++ (runsOf (State.holder (u.normalRule c n)) rest).1, (runsOf (State.holder (u.normalRule c n)) rest).2)
        ∧ Painted s0 (u.normalRule c n) (cs ++ layOut rs) := by
    intro u cs hu hp
    unfold State.normalRule
    by_cases h1 : n = 0xFF#8
    · refine ⟨[⟨c, 16384⟩], ?_, ?_⟩
      · rw [if_pos h1]; simp only [runsOf, h1, if_true, State.emit_holder, hu]; rfl
      · rw [if_pos h1]
        have e : layOut [⟨c, 16384⟩] = List.replicate 16384 c := by rw [layOut_cons]; exact List.append_nil _
        rw [e]; exact hp.emit c 16384
    · by_cases h2 : 128 ≤ n.toNat
      · refine ⟨[], ?_, ?_⟩
        · rw [if_neg h1, if_pos ((high_bit_iff n).2 h2)]; simp only [runsOf, h1, h2, if_true, if_false, State.stash_holder]; rfl
        · have := hp.stash c n
          simpa [h1, (high_bit_iff n).2 h2, layOut] using this
      · refine ⟨[⟨c, n.toNat + 1⟩], ?_, ?_⟩
        · have h3 : ¬ (n &&& 0x80#8 ≠ 0#8) := fun x => h2 ((high_bit_iff n).1 x)
          rw [if_neg h1, if_neg h3]; simp only [runsOf, h1, h2, if_false, State.emit_holder, hu]; rfl
        · have h3 : ¬ (n &&& 0x80#8 ≠ 0#8) := fun x => h2 ((high_bit_iff n).1 x)
          rw [if_neg h1, if_neg h3]
          simpa [layOut_cons, layOut] using hp.emit c (n.toNat + 1)
  unfold State.pairStep
  by_cases hv : s.holdV
  · have hh : State.holder s = some (s.holdC, s.holdN) := by simp [State.holder, hv]
    rw [if_pos hv, hh]
    by_cases hc : c = s.holdC
    · refine ⟨[⟨c, lenCont s.holdN n⟩], ?_, ?_⟩
      · rw [if_pos hc]; simp [runsOf, hc, lenCont_eq]
      · rw [if_pos hc]
        simpa [layOut_cons, layOut] using h.clear.emit c (lenCont s.holdN n)
    · rw [if_neg hc]
      obtain ⟨rs, h1, h2⟩ := normal (s.clearHolder.emit s.holdC (lenExt s.holdN)) _ rfl (h.clear.emit _ _)
      refine ⟨⟨s.holdC, lenExt s.holdN⟩ :: rs, ?_, ?_⟩
      · have : runsOf (some (s.holdC, s.holdN)) ((c, n) :: rest) = (⟨s.holdC, lenExt s.holdN⟩ :: (runsOf none ((c,n)::rest)).1, (runsOf none ((c,n)::rest)).2) := by
          simp only [runsOf, hc, if_false, lenExt_eq]
          split
          · rfl
          · split <;> rfl
        rw [this, h1]; rfl
      · simpa [layOut_cons, List.append_assoc] using h2
  · have hh : State.holder s = none := by simp [State.holder, hv]
    rw [if_neg hv, hh]
    exact normal s cols hh h

/-- The `k` pairs of the stream from byte offset `r` on. -/
def State.pairsFrom (s : State) (r k : Nat) : List (Byte × Byte) :=
  (List.range k).map (fun i => (s.byteAt .cbuf (s.srcAddr.toNat + (r + 2 * i)), s.byteAt .cbuf (s.srcAddr.toNat + (r + 2 * i) + 1)))

theorem State.pairsFrom_succ (s : State) (r k : Nat) : s.pairsFrom r (k+1) =
   (s.byteAt .cbuf (s.srcAddr.toNat + r), s.byteAt .cbuf (s.srcAddr.toNat + r + 1)) :: pairsFrom s (r+2) k := by
  simp only [State.pairsFrom, List.range_succ_eq_map, List.map_cons, List.map_map]
  congr 1
  · apply List.map_congr_left
    intro i _
    simp only [Function.comp]
    have : r + 2 * i.succ = r + 2 + 2 * i := by omega
    rw [this]

/-- The loop lays down the runs of its pairs. -/
theorem Painted.loop (s0 : State) : ∀ (k : Nat) (s : State) (cols : List Byte), Painted s0 s cols → s.rdptr.toNat + 2 * k < 2^32 →
    Painted s0 (State.pairLoop k s) (cols ++ layOut (runsOf (State.holder s) (s0.pairsFrom s.rdptr.toNat k)).1)
    ∧ State.holder (State.pairLoop k s) = (runsOf (State.holder s) (s0.pairsFrom s.rdptr.toNat k)).2
    ∧ (State.pairLoop k s).rdptr.toNat = s.rdptr.toNat + 2 * k := by
  intro k
  induction k with
  | zero => intro s cols h _; simp [State.pairLoop, State.pairsFrom, runsOf, layOut, h]
  | succ k ih =>
    intro s cols h hr
    have hadv := h.advance
    obtain ⟨rs, h1, h2⟩ := hadv.step s.fetchedColour s.fetchedLength (s0.pairsFrom (s.rdptr.toNat + 2) k)
    have hrd : ((s.advance).pairStep s.fetchedColour s.fetchedLength).rdptr.toNat = s.rdptr.toNat + 2 := by
      rw [State.pairStep_rdptr]; simp; omega
    have ih' := ih _ _ h2 (by rw [hrd]; omega)
    rw [hrd] at ih'
    have hf : s0.pairsFrom s.rdptr.toNat (k+1) = (s.fetchedColour, s.fetchedLength) :: s0.pairsFrom (s.rdptr.toNat + 2) k := by
      rw [State.pairsFrom_succ]
      have e : s.srcAddr = s0.srcAddr := h.only.same.2.2.2.1
      unfold State.fetchedColour State.fetchedLength
      rw [h.only.cbufByte, h.only.cbufByte, e]
    have hh : State.holder s.advance = State.holder s := rfl
    rw [hh] at h1
    rw [hf, h1]
    simp only [State.pairLoop]
    refine ⟨?_, ih'.2.1, by rw [ih'.2.2]; omega⟩
    have := ih'.1
    simpa [layOut, List.append_assoc] using this

end Sys2Proof.Machine
end

