-- ==== Sys2Proof/Laws/Derived.lean ====
section
/-! SUPPORT. What a DECODE derives from stream bytes the host writes meanwhile (R175, log 8): what a pair lays down, two
decoders whose streams differ in written bytes only, and that every emitted byte that is not derived is the same in both. -/

namespace Sys2Proof.Machine

/-! ### What a pair lays down -/

/-- From `s` to `t` the decoder laid down the colours `cols`, cut at NPIX. -/
structure Lays (s : State) (cols : List Byte) (t : State) : Prop where
  cursor : t.cursor.toNat = s.cursor.toNat + min cols.length s.budget
  bytes : ∀ x, t.byteAt .lbuf x =
    if 4 * s.cursor.toNat ≤ x ∧ x < 4 * t.cursor.toNat then
      pixelLane (s.cfg.palette.lookup (cols.getD (x/4 - s.cursor.toNat) 0)) (x % 4)
    else s.byteAt .lbuf x
  only : DecoderOnly s t

theorem Lays.nil {s t : State} (h : DecoderOnly s t) (hc : t.cursor = s.cursor)
    (hl : t.lbuf = s.lbuf) : Lays s [] t := by
  refine ⟨by rw [hc]; simp, fun x => ?_, h⟩
  rw [hc, if_neg (by omega)]
  exact State.byteAt_congr (sp := .lbuf) hl h.same.2.2.2.2.2.2.2.1 x

theorem Lays.emit (s : State) (c k) : Lays s (List.replicate k c) (s.emit c k) := by
  have h := emit_emitted s c k
  refine ⟨by rw [h.cursor]; simp, fun x => ?_, .emit s c k⟩
  rw [h.bytes]
  by_cases hx : 4 * s.cursor.toNat ≤ x ∧ x < 4 * (s.emit c k).cursor.toNat
  · rw [if_pos hx, if_pos hx]
    have := hx.2; rw [h.cursor] at this
    have : x/4 - s.cursor.toNat < k := by omega
    simp [List.getD_eq_getElem?_getD, this]
  · rw [if_neg hx, if_neg hx]

theorem Lays.trans {s u t : State} {A B} (h1 : Lays s A u) (h2 : Lays u B t) : Lays s (A ++ B) t := by
  have hb : u.budget = s.budget - min A.length s.budget := by
    unfold State.budget; rw [h1.only.npix, h1.cursor]; unfold State.budget; omega
  have hcu := h1.cursor
  have hct := h2.cursor
  rw [hb] at hct
  refine ⟨by simp; omega, fun x => ?_, h1.only.trans h2.only⟩
  rw [h2.bytes]
  by_cases a : 4 * u.cursor.toNat ≤ x ∧ x < 4 * t.cursor.toNat
  · rw [if_pos a, if_pos (by omega)]
    have e : min A.length s.budget = A.length := by omega
    rw [h1.only.same.1]
    simp only [List.getD_eq_getElem?_getD]
    rw [List.getElem?_append_right (by omega)]
    rw [show x/4 - s.cursor.toNat - A.length = x/4 - u.cursor.toNat by omega]
  · rw [if_neg a, h1.bytes]
    by_cases b : 4 * s.cursor.toNat ≤ x ∧ x < 4 * u.cursor.toNat
    · rw [if_pos b, if_pos (by omega)]
      simp only [List.getD_eq_getElem?_getD]
      rw [List.getElem?_append_left (by omega)]
    · rw [if_neg b, if_neg (by omega)]

/-- The colours the normal rule lays down (R99). -/
def normalCols (c n : Byte) : List Byte := if n
    = 0xFF#8 then List.replicate 0x4000 c else if n &&& 0x80#8 ≠ 0#8 then [] else List.replicate (n.toNat + 1) c
/-- The colours a pair step lays down. -/
def stepCols (s : State) (c n : Byte) : List Byte :=
  if s.holdV then List.replicate (lenExt s.holdN) s.holdC ++ (if c
      = s.holdC then List.replicate (n.toNat + 1) c else normalCols c n) else normalCols c n

theorem normalRule_lays (s : State) (c n) : Lays s (normalCols c n) (s.normalRule c n) := by
  unfold normalCols State.normalRule
  split
  · exact .emit ..
  · split
    · exact .nil (.stash ..) rfl rfl
    · exact .emit ..

theorem pairStep_lays (s : State) (c n) : Lays s (stepCols s c n) (s.pairStep c n) := by
  unfold stepCols State.pairStep
  have h0 : Lays s [] s.clearHolder := .nil (.clearHolder s) rfl rfl
  by_cases hv : s.holdV = true
  · rw [if_pos hv, if_pos hv]
    by_cases hc : c = s.holdC
    · rw [if_pos hc, if_pos hc]
      have := h0.trans (.emit s.clearHolder c (lenCont s.holdN n))
      rw [List.nil_append] at this
      rw [← hc, List.replicate_append_replicate]
      rwa [show lenExt s.holdN + (n.toNat + 1) = lenCont s.holdN n by rw [lenExt_eq, lenCont_eq]; omega]
    · rw [if_neg hc, if_neg hc]
      have := (h0.trans (.emit s.clearHolder s.holdC (lenExt s.holdN))).trans (normalRule_lays _ c n)
      rwa [List.nil_append] at this
  · rw [if_neg hv, if_neg hv]
    exact normalRule_lays s c n

/-! ### Two streams that differ in written bytes -/

/-- Two decoders at the same place of two streams that differ in the ranges `rs` only; `held` says that HOLD_C may differ. -/
structure AgreesOff (rs : List Span) (held : Bool) (s t : State) : Prop where
  cfg : s.cfg = t.cfg
  w : s.pageW = t.pageW
  h : s.pageH = t.pageH
  a : s.srcAddr = t.srcAddr
  len : s.srcLen = t.srcLen
  tam : s.tampered = rs
  rdptr : s.rdptr = t.rdptr
  fit : ∀ x, (∀ r ∈ rs, ¬(r.base ≤ x ∧ x < r.base + r.len)) → s.byteAt .cbuf x = t.byteAt .cbuf x
  cursor : s.cursor = t.cursor
  hv : s.holdV = t.holdV
  hn : s.holdV = true → s.holdN = t.holdN
  hc : s.holdV = true → held = false → s.holdC = t.holdC

/-- What is not written is fetched alike. -/
theorem AgreesOff.fetch {rs held s t} (h : AgreesOff rs held s t) :
    (s.written s.rdptr.toNat = false → s.fetchedColour = t.fetchedColour)
    ∧ (s.written (s.rdptr.toNat + 1) = false → s.fetchedLength = t.fetchedLength) := by
  have key : ∀ o, s.written o = false →
      s.byteAt .cbuf (s.srcAddr.toNat + o) = t.byteAt .cbuf (s.srcAddr.toNat + o) := by
    intro o ho
    apply h.fit
    intro r hr hin
    unfold State.written at ho
    rw [h.tam] at ho
    have := List.any_eq_false.1 ho r hr
    simp [hin] at this
  unfold State.fetchedColour State.fetchedLength
  rw [← h.a, ← h.rdptr]
  exact ⟨key _, fun hh => by have := key _ hh; rwa [← Nat.add_assoc] at this⟩

/-- What of them follows the holder's: `hv` and `hC` are HOLD_V and HOLD_C. -/
def tailCols (hv : Bool) (hC c n : Byte) : List Byte :=
  if hv then (if c = hC then List.replicate (n.toNat + 1) c else normalCols c n) else normalCols c n

/-- `State.sureLen`, of what it looks at: `wc` and `wn` say that the colour byte and the length code are written. -/
def sureOf (hv held wc wn : Bool) (hC c n : Byte) : Nat :=
  if wn then (if hv && !(hv && (held || wc)) && c == hC then 1 else 0)
  else if n = 0xFF#8 then if hv then 256 else 0x4000
  else if n &&& 0x80#8 ≠ 0#8 then 0 else n.toNat + 1

/-- `State.placeLost`, of what it looks at. -/
def lostOf (hv held wc wn : Bool) (n : Byte) : Bool := wn || (hv && (held || wc)) && n &&& 0x80#8 != 0#8

theorem tailCols_run {n : Byte} (h : ¬ n &&& 0x80#8 ≠ 0#8) (hC c : Byte) (hv) : tailCols hv hC c n
    = List.replicate (n.toNat + 1) c := by
  have hff : n ≠ 0xFF#8 := by rintro rfl; exact h (by decide)
  unfold tailCols normalCols
  rw [if_neg hff, if_neg h]
  repeat' split
  all_goals rfl

theorem replicate_getElem {k m j : Nat} (c : Byte) (h1 : j < k) (h2 : j < m) : (List.replicate k c)[j]?
    = (List.replicate m c)[j]? := by
  simp [h1, h2]

/-- Where the place is lost, the first `sureLen` colours are still those of the pair in both streams. -/
theorem tailCols_lost {hv held wc wn : Bool} {hC hC' c c' n n' : Byte} (h1 : wc = false →
    c = c') (h2 : wn = false → n = n') (h3 : held = false → hC = hC')
    (hl : lostOf hv held wc wn n = true) :
    sureOf hv held wc wn hC c n ≤ (tailCols hv hC c n).length
       ∧ sureOf hv held wc wn hC c n ≤ (tailCols hv hC' c' n').length ∧
    (wc = false → ∀ j < sureOf hv held wc wn hC c n, (tailCols hv hC c n)[j]? = (tailCols hv hC' c' n')[j]?) := by
  unfold lostOf at hl
  by_cases hwn : wn = true
  · unfold sureOf; rw [if_pos hwn]
    by_cases hs : (hv && !(hv && (held || wc)) && c == hC) = true
    · rw [if_pos hs]
      simp only [Bool.and_eq_true, Bool.not_eq_true', Bool.and_eq_false_iff, Bool.or_eq_false_iff, beq_iff_eq] at hs
      obtain ⟨⟨a, b⟩, d⟩ := hs
      rcases b with b | ⟨b1, b2⟩
      · rw [a] at b; cases b
      have := h1 b2; have := h3 b1; subst this; subst d; subst this
      unfold tailCols
      rw [if_pos a, if_pos rfl, if_pos a, if_pos rfl]
      refine ⟨by simp, by simp, fun _ j hj => replicate_getElem _ (by omega) (by omega)⟩
    · rw [if_neg hs]; exact ⟨Nat.zero_le _, Nat.zero_le _, fun _ j hj => by omega⟩
  · have hwn' : wn = false := by simpa using hwn
    have := h2 hwn'; subst this
    rw [hwn', Bool.false_or, Bool.and_eq_true] at hl
    have hv' : hv = true := by have := hl.1; simp at this; exact this.1
    have hh : n &&& 0x80#8 ≠ 0#8 := by simpa using hl.2
    unfold sureOf; rw [if_neg hwn]
    by_cases hf : n = 0xFF#8
    · rw [if_pos hf, if_pos hv']
      unfold tailCols normalCols
      simp only [if_pos hv', if_pos hf]
      have hn : n.toNat = 255 := by rw [hf]; rfl
      refine ⟨?_, ?_, fun hw j hj => ?_⟩
      · split <;> rw [List.length_replicate] <;> omega
      · split <;> rw [List.length_replicate] <;> omega
      · have := h1 hw; subst this
        split <;> split <;> exact replicate_getElem _ (by omega) (by omega)
    · rw [if_neg hf, if_pos hh]; exact ⟨Nat.zero_le _, Nat.zero_le _, fun _ j hj => by omega⟩

/-- Where it is not lost, both streams lay down as many colours, and the same ones if the colour byte is not written. -/
theorem tailCols_kept {hv held wc wn : Bool} {hC hC' c c' n n' : Byte} (h1 : wc = false →
    c = c') (h2 : wn = false → n = n') (h3 : held = false → hC = hC')
    (hl : lostOf hv held wc wn n = false) :
    (tailCols hv hC c n).length = (tailCols hv hC' c' n').length
       ∧ (wc = false → tailCols hv hC c n = tailCols hv hC' c' n') ∧
    (wc = true → (tailCols hv hC c n).length ≤ sureOf hv held wc wn hC c n) := by
  unfold lostOf at hl
  rw [Bool.or_eq_false_iff] at hl
  obtain ⟨hwn, hl⟩ := hl
  have := h2 hwn; subst this
  by_cases hh : n &&& 0x80#8 ≠ 0#8
  · have hm : (hv && (held || wc)) = false := by
      rcases Bool.and_eq_false_iff.1 hl with h | h
      · exact h
      · simp at h; exact absurd h hh
    rcases Bool.and_eq_false_iff.1 hm with h | h
    · subst h
      unfold tailCols normalCols sureOf
      simp only [hwn, Bool.false_eq_true, if_false]
      refine ⟨?_, ?_, ?_⟩
      · repeat' split
        all_goals simp only [List.length_replicate, List.length_nil]
      · intro hw; rw [h1 hw]
      · intro _; repeat' split
        all_goals simp only [List.length_replicate, List.length_nil, Nat.le_refl]
    · obtain ⟨a, b⟩ := Bool.or_eq_false_iff.1 h
      have := h1 b; have := h3 a; subst this; subst c'
      exact ⟨rfl, fun _ => rfl, fun x => by rw [b] at x; cases x⟩
  · rw [tailCols_run hh, tailCols_run hh]
    refine ⟨by simp, fun hw => by rw [h1 hw], fun _ => ?_⟩
    have hff : n ≠ 0xFF#8 := by rintro rfl; exact hh (by decide)
    unfold sureOf
    simp [hwn, hff]
    simp at hh; simp [hh]

theorem stepCols_eq (s : State) (c n) : stepCols s c n
    = (if s.holdV then List.replicate (lenExt s.holdN) s.holdC else []) ++ tailCols s.holdV s.holdC c n := by
  unfold stepCols tailCols
  by_cases h : s.holdV = true
  · simp only [if_pos h]
  · simp [h]

/-- The holder after a pair (R99). -/
theorem pairStep_holder (s : State) (c n : Byte) : 
    let stashes := !(s.holdV && c == s.holdC) && n != 0xFF#8 && (n &&& 0x80#8 != 0#8)
    (s.pairStep c n).holdV = stashes ∧ (stashes = true → (s.pairStep c n).holdC = c ∧ (s.pairStep c n).holdN = n) := by
  have nr : ∀ u : State, u.holdV = false → (u.normalRule c n).holdV = (n != 0xFF#8 && (n &&& 0x80#8 != 0#8))
      ∧ ((n != 0xFF#8 && (n &&& 0x80#8 != 0#8)) = true → (u.normalRule c n).holdC = c
      ∧ (u.normalRule c n).holdN = n) := by
    intro u hu
    unfold State.normalRule
    by_cases h1 : n = 0xFF#8
    · simp [h1, hu]
    · by_cases h2 : n &&& 0x80#8 ≠ 0#8
      · simp [h1, h2]
      · simp at h2; simp [h1, h2, hu]
  intro st
  unfold State.pairStep
  by_cases hv : s.holdV = true
  · by_cases hc : c = s.holdC
    · have : st = false := by simp [st, hv, hc]
      rw [if_pos hv, if_pos hc, this]; exact ⟨rfl, fun h => by cases h⟩
    · have : st = (n != 0xFF#8 && (n &&& 0x80#8 != 0#8)) := by have hb : (c == s.holdC) = false := by simpa using hc
                                                               simp [st, hv, hb]
      rw [if_pos hv, if_neg hc, this]; exact nr _ rfl
  · have : st = (n != 0xFF#8 && (n &&& 0x80#8 != 0#8)) := by simp [st, hv]
    rw [if_neg hv, this]; exact nr _ (by simpa using hv)

theorem State.pairStep_tampered (s : State) (c n : Byte) : (s.pairStep c n).tampered
    = s.tampered := (DecoderOnly.pairStep s c n).same.2.2.2.2.2.2.2.2.2.2.2.2.2.2.2.2.2.2.2.2

theorem sureLen_eq (s : State) (held) : s.sureLen held
    = sureOf s.holdV held (s.written s.rdptr.toNat) (s.written (s.rdptr.toNat+1)) s.holdC s.fetchedColour
      s.fetchedLength := rfl
theorem placeLost_eq (s : State) (held) : s.placeLost held
    = lostOf s.holdV held (s.written s.rdptr.toNat) (s.written (s.rdptr.toNat+1)) s.fetchedLength := rfl

/-- What of them is the holder's. -/
def heldCols (s : State) : List Byte := if s.holdV then List.replicate (lenExt s.holdN) s.holdC else []
theorem length_heldCols (s : State) : (heldCols s).length = s.heldLen := by
  unfold heldCols State.heldLen; split <;> simp

theorem AgreesOff.npix {rs held s t} (h : AgreesOff rs held s t) : s.npix = t.npix := by
    unfold State.npix; rw [h.w, h.h]
theorem AgreesOff.heldLen {rs held s t} (h : AgreesOff rs held s t) : s.heldLen = t.heldLen := by
  unfold State.heldLen; rw [← h.hv]; by_cases hv : s.holdV = true
  · rw [if_pos hv, if_pos hv, h.hn hv]
  · rw [if_neg hv, if_neg hv]

/-- Where the place is not lost, the two decoders agree after the pair as well. -/
theorem AgreesOff.next {rs held s t} (h : AgreesOff rs held s t) (hl : s.placeLost held = false) :
    AgreesOff rs (s.written s.rdptr.toNat) (s.advance.pairStep s.fetchedColour s.fetchedLength)
      (t.advance.pairStep t.fetchedColour t.fetchedLength) := by
  obtain ⟨fc, fl⟩ := h.fetch
  rw [placeLost_eq] at hl
  have hC : s.holdV = true → held = false → s.holdC = t.holdC := h.hc
  have ds := (DecoderOnly.advance s).trans (DecoderOnly.pairStep s.advance s.fetchedColour s.fetchedLength)
  have dt := (DecoderOnly.advance t).trans (DecoderOnly.pairStep t.advance t.fetchedColour t.fetchedLength)
  obtain ⟨a1,a2,a3,a4,a5,a6,a7,a8,a9,a10,a11,a12,a13,a14,a15,a16,a17,a18,a19,a20,a21⟩ := ds.same
  obtain ⟨b1,b2,b3,b4,b5,b6,b7,b8,b9,b10,b11,b12,b13,b14,b15,b16,b17,b18,b19,b20,b21⟩ := dt.same
  have ps := pairStep_lays s.advance s.fetchedColour s.fetchedLength
  have pt := pairStep_lays t.advance t.fetchedColour t.fetchedLength
  have hs := pairStep_holder s.advance s.fetchedColour s.fetchedLength
  have ht := pairStep_holder t.advance t.fetchedColour t.fetchedLength
  have hwn : s.written (s.rdptr.toNat + 1) = false := by
    unfold lostOf at hl; exact (Bool.or_eq_false_iff.1 hl).1
  have hn := fl hwn
  -- stashes equal
  have hst : (!(s.holdV && s.fetchedColour == s.holdC) && s.fetchedLength != 0xFF#8 && (s.fetchedLength &&& 0x80#8 != 0#8))
      = (!(t.holdV && t.fetchedColour == t.holdC) && t.fetchedLength != 0xFF#8 && (t.fetchedLength &&& 0x80#8 != 0#8)) := by
    rw [← hn, ← h.hv]
    by_cases hh : s.fetchedLength &&& 0x80#8 ≠ 0#8
    · unfold lostOf at hl
      have hm : (s.holdV && (held || s.written s.rdptr.toNat)) = false := by
        rcases Bool.and_eq_false_iff.1 (Bool.or_eq_false_iff.1 hl).2 with h | h
        · exact h
        · simp at h; exact absurd h hh
      rcases Bool.and_eq_false_iff.1 hm with hq | hq
      · simp [hq]
      · obtain ⟨x, y⟩ := Bool.or_eq_false_iff.1 hq
        by_cases hv : s.holdV = true
        · rw [fc y, hC hv x]
        · simp [hv]
    · simp at hh; simp [hh]
  refine ⟨by rw [a1, b1]; exact h.cfg, by rw [a2, b2]; exact h.w, by rw [a3, b3]; exact h.h,
      by rw [a4,b4]; exact h.a, by rw [a5, b5]; exact h.len, by rw [a21]; exact h.tam, ?_, ?_, ?_, ?_, ?_, ?_⟩
  · rw [State.pairStep_rdptr, State.pairStep_rdptr]; show s.rdptr + _ = t.rdptr + _; rw [h.rdptr]
  · intro x hx; rw [ds.cbufByte, dt.cbufByte]; exact h.fit x hx
  · apply BitVec.eq_of_toNat_eq
    rw [ps.cursor, pt.cursor]
    have hcu : s.advance.cursor.toNat = t.advance.cursor.toNat := by show s.cursor.toNat = t.cursor.toNat; rw [h.cursor]
    have hbu : s.advance.budget = t.advance.budget := by
      unfold State.budget; rw [hcu]; show s.npix - _ = t.npix - _; rw [h.npix]
    rw [hcu, hbu, stepCols_eq, stepCols_eq]
    have e1 : (heldCols s.advance).length = (heldCols t.advance).length := by
      rw [length_heldCols, length_heldCols]; exact h.heldLen
    have e2 := (tailCols_kept (hC := s.holdC) (hC' := if held = false
        ∧ s.holdV = true then t.holdC else if held = false then s.holdC else t.holdC) fc fl (by
      intro hh; by_cases hv : s.holdV = true
      · simp [hh, hv]; exact hC hv hh
      · simp [hh, hv]) hl).1
    have e3 : (tailCols s.holdV (if held = false
        ∧ s.holdV = true then t.holdC else if held
        = false then s.holdC else t.holdC) t.fetchedColour t.fetchedLength)
        = tailCols t.holdV t.holdC t.fetchedColour t.fetchedLength := by
      rw [← h.hv]
      by_cases hv : s.holdV = true
      · by_cases hh : held = false <;> simp [hv, hh]
      · simp [tailCols, hv]
    rw [e3] at e2
    rw [List.length_append, List.length_append]
    have e1' : (if s.advance.holdV then List.replicate (lenExt s.advance.holdN) s.advance.holdC else []).length
        = (if t.advance.holdV then List.replicate (lenExt t.advance.holdN) t.advance.holdC else []).length := e1
    have e2' : (tailCols s.advance.holdV s.advance.holdC s.fetchedColour s.fetchedLength).length
        = (tailCols t.advance.holdV t.advance.holdC t.fetchedColour t.fetchedLength).length := e2
    rw [e1', e2']
  · rw [hs.1, ht.1]; exact hst
  · intro hx
    rw [hs.1] at hx
    rw [(hs.2 hx).2, (ht.2 (hst.symm.trans hx)).2]; exact hn
  · intro hx hw
    rw [hs.1] at hx
    rw [(hs.2 hx).1, (ht.2 (hst.symm.trans hx)).1]; exact fc hw


/-! ### The rest of a DECODE -/

/-- The pairs left and the end of the body. -/
def pairsThenTail (n : Nat) (s : State) : State := (State.pairLoop n s).decodeTail

theorem decodeTail_lays (s : State) :
    Lays s (if s.holdV then List.replicate (lenTail s.holdN s.budget) s.holdC else []) s.decodeTail := by
  by_cases hv : s.holdV = true
  · rw [if_pos hv]
    have e : s.decodeTail = { (State.emit { s with
          odd := s.odd || oddOf s.srcLen.toNat, tailf := true } s.holdC (lenTail s.holdN s.budget)).clearHolder with
        under := s.decodeTail.under } := by
      unfold State.decodeTail State.tail
      rw [if_pos (show ({ s with odd := s.odd || oddOf s.srcLen.toNat } : State).holdV = true from hv)]
      rfl
    have p := Lays.emit { s with
        odd := s.odd || oddOf s.srcLen.toNat, tailf := true } s.holdC (lenTail s.holdN s.budget)
    refine ⟨?_, ?_, .decodeTail s⟩
    · have := p.cursor; rw [e]; exact this
    · intro x; have := p.bytes x; rw [e]; exact this
  · rw [if_neg hv]
    refine .nil (.decodeTail s) ?_ ?_
    · unfold State.decodeTail State.tail
      rw [if_neg (show ¬ ({ s with odd := s.odd || oddOf s.srcLen.toNat } : State).holdV = true from hv)]
    · unfold State.decodeTail State.tail
      rw [if_neg (show ¬ ({ s with odd := s.odd || oddOf s.srcLen.toNat } : State).holdV = true from hv)]

theorem Lays.mono {s t A} (h : Lays s A t) : s.cursor.toNat ≤ t.cursor.toNat
    ∧ ∀ x < 4 * s.cursor.toNat, t.byteAt .lbuf x = s.byteAt .lbuf x :=
  ⟨by rw [h.cursor]; omega, fun x hx => by rw [h.bytes, if_neg (by omega)]⟩

theorem pairsThenTail_lays (n) : ∀ s, ∃ A, Lays s A (pairsThenTail n s) := by
  induction n with
  | zero => exact fun s => ⟨_, decodeTail_lays s⟩
  | succ n ih =>
    intro s
    obtain ⟨A, hA⟩ := ih (s.advance.pairStep s.fetchedColour s.fetchedLength)
    have p1 : Lays s [] s.advance := .nil (.advance s) rfl rfl
    exact ⟨_, (p1.trans (pairStep_lays s.advance s.fetchedColour s.fetchedLength)).trans hA⟩

theorem pixelSpan_iff (last p k x : Nat) : ((pixelSpan last p k).base ≤ x
    ∧ x < (pixelSpan last p k).base + (pixelSpan last p k).len) ↔
      4 * p ≤ x ∧ x < 4 * min (p + k) last := by
  unfold pixelSpan; simp only; omega

/-- Every byte emitted from here on that is not derived is emitted at the same place with the same value in both. -/
theorem derivedLoop_covers (rs : List Span) (n : Nat) : ∀ (held : Bool) (s t : State), AgreesOff rs held s t →
    s.cursor.toNat ≤ s.npix → ∀ x, 4 * s.cursor.toNat ≤ x → x < 4 * (pairsThenTail n s).cursor.toNat →
    (∀ r ∈ State.derivedLoop (pairsThenTail n s).cursor.toNat n held s, ¬ (r.base ≤ x
        ∧ x < r.base + r.len)) → x < 4 * (pairsThenTail n t).cursor.toNat
        ∧ (pairsThenTail n s).byteAt .lbuf x = (pairsThenTail n t).byteAt .lbuf x := by
  induction n with
  | zero =>
    intro held s t h hp x h1 h2 hx
    have ps := decodeTail_lays s
    have pt := decodeTail_lays t
    change x < 4 * s.decodeTail.cursor.toNat at h2
    show x < 4 * t.decodeTail.cursor.toNat ∧ s.decodeTail.byteAt .lbuf x = t.decodeTail.byteAt .lbuf x
    have hb : s.budget = t.budget := by unfold State.budget; rw [h.npix, h.cursor]
    by_cases hv : s.holdV = true
    · have hv' := h.hv ▸ hv
      rw [if_pos hv] at ps
      rw [if_pos hv', ← h.hn hv, ← hb] at pt
      have hc : t.decodeTail.cursor.toNat = s.decodeTail.cursor.toNat := by
        rw [ps.cursor, pt.cursor, h.cursor, hb]; simp
      have hh : held = false := by
        cases held with
        | false => rfl
        | true =>
          exfalso
          refine hx (pixelSpan s.decodeTail.cursor.toNat s.cursor.toNat s.decodeTail.cursor.toNat) ?_ ?_
          · unfold State.derivedLoop; rw [hv]; exact List.mem_singleton.2 rfl
          · rw [pixelSpan_iff]; omega
      rw [ps.bytes, pt.bytes, hc, ← h.cursor, ← h.cfg, ← h.hc hv hh, if_pos ⟨h1, h2⟩, if_pos ⟨h1, h2⟩]
      exact ⟨h2, rfl⟩
    · rw [if_neg hv] at ps
      have := ps.cursor; simp at this; omega
  | succ n ih =>
    intro held s t h hp x h1 h2 hx
    simp only [State.derivedLoop] at hx
    set s' := s.advance.pairStep s.fetchedColour s.fetchedLength with hs'
    set t' := t.advance.pairStep t.fetchedColour t.fetchedLength with ht'
    change x < 4 * (pairsThenTail n s').cursor.toNat at h2
    change (∀ r ∈ _ ++ (_ ++ (if s.placeLost held then [pixelSpan (pairsThenTail n s').cursor.toNat _
      (pairsThenTail n s').cursor.toNat] else State.derivedLoop (pairsThenTail n s').cursor.toNat n _ s')),
      ¬ (r.base ≤ x ∧ x < r.base + r.len)) at hx
    show x < 4 * (pairsThenTail n t').cursor.toNat
        ∧ (pairsThenTail n s').byteAt .lbuf x = (pairsThenTail n t').byteAt .lbuf x
    have p1 : Lays s [] s.advance := .nil (.advance s) rfl rfl
    have p2 : Lays t [] t.advance := .nil (.advance t) rfl rfl
    have ps : Lays s (heldCols s ++ tailCols s.holdV s.holdC s.fetchedColour s.fetchedLength) s' := by
      have := p1.trans (pairStep_lays s.advance s.fetchedColour s.fetchedLength)
      rw [List.nil_append, stepCols_eq] at this; exact this
    have pt : Lays t (heldCols t ++ tailCols t.holdV t.holdC t.fetchedColour t.fetchedLength) t' := by
      have := p2.trans (pairStep_lays t.advance t.fetchedColour t.fetchedLength)
      rw [List.nil_append, stepCols_eq] at this; exact this
    obtain ⟨A, fs⟩ := pairsThenTail_lays n s'
    obtain ⟨B, ft⟩ := pairsThenTail_lays n t'
    have hb : s.budget = t.budget := by unfold State.budget; rw [h.npix, h.cursor]
    have hbd : s.budget = s.npix - s.cursor.toNat := rfl
    have hcur : s.cursor.toNat = t.cursor.toNat := by rw [h.cursor]
    have L1 := length_heldCols s
    have L2 := length_heldCols t
    rw [← h.heldLen] at L2
    obtain ⟨fc, fl⟩ := h.fetch
    -- spans
    have hsp1 : (s.holdV && held) = true →
        ¬ (x < 4 * min (s.cursor.toNat + s.heldLen) (pairsThenTail n s').cursor.toNat) := by
      intro hh hlt
      refine hx _ (List.mem_append_left _ (by rw [if_pos hh]; exact List.mem_singleton.2 rfl)) ?_
      rw [pixelSpan_iff]; exact ⟨h1, hlt⟩
    have hsp2 : s.written s.rdptr.toNat = true → ¬ (4 * (s.cursor.toNat + s.heldLen) ≤ x
        ∧ x < 4 * min (s.cursor.toNat + s.heldLen + s.sureLen held) (pairsThenTail n s').cursor.toNat) := by
      intro hh hlt
      refine hx _ (List.mem_append_right _ (List.mem_append_left _ (by rw [if_pos hh]; exact List.mem_singleton.2 rfl))) ?_
      rw [pixelSpan_iff]; exact hlt
    -- colour equality at an index gives the goal
    set U := tailCols s.holdV s.holdC s.fetchedColour s.fetchedLength with hU
    set V := tailCols t.holdV t.holdC t.fetchedColour t.fetchedLength with hV
    have goal : x < 4 * s'.cursor.toNat → x/4 - s.cursor.toNat < (heldCols t ++ V).length →
        (heldCols s ++ U)[x/4 - s.cursor.toNat]? = (heldCols t ++ V)[x/4 - s.cursor.toNat]? →
        x < 4 * (pairsThenTail n t').cursor.toNat
        ∧ (pairsThenTail n s').byteAt .lbuf x = (pairsThenTail n t').byteAt .lbuf x := by
      intro hxs hlt heq
      have hxt : x < 4 * t'.cursor.toNat := by
        rw [pt.cursor, ← hb]; rw [ps.cursor] at hxs; omega
      refine ⟨by have := ft.mono.1; omega, ?_⟩
      rw [fs.mono.2 x hxs, ft.mono.2 x hxt, ps.bytes, pt.bytes, if_pos ⟨h1, hxs⟩, if_pos ⟨by omega, hxt⟩, ← h.cfg,
          ← hcur]
      simp only [List.getD_eq_getElem?_getD, heq]
    have hgetHeld : x < 4 * s'.cursor.toNat → x/4 - s.cursor.toNat < s.heldLen →
        x < 4 * (pairsThenTail n t').cursor.toNat
        ∧ (pairsThenTail n s').byteAt .lbuf x = (pairsThenTail n t').byteAt .lbuf x := by
      intro hxs hlt
      refine goal hxs (by rw [List.length_append, L2]; omega) ?_
      rw [List.getElem?_append_left (by omega), List.getElem?_append_left (by omega)]
      have hv : s.holdV = true := by
        by_contra hv; unfold State.heldLen at hlt; rw [if_neg hv] at hlt; omega
      have hh : held = false := by
        cases held with
        | false => rfl
        | true => exfalso; refine hsp1 (by simp [hv]) ?_; have := fs.mono.1; omega
      unfold heldCols
      rw [if_pos hv, if_pos (h.hv ▸ hv), h.hc hv hh, h.hn hv]
    have hC : held = false → s.holdC = (if s.holdV then t.holdC else s.holdC) := by
      intro hh; by_cases hv : s.holdV = true
      · rw [if_pos hv]; exact h.hc hv hh
      · rw [if_neg hv]
    have hC' : held = false → s.holdC = (if s.holdV then t.holdC else s.holdC) := hC
    have eV : tailCols s.holdV (if s.holdV then t.holdC else s.holdC) t.fetchedColour t.fetchedLength = V := by
      rw [hV, ← h.hv]
      by_cases hv : s.holdV = true
      · rw [if_pos hv]
      · simp [tailCols, hv]
    cases hl : s.placeLost held with
    | true =>
      obtain ⟨q1, q2, q3⟩ := tailCols_lost fc fl hC (by rw [placeLost_eq] at hl; exact hl)
      rw [eV] at q2 q3
      rw [← sureLen_eq] at q1 q2 q3
      change s.sureLen held ≤ U.length at q1
      have hlast : ¬ (4 * (s.cursor.toNat + s.heldLen + s.sureLen held) ≤ x) := by
        intro hge
        refine hx _ (List.mem_append_right _ (List.mem_append_right _ (by rw [if_pos hl]; exact List.mem_singleton.2 rfl))) ?_
        rw [pixelSpan_iff]; omega
      have hxs : x < 4 * s'.cursor.toNat := by
        rw [ps.cursor, List.length_append, L1]
        have fcur : (pairsThenTail n s').cursor.toNat ≤ s.npix := by
          rw [fs.cursor]
          have : s'.budget = s'.npix - s'.cursor.toNat := rfl
          have e2 : s'.npix = s.npix := (ps.only).npix
          have : s'.cursor.toNat ≤ s.npix := by rw [ps.cursor]; omega
          omega
        omega
      by_cases hj : x/4 - s.cursor.toNat < s.heldLen
      · exact hgetHeld hxs hj
      · refine goal hxs (by rw [List.length_append, L2]; omega) ?_
        rw [List.getElem?_append_right (by omega), List.getElem?_append_right (by omega), L1, L2]
        have hw : s.written s.rdptr.toNat = false := by
          cases hw : s.written s.rdptr.toNat with
          | false => rfl
          | true => exfalso; refine hsp2 hw ?_; omega
        exact q3 hw _ (by omega)
    | false =>
      obtain ⟨q1, q2, q3⟩ := tailCols_kept fc fl hC (by rw [placeLost_eq] at hl; exact hl)
      rw [eV] at q1 q2
      change U.length = V.length at q1
      rw [← sureLen_eq] at q3
      change _ → U.length ≤ s.sureLen held at q3
      have hR := h.next hl
      by_cases hxs : x < 4 * s'.cursor.toNat
      · by_cases hj : x/4 - s.cursor.toNat < s.heldLen
        · exact hgetHeld hxs hj
        · have hpc := ps.cursor
          rw [List.length_append, L1] at hpc
          refine goal hxs (by rw [List.length_append, L2]; omega) ?_
          rw [List.getElem?_append_right (by omega), List.getElem?_append_right (by omega), L1, L2]
          have hw : s.written s.rdptr.toNat = false := by
            cases hw : s.written s.rdptr.toNat with
            | false => rfl
            | true => exfalso; have := q3 hw; have := fs.mono.1; refine hsp2 hw ?_; omega
          have := q2 hw
          change U = V at this
          rw [this]
      · refine ih _ s' t' hR ?_ x (by omega) h2 ?_
        · rw [ps.cursor, (ps.only).npix]; omega
        · intro r hr
          exact hx r (List.mem_append_right _ (List.mem_append_right _ (by rw [if_neg (by simp [hl])]; exact hr)))


theorem pairStep_rdptr_toNat (s : State) (h : s.rdptr.toNat + 2 < 2^32) :
    (s.advance.pairStep s.fetchedColour s.fetchedLength).rdptr.toNat = s.rdptr.toNat + 2 := by
  rw [State.pairStep_rdptr]; show (s.rdptr + 2#32).toNat = _; bv_omega

/-- Every derived range ends at or before the final cursor, or is empty. -/
theorem derivedLoop_inside (last n : Nat) : ∀ (held : Bool) (s : State), ∀ r ∈ State.derivedLoop last n held s,
    r.len = 0 ∨ r.base + r.len ≤ 4 * last := by
  have one : ∀ (p k : Nat), ∀ r ∈ [pixelSpan last p k], r.len = 0 ∨ r.base + r.len ≤ 4 * last := by
    intro p k r hr
    rw [List.mem_singleton.1 hr]
    unfold pixelSpan
    simp only
    omega
  have opt : ∀ (b : Bool) (p k : Nat), ∀ r ∈ (if b then [pixelSpan last p k] else []),
      r.len = 0 ∨ r.base + r.len ≤ 4 * last := by
    intro b p k r hr
    cases b
    · cases hr
    · exact one p k r hr
  induction n with
  | zero => exact fun held s => opt _ _ _
  | succ n ih =>
    intro held s r hr
    simp only [State.derivedLoop] at hr
    rcases List.mem_append.1 hr with hr | hr
    · exact opt _ _ _ r hr
    · rcases List.mem_append.1 hr with hr | hr
      · exact opt _ _ _ r hr
      · cases hp : s.placeLost held
        · rw [hp] at hr; exact ih _ _ r hr
        · rw [hp] at hr; exact one _ _ r hr

theorem derivedSpans_inside (s : State) (last : Nat) : ∀ r ∈ s.derivedSpans last,
    r.len = 0 ∨ r.base + r.len ≤ 4 * last := by
  unfold State.derivedSpans
  split
  · exact fun r hr => nomatch hr
  · exact derivedLoop_inside last _ _ _

/-! ### Where nothing, or one byte, is written -/

/-- Pairs with no written byte derive nothing. -/
theorem derivedLoop_skip (last : Nat) : ∀ (k m : Nat) (s : State), s.rdptr.toNat + 2 * k < 2^32 →
    (∀ o, s.rdptr.toNat ≤ o → o < s.rdptr.toNat + 2 * k → s.written o = false) →
    State.derivedLoop last (k + m) false s = State.derivedLoop last m false (State.pairLoop k s) := by
  intro k
  induction k with
  | zero => intro m s _ _; simp [State.pairLoop]
  | succ k ih =>
    intro m s hr hw
    rw [show k + 1 + m = (k + m) + 1 by omega]
    have w0 := hw s.rdptr.toNat (by omega) (by omega)
    have w1 := hw (s.rdptr.toNat + 1) (by omega) (by omega)
    simp only [State.derivedLoop, State.placeLost, State.wayWritten, w0, w1, State.pairLoop]
    simp
    refine ih m _ ?_ ?_
    · rw [pairStep_rdptr_toNat _ (by omega)]; omega
    · intro o h1 h2
      rw [pairStep_rdptr_toNat _ (by omega)] at h1 h2
      have := hw o (by omega) (by omega)
      unfold State.written at this ⊢
      rw [State.pairStep_tampered,
          show (s.advance.pairStep s.fetchedColour s.fetchedLength).srcAddr
          = s.srcAddr from (DecoderOnly.pairStep s.advance _ _).same.2.2.2.1]
      exact this

/-- Without a written byte left, and no holder of a written colour, nothing more is derived. -/
theorem derivedLoop_quiet (last : Nat) : ∀ (m : Nat) (held : Bool) (s : State), s.rdptr.toNat + 2 * m < 2^32 →
    (∀ o, s.rdptr.toNat ≤ o → o < s.rdptr.toNat + 2 * m → s.written o = false) → (s.holdV && held) = false →
    State.derivedLoop last m held s = [] := by
  intro m
  induction m with
  | zero => intro held s _ _ h; simp [State.derivedLoop, h]
  | succ m ih =>
    intro held s hr hw h
    have w0 := hw s.rdptr.toNat (by omega) (by omega)
    have w1 := hw (s.rdptr.toNat + 1) (by omega) (by omega)
    simp only [State.derivedLoop, State.placeLost, State.wayWritten, w0, w1, Bool.or_false, h]
    simp
    refine ih false _ ?_ ?_ (by simp)
    · rw [pairStep_rdptr_toNat _ (by omega)]; omega
    · intro o h1 h2
      rw [pairStep_rdptr_toNat _ (by omega)] at h1 h2
      have := hw o (by omega) (by omega)
      unfold State.written at this ⊢
      rw [State.pairStep_tampered,
          show (s.advance.pairStep s.fetchedColour s.fetchedLength).srcAddr
          = s.srcAddr from (DecoderOnly.pairStep s.advance _ _).same.2.2.2.1]
      exact this

theorem pairLoop_rdptr (k) : ∀ s : State, s.rdptr.toNat + 2 * k < 2^32 →
    (State.pairLoop k s).rdptr.toNat = s.rdptr.toNat + 2 * k := by
  induction k with
  | zero => intro s _; rfl
  | succ k ih =>
    intro s h
    simp only [State.pairLoop]
    rw [ih _ (by rw [pairStep_rdptr_toNat _ (by omega)]; omega), pairStep_rdptr_toNat _ (by omega)]
    omega

theorem pairLoop_succ (k) : ∀ s,
    State.pairLoop (k+1) s
    = ((State.pairLoop k s).advance.pairStep (State.pairLoop k s).fetchedColour (State.pairLoop k s).fetchedLength) := by
  induction k with
  | zero => intro s; rfl
  | succ k ih => intro s; rw [State.pairLoop]; rw [ih]; rfl

theorem pairLoop_cursor_le (k) : ∀ s : State, s.cursor.toNat ≤ s.npix → (State.pairLoop k s).cursor.toNat ≤ s.npix := by
  induction k with
  | zero => intro s h; exact h
  | succ k ih =>
    intro s h
    have p1 : Lays s [] s.advance := .nil (.advance s) rfl rfl
    have ps := p1.trans (pairStep_lays s.advance s.fetchedColour s.fetchedLength)
    have := ih (s.advance.pairStep s.fetchedColour s.fetchedLength) (by
      rw [ps.cursor, ps.only.npix]
      unfold State.budget
      omega)
    rw [ps.only.npix] at this; exact this

/-- A pair whose colour byte is written and whose place is not lost. -/
theorem derivedLoop_colour {s : State} {last m : Nat} (hc : s.written s.rdptr.toNat = true)
    (hl : s.placeLost false = false) : State.derivedLoop last (m + 1) false s
      = pixelSpan last (s.cursor.toNat + s.heldLen) (s.sureLen false)
        :: State.derivedLoop last m true (s.advance.pairStep s.fetchedColour s.fetchedLength) := by
  simp [State.derivedLoop, hc, hl]
/-- A pair at which the place is lost, its colour byte not written. -/
theorem derivedLoop_length {s : State} {last m} (hc : s.written s.rdptr.toNat = false) (hl : s.placeLost false = true) :
    State.derivedLoop last (m+1) false s = [pixelSpan last (s.cursor.toNat + s.heldLen + s.sureLen false) last] := by
  simp [State.derivedLoop, hc, hl]

end Sys2Proof.Machine
end

