-- ==== Sys2Proof/Laws/PerInstr.lean ====
section
/-! SUPPORT. Families of statements about every instruction as syntax. -/

namespace Sys2Proof.Laws

/-- The instruction is one of the stream level (R75, R76). -/
def isPair : Instr → Bool
  | .run _ _ => true
  | .hold _ _ => true
  | .maxrun _ => true
  | .cont _ _ => true
  | .nop => false
  | .cclr => false
  | .lclr => false
  | .decode _ => false
  | .blend => false
  | .gray => false

namespace CodeWidth

/-- A pair has 16 bits (R70) and a command word 32 (R71), and the encoding's drawing fits them. -/
def Statement (i : Instr) : Prop :=
  (encode i).width = (if isPair i then 16 else 32) ∧ (encode i).bits < 2 ^ (encode i).width

theorem run (c n : Byte) : Statement (.run c n) := by
  refine ⟨rfl, ?_⟩; simp only [encode, Code.bits, Code.width]; omega

theorem hold (c n : Byte) : Statement (.hold c n) := by
  refine ⟨rfl, ?_⟩; simp only [encode, Code.bits, Code.width]; omega

theorem maxrun (c : Byte) : Statement (.maxrun c) := by
  refine ⟨rfl, ?_⟩; simp only [encode, Code.bits, Code.width]; omega

theorem cont (c n : Byte) : Statement (.cont c n) := by
  refine ⟨rfl, ?_⟩; simp only [encode, Code.bits, Code.width]; omega

theorem nop : Statement .nop := by unfold Statement; decide
theorem cclr : Statement .cclr := by unfold Statement; decide
theorem lclr : Statement .lclr := by unfold Statement; decide

theorem decode (p : Byte) : Statement (.decode p) :=
  ⟨rfl, BitVec.isLt _⟩

theorem blend : Statement .blend := by unfold Statement; decide
theorem gray : Statement .gray := by unfold Statement; decide

end CodeWidth

end Sys2Proof.Laws
end

