-- ==== Sys2Proof/Laws/Run.lean ====
section
/-! SUPPORT. What a step, and several, lead to: whose turn it is, and runs of an idle block. -/

namespace Sys2Proof.Machine

theorem coreRun_succ (M : Host.Core) {s t : M.State} (h : M.step s = .next t) (n : Nat) :
    M.run (n + 1) s = M.run n t := by
  rw [Host.Core.run, h]

/-- One more step of a run. -/
theorem run_succ {s t : State} (h : step s = .next t) (n : Nat) : Sys2Proof.core.run (n + 1) s = Sys2Proof.core.run n t :=
  coreRun_succ Sys2Proof.core h n

theorem step_idle {s : State} (hb : s.busy = false) (hi : s.inputs = []) : step s = .next s := by
  have ht : s.turn = .nobody := by simp [State.turn, hb, hi]
  unfold step stepTurn
  rw [ht]

theorem step_host {s : State} {e : HostEvent} {rest : List HostEvent} (hb : s.busy = false) (hi : s.inputs = e :: rest) :
    step s = hostAct e.act (s.withInputs rest) := by
  have ht : s.turn = .host e.act (s.withInputs rest) := by simp [State.turn, hb, hi]
  unfold step stepTurn
  rw [ht]

theorem step_engine {s : State} (hb : s.busy = true) (hi : s.inputs = []) : step s = engineStep s := by
  have ht : s.turn = .engine s := by simp [State.turn, hb, hi]
  unfold step stepTurn
  rw [ht]

theorem State.withInputs_self (s : State) : s.withInputs s.inputs = s := rfl

/-- Whose turn it can be, and from which state: only `inputs` differs. -/
theorem turn_cases (s : State) :
    (s.turn = .nobody ∧ s.busy = false ∧ s.inputs = [])
    ∨ (∃ l, s.turn = .engine (s.withInputs l) ∧ s.busy = true)
    ∨ ∃ act l, s.turn = .host act (s.withInputs l) := by
  unfold State.turn
  by_cases hb : s.busy = true
  · rw [if_pos hb]
    refine .inr ?_
    split
    · exact .inr ⟨_, _, rfl⟩
    · exact .inl ⟨_, rfl, hb⟩
    · exact .inl ⟨s.inputs, rfl, hb⟩
  · rw [if_neg hb]
    split
    · exact .inr (.inr ⟨_, _, rfl⟩)
    · exact .inl ⟨rfl, by simpa using hb, by assumption⟩

/-- A step is the idle step, a micro-step of the engine, or an action of the host. -/
theorem step_cases (s : State) :
    (step s = .next s ∧ s.busy = false ∧ s.inputs = [])
    ∨ (∃ l, step s = engineStep (s.withInputs l) ∧ s.busy = true)
    ∨ ∃ act l, step s = hostAct act (s.withInputs l) := by
  unfold step stepTurn
  rcases turn_cases s with ⟨h, hb, hi⟩ | ⟨l, h, hb⟩ | ⟨act, l, h⟩
  · exact .inl ⟨by rw [h], hb, hi⟩
  · exact .inr (.inl ⟨l, by rw [h], hb⟩)
  · exact .inr (.inr ⟨act, l, by rw [h]⟩)

/-- Nothing happens in an idle block without input. -/
theorem run_idle (n : Nat) : ∀ {s : State}, s.busy = false → s.inputs = [] → Sys2Proof.core.run n s = .next s := by
  induction n with
  | zero => intros; rfl
  | succ n ih => intro s hb hi; rw [run_succ (step_idle hb hi), ih hb hi]

end Sys2Proof.Machine
end

