-- ==== Sys2Proof/Laws/System.lean ====
section
/-! SUPPORT. Several instances over one CBUF: storing an instance and looking at it again, and which steps leave CBUF. -/

namespace Sys2Proof.Machine

/-- An instance that leaves CBUF as it is looks, stored and viewed again, as it was. -/
theorem System.view_detach {y : System} {t : State} (h1 : t.cbuf = y.cbuf) (h2 : t.cbufResets = y.cbufResets)
    (h3 : t.cfg.cbufSize = y.cbufSize) : y.view t.detach = t := by
  unfold System.view State.detach
  rw [← h1, ← h2, ← h3]

theorem System.view_cbufByte (y : System) (s t : State) (a : Nat) :
    (y.view s).byteAt .cbuf a = (y.view t).byteAt .cbuf a := rfl

/-- What storing instance `i` changes of the instances. -/
theorem System.put_engines (y : System) (i : Nat) (t : State) (j : Nat) :
    (y.put i t).engines[j]? = if j = i then y.engines[j]?.map (fun _ => t.detach) else y.engines[j]? := by
  show (y.engines.set i t.detach)[j]? = _
  rw [List.getElem?_set]
  by_cases h : i = j
  · subst h
    rw [if_pos rfl, if_pos rfl]
    by_cases hl : i < y.engines.length
    · rw [if_pos hl, List.getElem?_eq_getElem hl]; rfl
    · rw [if_neg hl, List.getElem?_eq_none (by omega)]; rfl
  · rw [if_neg h, if_neg (fun e => h e.symm)]

/-- A pending list of host actions that leaves CBUF alone says so of the next one too. -/
theorem cbufChange_of_leavesCbuf {s : State} (h : s.leavesCbuf = true) : s.cbufChange = none := by
  unfold State.leavesCbuf at h
  unfold State.cbufChange State.turn
  by_cases hb : s.busy = true
  · rw [if_pos hb]
    cases hi : s.inputs with
    | nil => rfl
    | cons e rest =>
      rw [hi] at h
      obtain ⟨tm, act⟩ := e
      have ha : act.cbufChange = none := by
        have := List.all_eq_true.1 h _ List.mem_cons_self
        simpa using this
      cases tm with
      | whenIdle => rfl
      | during k => cases k <;> first | exact ha | rfl
  · rw [if_neg hb]
    cases hi : s.inputs with
    | nil => rfl
    | cons e rest =>
      rw [hi] at h
      have ha : e.act.cbufChange = none := by
        have := List.all_eq_true.1 h _ List.mem_cons_self
        simpa using this
      exact ha

/-- Whose turn it is does not depend on CBUF: the host's next action is the same over the common one. -/
theorem System.turn_view (y : System) {s s' : State} {a : HostAct} (h : s.turn = .host a s') :
    (y.view s).turn = .host a (y.view s') := by
  have hv : (y.view s).busy = s.busy ∧ (y.view s).inputs = s.inputs := ⟨rfl, rfl⟩
  unfold State.turn at h ⊢
  rw [hv.1, hv.2]
  by_cases hb : s.busy = true
  · rw [if_pos hb] at h ⊢
    rcases hi : s.inputs with _ | ⟨⟨_ | k, act⟩, rest⟩
    · rw [hi] at h; cases h
    · rw [hi] at h; cases h
    · rw [hi] at h
      cases k with
      | zero => cases h; rfl
      | succ k => cases h
  · rw [if_neg hb] at h ⊢
    rcases hi : s.inputs with _ | ⟨e, rest⟩
    · rw [hi] at h; cases h
    · rw [hi] at h; cases h; rfl

/-- What a change of CBUF leaves in each instance: one that runs a DECODE counts it (R175). -/
theorem System.noteWritten_engines (y : System) (r : Span) (j : Nat) : (y.noteWritten r).engines[j]? =
    y.engines[j]?.map (fun s => if s.busy then { s with tampered := s.tampered ++ [r] } else s) := by
  show (y.engines.map _)[j]? = _
  rw [List.getElem?_map]; rfl

/-! ### Steps that leave CBUF as it is -/

/-- CBUF, the parameters and the host's pending actions are as they were. -/
def KeepsCbuf (s t : State) : Prop :=
  t.cbuf = s.cbuf ∧ t.cbufResets = s.cbufResets ∧ t.cfg = s.cfg ∧ t.inputs = s.inputs

theorem KeepsCbuf.of {s t : State} (h : DecoderOnly s t) : KeepsCbuf s t := by
  obtain ⟨d1, _, _, _, _, d6, _, _, _, _, d11, _, _, _, _, _, _, _, _, d20, _⟩ := h.same
  exact ⟨d6, d20, d1, d11⟩

/-- No instruction writes CBUF (R61). -/
theorem exec_keepsCbuf {i : Instr} {s t : State} (h : exec i s = .next t) : KeepsCbuf s t := by
  have hrun : ∀ (op3 : Bool) (c : Option Cause) (body : State → State), (∀ u : State, KeepsCbuf u (body u)) →
      KeepsCbuf s (s.runCommand op3 c body) := by
    intro op3 c body hb
    cases c with
    | none => exact hb s.beginCommand
    | some c => exact ⟨rfl, rfl, rfl, rfl⟩
  cases i with
  | run c n => cases h; exact .of (.trans (.flush s) rfl)
  | hold c n => cases h; exact .of (.trans (.flush s) rfl)
  | maxrun c => cases h; exact .of (.trans (.flush s) rfl)
  | cont c n => cases h; exact .of (.trans (.clearHolder s) rfl)
  | nop => cases h; exact ⟨rfl, rfl, rfl, rfl⟩
  | cclr => cases h; exact hrun _ _ _ fun u => ⟨rfl, rfl, rfl, rfl⟩
  | lclr => cases h; exact hrun _ _ _ fun u => ⟨rfl, rfl, rfl, rfl⟩
  | decode p =>
    cases h
    refine hrun _ _ _ fun u => ?_
    split
    · exact ⟨rfl, rfl, rfl, rfl⟩
    · unfold State.decodeBody
      have hd := KeepsCbuf.of (DecoderOnly.pairLoop (u.srcLen.toNat / 2) u.decodeInit)
      obtain ⟨_, _, _, _, _, f6, f7, _, _, _, _, f12, _, f14⟩ :=
        finishDecode_ends (State.pairLoop (u.srcLen.toNat / 2) u.decodeInit)
      obtain ⟨k1, k2, k3, k4⟩ := hd
      exact ⟨f12.trans k1, (congrArg (fun e => e.2.2) f14).trans k2, f6.trans k3, f7.trans k4⟩
  | blend => cases h; exact hrun _ _ _ fun u => ⟨rfl, rfl, rfl, rfl⟩
  | gray => cases h; exact hrun _ _ _ fun u => ⟨rfl, rfl, rfl, rfl⟩

theorem hostAct_keepsCbuf {act : HostAct} {s t : State} (ha : act.cbufChange = none) (h : hostAct act s = .next t) :
    KeepsCbuf s t := by
  have hw : ∀ w, writeCommand w s = .next t → KeepsCbuf s t := by
    intro w h
    unfold writeCommand at h
    split at h
    · cases h; exact ⟨rfl, rfl, rfl, rfl⟩
    · split at h
      · exact exec_keepsCbuf h
      · cases h; exact ⟨rfl, rfl, rfl, rfl⟩
  cases act with
  | writeReg i v =>
    change hostWriteReg i v s = _ at h
    unfold hostWriteReg at h
    split at h
    · exact hw _ h
    · cases h
      unfold State.writeReg State.unlessBusy
      split <;> (try split) <;> exact ⟨rfl, rfl, rfl, rfl⟩
  | readReg i => cases h; exact ⟨rfl, rfl, rfl, rfl⟩
  | writeMem sp a bs =>
    change hostWriteMem sp a bs s = _ at h
    unfold hostWriteMem at h
    split at h
    · cases h
      unfold State.hostWrite
      cases sp
      · cases ha
      all_goals split <;> exact ⟨rfl, rfl, rfl, rfl⟩
    · cases h
  | readMem sp a n =>
    change hostReadMem sp a n s = _ at h
    unfold hostReadMem at h
    split at h
    · cases h; exact ⟨rfl, rfl, rfl, rfl⟩
    · cases h
  | writeCmdUnlessFault w =>
    change (if _ then writeCommand w s else _) = _ at h
    split at h
    · exact hw _ h
    · cases h; exact ⟨rfl, rfl, rfl, rfl⟩
  | reset => cases ha

theorem engineStep_keepsCbuf {s t : State} (h : engineStep s = .next t) : KeepsCbuf s t := by
  unfold engineStep at h
  split at h
  · cases h
  · split at h
    · obtain ⟨h1, h2, h3, h4⟩ := exec_keepsCbuf h
      exact ⟨h1, h2, h3, h4⟩
    · cases h
      obtain ⟨_, _, _, _, _, f6, f7, _, _, _, _, f12, _, f14⟩ := finishDecode_ends s
      exact ⟨f12, congrArg (fun e => e.2.2) f14, f6, f7⟩

/-- A step of an instance whose pending host actions leave CBUF alone keeps it, and leaves such a state. -/
theorem step_keepsCbuf {s t : State} (hl : s.leavesCbuf = true) (h : step s = .next t) :
    t.cbuf = s.cbuf ∧ t.cbufResets = s.cbufResets ∧ t.cfg = s.cfg ∧ t.leavesCbuf = true := by
  have fin : ∀ l, (l.all (fun e : HostEvent => e.act.cbufChange.isNone) = true) → KeepsCbuf (s.withInputs l) t →
      t.cbuf = s.cbuf ∧ t.cbufResets = s.cbufResets ∧ t.cfg = s.cfg ∧ t.leavesCbuf = true := by
    intro l hq ⟨h1, h2, h3, h4⟩
    exact ⟨h1, h2, h3, by unfold State.leavesCbuf; rw [h4]; exact hq⟩
  unfold State.leavesCbuf at hl
  unfold step stepTurn State.turn at h
  by_cases hb : s.busy = true
  · simp only [if_pos hb] at h
    split at h
    · rename_i he; split at he <;> cases he
    · rename_i he
      split at he
      · cases he
      · rename_i hi; cases he; rw [hi] at hl; exact fin _ (by simpa using hl) (engineStep_keepsCbuf h)
      · cases he; exact fin s.inputs hl (engineStep_keepsCbuf h)
    · rename_i he
      split at he
      · rename_i hi; cases he; rw [hi] at hl; simp only [List.all_cons, Bool.and_eq_true] at hl
        exact fin _ hl.2 (hostAct_keepsCbuf (by simpa using hl.1) h)
      · cases he
      · cases he
  · simp only [if_neg hb] at h
    split at h
    · cases h; exact fin s.inputs hl ⟨rfl, rfl, rfl, rfl⟩
    · rename_i he; split at he <;> cases he
    · rename_i he
      split at he
      · rename_i hi; cases he; rw [hi] at hl; simp only [List.all_cons, Bool.and_eq_true] at hl
        exact fin _ hl.2 (hostAct_keepsCbuf (by simpa using hl.1) h)
      · cases he

/-- What such a step makes of the system. -/
theorem System.stepAt_of_leavesCbuf {y : System} {i : Nat} {s : State} (hi : y.engines[i]? = some s)
    (hl : s.leavesCbuf = true) : y.stepAt i = match step (y.view s) with | .next t => y.put i t | _ => y := by
  have hc : (y.view s).cbufChange = none := cbufChange_of_leavesCbuf (s := y.view s) hl
  unfold System.stepAt
  rw [hi]
  simp only [hc]
  cases step (y.view s) <;> rfl

end Sys2Proof.Machine
end

