-- ==== Sys2Proof/Tests/Slice0.lean ====
section
/-! SUPPORT. Tests of the model against numbers the spec gives, and a witness for the hypotheses of every statement.
The expected results are those of 95_test_vectors and of the examples in the rules; the vector is named at each test. -/

open Sys2Proof Sys2Proof.Machine

namespace Sys2Proof.Tests

/-! ### Builders -/

/-- A page of `w` by `h` over a cleared LBUF and a white CANVAS, its stream at address 0 of a CBUF of 64 bytes. -/
def page (w h : Nat) (stream : List Byte) : State :=
  { State.reset with
    cfg := { Config.default with cbufSize := 64 }
    pageW := BitVec.ofNat 16 w, pageH := BitVec.ofNat 16 h, srcLen := BitVec.ofNat 32 stream.length
    cbuf := Memory.write [] 0 stream
    lbuf := Memory.fillPixels [] 0 (w * h) ⟨0, 0, 0, 0⟩
    canvas := Memory.fillPixels [] 0 (w * h) ⟨255, 255, 255, 255⟩ }

/-- The same, DECODE stepped pair by pair. -/
def stepped (w h : Nat) (stream : List Byte) : State :=
  { page w h stream with cfg := { Config.default with cbufSize := 64, pairSteps := true } }

/-- A state in the middle of a DECODE, `k` bytes into its stream. -/
def midDecode (w h : Nat) (stream : List Byte) (k : Nat) : State :=
  { stepped w h stream with busy := true, rdptr := BitVec.ofNat 32 k }

/-- A holder `(0x61, h)` pending. -/
def holding (h : Byte) (s : State) : State := { s with holdV := true, holdC := 0x61, holdN := h }

/-- CURSOR, RDPTR, STATUS, HOLD and CAUSE as the host reads them. -/
def regs (s : State) : Word × Word × Word × Word × Word :=
  (s.readReg 7, s.readReg 6, s.readReg 1, s.readReg 8, s.readReg 9)

/-- The registers after one instruction. -/
def after (i : Instr) (s : State) : Option (Word × Word × Word × Word × Word) := (nextState (exec i s)).map regs

/-- The first `n` pixels of a space after one instruction. -/
def pixelsAfter (i : Instr) (s : State) (sp : Space) (n : Nat) : Option (List Pixel) :=
  (nextState (exec i s)).map (fun t => (List.range n).map (fun p => t.pixelAt sp p))

/-- One host action from a state. -/
def doing (act : HostAct) (s : State) : Option (Word × Word × Word × Word × Word) :=
  (nextState (step { s with inputs := [polite act] })).map regs

/-- Two instances over a CBUF of 64 bytes: the first idle, its host about to act, the second as given. -/
def twoEngines (act : HostAct) (second : State) : System :=
  { cbuf := Memory.write [] 0 [0x61, 0], cbufSize := 64, cbufResets := 0
    engines := [{ page 4 2 [0x61, 0] with inputs := [polite act] }, { second with ident := 1 }] }

def black : Pixel := ⟨0, 0, 0, 255⟩
def clear : Pixel := ⟨0, 0, 0, 0⟩
def white : Pixel := ⟨255, 255, 255, 255⟩

/-! ### WellFormed: one ill-formed term for each check -/

theorem test_wf_run_high_bit : (Instr.run 0x61 0x80).wf = false := by decide
theorem test_wf_hold_low : (Instr.hold 0x61 0x7F).wf = false := by decide
theorem test_wf_hold_ff : (Instr.hold 0x61 0xFF).wf = false := by decide
theorem test_selected_cont_other_colour : (Instr.cont 0x61 0).selectedBy (some 0x62) = false := by decide
theorem test_selected_run_same_colour : (Instr.run 0x61 0).selectedBy (some 0x61) = false := by decide

/-! ### Decode: words written from R70, R75, R79 and 95 section 2.1 -/

theorem test_decode_run : decodeTableWord 16 0b0000001001100001 = some (.run 0x61 0x02) := by decide
theorem test_decode_run_longest : decodeTableWord 16 0x7F61 = some (.run 0x61 0x7F) := by decide
theorem test_decode_hold : decodeTableWord 16 0b1000000001100001 = some (.hold 0x61 0x80) := by decide
theorem test_decode_hold_top : decodeTableWord 16 0xFE61 = some (.hold 0x61 0xFE) := by decide
theorem test_decode_maxrun : decodeTableWord 16 0b1111111100000000 = some (.maxrun 0x00) := by decide
theorem test_decode_cont : decodePair (some 0x61) 0x61 0xFF = .cont 0x61 0xFF := by decide
theorem test_decode_nop : decodeTableWord 32 0 = some .nop := by decide
theorem test_decode_cclr : decodeTableWord 32 0b00000000000000000000000000000001 = some .cclr := by decide
theorem test_decode_lclr : decodeTableWord 32 0b00000000000000000000000000000010 = some .lclr := by decide
theorem test_decode_decode : decodeTableWord 32 0b00000000000000000000000100000011 = some (.decode 0x01) := by decide
theorem test_decode_blend : decodeTableWord 32 0b00000000000000000000000000000100 = some .blend := by decide
theorem test_decode_gray : decodeTableWord 32 0b00000000000000000000000000000101 = some .gray := by decide
/-- F6, F7: the words that are no command. -/
theorem test_decode_illegal : [0x13, 0x104, 0x6, 0xF, 0x10000].map (decodeTableWord 32) = [none, none, none, none, none] := by
  decide
/-- The text form of P2's stream. -/
theorem test_disassemble_p2 : disassemble none [0x61, 0x80, 0x61, 0x01, 0x10, 0x80, 0x61, 0x05, 0x61, 0x81] =
    [.hold 0x61 0x80, .cont 0x61 0x01, .hold 0x10 0x80, .run 0x61 0x05, .hold 0x61 0x81] := by decide
/-- A CONT line must follow a HOLD of its colour (R82). -/
theorem test_assemble_cont : assemble none [.run 0x61 1, .cont 0x61 0] = none
    ∧ assemble none [.hold 0x61 0x80, .cont 0x61 0] = some [0x61, 0x80, 0x61, 0x00] := by decide

/-! ### Operands (95 section 2.1, 2.3 to 2.5) -/

theorem test_lengths : [lenRun 0x7F, lenMax, lenExt 0x83, lenExt 0xFE, lenCont 0x80 0x01, lenCont 0x80 0xFF,
    lenCont 0xFE 0x7F, lenCont 0xFE 0xFF] = [128, 16384, 512, 16256, 130, 384, 16384, 16512] := by decide
/-- T1, T3, T4, T6, T10. -/
theorem test_tail : [lenTail 0x80 512, lenTail 0x84 512, lenTail 0xFE 512, lenTail 0x85 5, lenTail 0xFE 126]
    = [128, 320, 508, 0, 0] := by decide
/-- B9, B15, B17, B19. -/
theorem test_over : overPixel ⟨200, 100, 50, 254⟩ white = ⟨200, 101, 51, 255⟩
    ∧ overPixel ⟨0, 0, 0, 128⟩ ⟨255, 255, 255, 0⟩ = ⟨0, 0, 0, 128⟩
    ∧ overPixel ⟨100, 150, 200, 128⟩ ⟨50, 60, 70, 128⟩ = ⟨83, 120, 157, 192⟩
    ∧ overPixel ⟨1, 1, 1, 2⟩ ⟨255, 255, 255, 2⟩ = ⟨128, 128, 128, 4⟩ := by decide
/-- G4, G16, G18, G20. -/
theorem test_luma : [luma 0 255 0, luma 10 20 30, luma 0 0 250, luma 0 36 12] = [150, 18, 29, 23] := by decide

/-! ### Pairs -/

/-- S1's pair on a page of 4 by 2. -/
theorem test_run : after (.run 0x61 0x00) (page 4 2 []) = some (1, 0, 0x000, 0, 0)
    ∧ pixelsAfter (.run 0x61 0x00) (page 4 2 []) .lbuf 2 = some [black, clear] := by decide
/-- S6: FLUSH 128, then RUN 1; here clipped by a page of one pixel. -/
theorem test_run_flushes : after (.run 0x62 0x00) (holding 0x80 (page 1 1 [])) = some (1, 0, 0x010, 0x00008061, 0)
    ∧ pixelsAfter (.run 0x62 0x00) (holding 0x80 (page 1 1 [])) .lbuf 1 = some [black] := by decide
/-- S10's first pair. -/
theorem test_hold : after (.hold 0x61 0xFE) (page 4 2 []) = some (0, 0, 0x100, 0x0001FE61, 0) := by decide
/-- S9's second pair: FLUSH, then the new holder. -/
theorem test_hold_flushes : after (.hold 0x62 0x80) (holding 0x80 (page 2 1 [])) = some (2, 0, 0x110, 0x00018062, 0) := by
  decide
/-- MAXRUN clipped at the end of the page (R97, R101). -/
theorem test_maxrun : after (.maxrun 0x61) (page 2 2 []) = some (4, 0, 0x010, 0, 0)
    ∧ pixelsAfter (.maxrun 0x61) (page 2 2 []) .lbuf 4 = some [black, black, black, black] := by decide
/-- S4's second pair: 129 pixels, the holder cleared. The page is too small to hold them. -/
theorem test_cont : after (.cont 0x61 0x00) (holding 0x80 (page 2 1 [])) = some (2, 0, 0x010, 0x00008061, 0) := by decide
/-- The same pair with no page: nothing written, CLIP set. -/
theorem test_cont_no_room : after (.cont 0x61 0x00) (holding 0x80 (page 0 7 [])) = some (0, 0, 0x010, 0x00008061, 0) := by
  decide

/-! ### Commands -/

/-- F2, and F11: FAULT is cleared, CAUSE kept. -/
theorem test_nop : after .nop State.reset = some (0, 0, 0x002, 0, 0)
    ∧ after .nop { State.reset with fault := true, done := true, causeCode := 3, warnCnt := 3 } = some (0, 0, 0x002, 0, 0x303) := by
  decide
/-- The example of R121, and the pixel after it; F12. -/
theorem test_cclr : pixelsAfter .cclr { page 3 1 [] with canvas := Memory.fillPixels [] 0 3 clear, pageW := 2 } .canvas 3
      = some [white, white, clear]
    ∧ after .cclr { page 2 1 [] with causeCode := 3, warnCnt := 3 } = some (0, 0, 0x002, 0, 0x003) := by decide
/-- F8, F9: DIM. -/
theorem test_cclr_dim : after .cclr { State.reset with pageW := 1921, pageH := 2560 } = some (0, 0, 0x006, 0, 0x002) := by
  decide
/-- The example of R122, and the pixel after it. -/
theorem test_lclr : pixelsAfter .lclr { page 2 1 [] with lbuf := Memory.fillPixels [] 0 2 white, pageW := 1 } .lbuf 2
    = some [clear, white] := by decide
/-- S3. -/
theorem test_decode : after (.decode 0) (page 4 2 [0x00, 0x03, 0x61, 0x00]) = some (5, 4, 0x042, 0, 0)
    ∧ pixelsAfter (.decode 0) (page 4 2 [0x00, 0x03, 0x61, 0x00]) .lbuf 6 = some [clear, clear, clear, clear, black, clear] := by
  decide
/-- S12, S13, S14, T6. -/
theorem test_decode_corners :
    [after (.decode 0) (page 2 2 [0x61, 0x05, 0x61, 0x80, 0x00, 0x00]), after (.decode 0) (page 0 7 [0x61, 0x05, 0x61, 0x80]),
     after (.decode 0) (page 4 2 [0x61, 0x01, 0x61]), after (.decode 0) (page 4 2 [0x61, 0x02, 0x61, 0x85])]
    = [some (4, 6, 0x012, 0x00008061, 0), some (0, 4, 0x092, 0x00008061, 0), some (2, 2, 0x062, 0, 0),
       some (3, 4, 0x0C2, 0x00008561, 0)] := by decide
/-- F5, F10, F15, F17. -/
theorem test_decode_faults :
    [after (.decode 0) { page 4 2 [] with srcAddr := 60, srcLen := 6 }, after (.decode 1) (page 4 2 []),
     after (.decode 0) { page 4 2 [] with srcAddr := 0xFFFFFFFF, srcLen := 0xFFFFFFFF },
     after (.decode 0) { page 4 2 [] with srcAddr := 65, warnCnt := 255 }]
    = [some (0, 0, 0x006, 0, 0x104), some (0, 0, 0x006, 0, 0x103), some (0, 0, 0x006, 0, 0x104),
       some (0, 0, 0x006, 0, 0xFF04)] := by decide
/-- P4, before and after: its first three pixels and one with alpha 0. -/
theorem test_blend : pixelsAfter .blend { page 2 2 [] with
      lbuf := Memory.write [] 0 [0, 0, 0, 0x80, 0xFF, 0, 0, 0x80, 0xC8, 0x64, 0x32, 0xFE, 1, 2, 3, 0] } .canvas 4
    = some [⟨127, 127, 127, 255⟩, ⟨255, 127, 127, 255⟩, ⟨200, 101, 51, 255⟩, white] := by decide
/-- P4's GRAY, and the alpha of R131's example. -/
theorem test_gray : pixelsAfter .gray { page 3 1 [] with
      canvas := Memory.write [] 0 [255, 127, 127, 255, 200, 101, 51, 255, 255, 0, 0, 7] } .canvas 3
    = some [⟨165, 165, 165, 255⟩, ⟨125, 125, 125, 255⟩, ⟨76, 76, 76, 7⟩] := by decide

/-! ### Steps -/

/-- F6: OP 3 with a must-be-zero bit: ILLCMD, not counted. -/
theorem test_step_illegal : doing (.writeReg 0 0x13) { State.reset with warnCnt := 1 } = some (0, 0, 0x006, 0, 0x101) := by decide
/-- R176: BUSYERR is sticky and cleared by bit 3. -/
theorem test_step_busyerr : nextState (hostAct (.writeReg 2 5) (midDecode 4 2 [0x61, 0] 0))
      = some { midDecode 4 2 [0x61, 0] 0 with busyErr := true }
    ∧ nextState (hostAct (.writeReg 1 8) { State.reset with busyErr := true }) = some State.reset := by decide
/-- P2's second pair as one micro-step: CONT, the mode selected by the holder. The page is cut to 2 by 1. -/
theorem test_step_pair : (nextState (step (holding 0x80 (midDecode 2 1 [0x61, 0x80, 0x61, 0x01] 2)))).map regs
    = some (2, 4, 0x011, 0x00008061, 0) := by decide
/-- T7: the end of a stepped DECODE runs TAIL. -/
theorem test_step_end : (nextState (step (holding 0x80 (midDecode 1 1 [0x61, 0x80] 2)))).map regs
    = some (1, 2, 0x082, 0x00008061, 0) := by decide
/-- A word placed by `withFetchWord` runs in the next step. -/
theorem test_step_placed_command : (nextState (step (State.reset.withFetchWord 32 0x00000003))).map regs
    = some (0, 0, 0x002, 0, 0) := by decide
theorem test_step_placed_pair : (nextState (step (State.reset.withFetchWord 16 0x8061))).map regs
    = some (0, 2, 0x101, 0x00018061, 0) := by decide
/-- R175 with R97, R99: which pixels are derived, in bytes of LBUF. Of 61 00 61 00, from the first colour byte only pixel 0,
from the first length code all; of 61 00 61 from the lone last byte nothing; of 61 80 65 00 from the second length code
only what follows the FLUSH. The pages are cut to 2 by 1, 2 by 1 and 130 by 1. -/
theorem test_derived :
    ([⟨0, 1⟩, ⟨1, 1⟩].map (fun w => ({ midDecode 2 1 [0x61, 0, 0x61, 0] 4 with tampered := [w] } : State).derivedSpans 2))
      = [[⟨0, 4⟩], [⟨0, 8⟩]]
    ∧ ({ midDecode 2 1 [0x61, 0, 0x61] 2 with tampered := [⟨2, 9⟩] } : State).derivedSpans 1 = []
    ∧ ({ midDecode 130 1 [0x61, 0x80, 0x65, 0] 4 with tampered := [⟨3, 1⟩] } : State).derivedSpans 129 = [⟨512, 4⟩] := by
  decide
/-- R136: BLEND is written only if the STATUS read before it has FAULT 0. -/
theorem test_skip_on_fault : [0x006, 0x042].map (fun v => (nextState (hostAct (.writeCmdUnlessFault 0)
      { State.reset with responses := [.word v] })).map (·.done)) = [some false, some true] := by decide
/-- R6: the default system has one instance, and none is no system. -/
theorem test_system : System.reset.legal = true ∧ System.reset.nEngines = 1
    ∧ (System.powerOn 0 Config.default).legal = false ∧ (System.powerOn 3 Config.default).legal = true := by decide
/-- R65: what the host writes through one idle instance the other reads. -/
theorem test_common_cbuf : (((twoEngines (.writeMem .cbuf 1 [5]) (page 4 2 [])).stepAt 0).engines.map
    (fun s => (((twoEngines (.writeMem .cbuf 1 [5]) (page 4 2 [])).stepAt 0).view s).byteAt .cbuf 1)) = [5, 5] := by decide
/-- F1: reset. -/
theorem test_reset : regs State.reset = (0, 0, 0, 0, 0) := by decide

/-! ### Witnesses: for each statement with hypotheses, data that meets them together. The names are the statements'. -/

/-- The state in which a holder of another colour pends. -/
def flushing : State := holding 0x80 (page 4 2 [])

theorem witness_DecodeOfEncode : ((Instr.run 0x61 0x7F).wf = true ∧ (Instr.run 0x61 0x7F).selectedBy (some 0x62) = true)
    ∧ ((Instr.hold 0x61 0xFE).wf = true ∧ (Instr.hold 0x61 0xFE).selectedBy none = true)
    ∧ ((Instr.cont 0x61 0xFF).wf = true ∧ (Instr.cont 0x61 0xFF).selectedBy (some 0x61) = true)
    ∧ ((Instr.decode 0xFF).wf = true ∧ (Instr.decode 0xFF).selectedBy none = true) := by decide

theorem witness_EncodeOfDecode : decode none (.pair 0x61 0xFF) = .ok (.maxrun 0x61)
    ∧ decode none (.command 0x0000FF03) = .ok (.decode 0xFF) := ⟨rfl, rfl⟩

theorem witness_IllegalWordsExactly : decodeCommand 0x00000006 = .error .reservedOp
    ∧ decodeCommand 0x00000013 = .error .mustBeZeroBitSet ∧ decodeCommand 0x00010000 = .error .mustBeZeroBitSet
    ∧ decodeCommand 0x00000104 = .error .protoOutsideDecode := ⟨rfl, rfl, rfl, rfl⟩

theorem witness_StreamOpcodeMap : (some 0x61#8 : Option Byte) ≠ some 0x62#8
    ∧ (0x61#8).toNat + 256 * (0xFF#8).toNat &&& 0xFF00 = 0xFF00
    ∧ ((0x61#8).toNat + 256 * (0xFE#8).toNat &&& 0x8000 = 0x8000 ∧ (0x61#8).toNat + 256 * (0xFE#8).toNat &&& 0xFF00 ≠ 0xFF00)
    ∧ (0x61#8).toNat + 256 * (0x7F#8).toNat &&& 0x8000 = 0 := by decide

theorem witness_PixelsExpansionExact : 16513 ≤ 2 * 16512
    ∧ pixelsPairs 0x61 2 16513 = [(0x61, 0xFE), (0x61, 0xFF), (0x61, 0x00)] := by decide

theorem witness_PaletteLookup : Palette.default.legal = true
    ∧ (⟨0x68#8, .markerGray, ⟨0xC9#8, 0xC9#8, 0xC9#8, 0xFF#8⟩⟩ : PaletteEntry) ∈ Palette.default
    ∧ (∀ e ∈ Palette.default, e.code ≠ 0x69) := by decide

theorem witness_RunLengthBounds : (0x7F#8).toNat ≤ 0x7F
    ∧ (0x80 ≤ (0x80#8).toNat ∧ (0x80#8).toNat ≤ 0xFE) ∧ (0x80 ≤ (0xFE#8).toNat ∧ (0xFE#8).toNat ≤ 0xFE) := by decide

theorem witness_TailTakesLargestShift : ((0x83#8 &&& 0x7F#8).toNat + 1) * 2 ^ 7 ≤ 512 ∧ lenTail 0x83 512 ≠ 0
    ∧ 3 < (0x83#8 &&& 0x7F#8).toNat + 1 := by decide

theorem witness_RunEmits : (page 4 2 []).holdV = false := rfl
theorem witness_MaxrunEmits : (page 4 2 []).holdV = false := rfl
theorem witness_HoldStashes : (page 4 2 []).holdV = false := rfl
theorem witness_ContEmits : flushing.holdV = true ∧ flushing.holdC = 0x61 := ⟨rfl, rfl⟩
theorem witness_FlushThenNormalRule : flushing.holdV = true ∧ flushing.holdC ≠ 0x62 := by decide

theorem witness_PairFrame : ∀ i ∈ [Instr.run 0x61 0, .maxrun 0x61, .hold 0x61 0x80, .cont 0x61 0],
    (nextState (exec i (page 4 2 []))).isSome = true := by decide

theorem witness_DecodeAsOneTransition : (page 4 2 [0x61, 0]).cfg.pairSteps = false
    ∧ (page 4 2 [0x61, 0]).npix ≤ (page 4 2 [0x61, 0]).cfg.maxPix
    ∧ (page 4 2 [0x61, 0]).srcAddr.toNat + (page 4 2 [0x61, 0]).srcLen.toNat ≤ (page 4 2 [0x61, 0]).cfg.cbufSize := by decide

theorem witness_SteppedDecodeStarts : (stepped 4 2 [0x61, 0]).cfg.pairSteps = true
    ∧ (stepped 4 2 [0x61, 0]).npix ≤ (stepped 4 2 [0x61, 0]).cfg.maxPix
    ∧ (stepped 4 2 [0x61, 0]).srcAddr.toNat + (stepped 4 2 [0x61, 0]).srcLen.toNat ≤ (stepped 4 2 [0x61, 0]).cfg.cbufSize := by
  decide

theorem witness_SteppedDecodeRefines : ∃ s u : State, s.cfg.pairSteps = true ∧ s.npix ≤ s.cfg.maxPix
    ∧ s.srcAddr.toNat + s.srcLen.toNat ≤ s.cfg.cbufSize ∧ s.inputs = [] ∧ exec (.decode 0) s = .next u :=
  ⟨stepped 4 2 [0x61, 0], _, rfl, by decide, by decide, rfl, rfl⟩

theorem witness_DecodeForgetsThePast : ∃ s1 s2 t1 t2 : State, s1 ≠ s2 ∧ s1.cfg = s2.cfg ∧ s1.cfg.pairSteps = false
    ∧ s1.pageW = s2.pageW ∧ s1.pageH = s2.pageH ∧ s1.srcAddr = s2.srcAddr ∧ s1.srcLen = s2.srcLen ∧ s1.decodeCheck 0 = none
    ∧ (∀ a, s1.byteAt .cbuf a = s2.byteAt .cbuf a) ∧ exec (.decode 0) s1 = .next t1 ∧ exec (.decode 0) s2 = .next t2 :=
  ⟨page 4 2 [0x61, 0], holding 0x80 { page 4 2 [0x61, 0] with cursor := 7, lbuf := [] }, _, _, by decide, rfl, rfl, rfl, rfl,
    rfl, rfl, by decide, fun _ => rfl, rfl, rfl⟩

theorem witness_DecodePrefix : (runsOf none [(0x61#8, 0x80#8), (0x61#8, 0x00#8)]).2 = none := by decide

theorem witness_PageTooLargeFaults : ({ State.reset with pageW := 0xFFFF, pageH := 0xFFFF } : State).cfg.maxPix
      < ({ State.reset with pageW := 0xFFFF, pageH := 0xFFFF } : State).npix := by decide

theorem witness_DecodeFaults : (page 4 2 []).npix ≤ (page 4 2 []).cfg.maxPix ∧ (0x01#8 ≠ 0)
    ∧ ({ page 4 2 [] with srcAddr := 65 } : State).cfg.cbufSize
      < ({ page 4 2 [] with srcAddr := 65 } : State).srcAddr.toNat + ({ page 4 2 [] with srcAddr := 65 } : State).srcLen.toNat := by
  decide

theorem witness_IllegalCommandFaults :
    ({ State.reset with inputs := [⟨.whenIdle, .writeReg 0 0x13⟩] } : State).busy = false
    ∧ ({ State.reset with inputs := [⟨.whenIdle, .writeReg 0 0x13⟩] } : State).inputs = ⟨.whenIdle, .writeReg 0 0x13⟩ :: []
    ∧ decodeCommand 0x13 = .error .mustBeZeroBitSet := ⟨rfl, rfl, rfl⟩

theorem witness_CclrWhitensCanvas : (page 4 2 []).npix ≤ (page 4 2 []).cfg.maxPix
    ∧ ({ State.reset with pageW := 1921, pageH := 2560 } : State).cfg.maxPix
      < ({ State.reset with pageW := 1921, pageH := 2560 } : State).npix := by decide
theorem witness_LclrZeroesLbuf : ({ State.reset with pageW := 1920, pageH := 2560 } : State).npix
      ≤ ({ State.reset with pageW := 1920, pageH := 2560 } : State).cfg.maxPix
    ∧ ({ State.reset with pageW := 1921, pageH := 2560 } : State).cfg.maxPix
      < ({ State.reset with pageW := 1921, pageH := 2560 } : State).npix := by decide

theorem witness_BlendPaintsOver : (page 1 1 []).npix ≤ (page 1 1 []).cfg.maxPix ∧ 0 < (page 1 1 []).npix
    ∧ ((page 1 1 []).pixelAt .lbuf 0).a = 0
    ∧ (({ page 1 1 [] with lbuf := Memory.fillPixels [] 0 1 black } : State).pixelAt .lbuf 0).a ≠ 0 := by decide

theorem witness_GrayTakesLuma : (page 2 1 []).npix ≤ (page 2 1 []).cfg.maxPix ∧ 1 < (page 2 1 []).npix := by decide

theorem witness_OverRoundsExactQuotient : (⟨9, 8, 7, 0⟩ : Pixel).a = 0 ∧ (⟨9, 8, 7, 255⟩ : Pixel).a = 255
    ∧ (⟨9, 8, 7, 1⟩ : Pixel).a ≠ 0 ∧ (⟨9, 8, 7, 255⟩ : Pixel).a ≠ 0 := by decide

theorem witness_OverKeepsOpaqueAndGray : white.a = 255 ∧ (⟨9, 9, 9, 1⟩ : Pixel).r = (⟨9, 9, 9, 1⟩ : Pixel).g
    ∧ (⟨9, 9, 9, 1⟩ : Pixel).r = (⟨9, 9, 9, 1⟩ : Pixel).b ∧ white.r = white.g ∧ white.r = white.b := by decide

theorem witness_GrayIsIdempotent : ∃ s t u : State, s.npix ≤ s.cfg.maxPix ∧ exec .gray s = .next t ∧ exec .gray t = .next u :=
  ⟨page 2 1 [], _, _, by decide, rfl, rfl⟩

theorem witness_StepRunsHostAction :
    (({ page 4 2 [] with inputs := [⟨.during 3, .writeReg 0 3⟩] } : State).busy = false
      ∧ ({ page 4 2 [] with inputs := [⟨.during 3, .writeReg 0 3⟩] } : State).inputs = ⟨.during 3, .writeReg 0 3⟩ :: []
      ∧ decodeCommand 3 = .ok (.decode 0))
    ∧ ∀ tm ∈ [Timing.during 0, .during 1, .whenIdle],
      ({ midDecode 4 2 [] 0 with inputs := [⟨tm, .readReg 7⟩] } : State).busy = true
      ∧ ({ midDecode 4 2 [] 0 with inputs := [⟨tm, .readReg 7⟩] } : State).inputs = ⟨tm, .readReg 7⟩ :: [] :=
  ⟨⟨rfl, rfl, rfl⟩, fun _ _ => ⟨rfl, rfl⟩⟩

theorem witness_StepRunsFetchedPair : (midDecode 4 2 [0x61, 0, 0x61, 1] 2).busy = true
    ∧ (midDecode 4 2 [0x61, 0, 0x61, 1] 2).inputs = []
    ∧ (midDecode 4 2 [0x61, 0, 0x61, 1] 2).npix ≤ (midDecode 4 2 [0x61, 0, 0x61, 1] 2).cfg.maxPix
    ∧ (midDecode 4 2 [0x61, 0, 0x61, 1] 2).srcAddr.toNat + (midDecode 4 2 [0x61, 0, 0x61, 1] 2).srcLen.toNat
      ≤ (midDecode 4 2 [0x61, 0, 0x61, 1] 2).cfg.cbufSize
    ∧ (midDecode 4 2 [0x61, 0, 0x61, 1] 2).rdptr.toNat + 2 ≤ (midDecode 4 2 [0x61, 0, 0x61, 1] 2).srcLen.toNat := by decide

theorem witness_PlacedWordRunsNext : decodeTableWord 16 0xFF61 = some (.maxrun 0x61)
    ∧ decodeTableWord 32 5 = some .gray := by decide

theorem witness_StepEndsDecode : (midDecode 4 2 [0x61, 0, 0x61] 2).busy = true ∧ (midDecode 4 2 [0x61, 0, 0x61] 2).inputs = []
    ∧ (midDecode 4 2 [0x61, 0, 0x61] 2).npix ≤ (midDecode 4 2 [0x61, 0, 0x61] 2).cfg.maxPix
    ∧ (midDecode 4 2 [0x61, 0, 0x61] 2).srcAddr.toNat + (midDecode 4 2 [0x61, 0, 0x61] 2).srcLen.toNat
      ≤ (midDecode 4 2 [0x61, 0, 0x61] 2).cfg.cbufSize
    ∧ (midDecode 4 2 [0x61, 0, 0x61] 2).srcLen.toNat < (midDecode 4 2 [0x61, 0, 0x61] 2).rdptr.toNat + 2
    ∧ (midDecode 4 2 [0x61, 0, 0x61] 2).poison = [] ∧ (midDecode 4 2 [0x61, 0, 0x61] 2).tampered = [] := by decide

theorem witness_IdleKeepsState : State.reset.busy = false ∧ State.reset.inputs = [] := ⟨rfl, rfl⟩
theorem witness_BusyWritesDropped : (midDecode 4 2 [] 0).busy = true := rfl
theorem witness_RegisterWindow : (page 4 2 []).busy = false ∧ 6 ≤ 6 ∧ 10 ≤ 10 := by decide

/-- Up to the last byte of CBUF, and one byte too far. -/
theorem witness_HostMemoryBetweenCommands : (page 4 2 []).busy = false
    ∧ 63 + ([1#8] : List Byte).length ≤ spaceSize (page 4 2 []).cfg .cbuf
    ∧ 63 + 1 ≤ spaceSize (page 4 2 []).cfg .cbuf
    ∧ spaceSize (page 4 2 []).cfg .cbuf < 64 + ([1#8] : List Byte).length := by decide

theorem witness_HostWriteWhileBusyPoisons :
    (midDecode 4 2 [0x61, 0] 0).busy = true
    ∧ (∃ t, hostAct (.writeMem .cbuf 1 [0]) (midDecode 4 2 [0x61, 0] 0) = .next t ∧ t.tampered = [⟨1, 1⟩])
    ∧ (∃ t, hostAct (.writeMem .lbuf 31 [0]) (midDecode 4 2 [0x61, 0] 0) = .next t ∧ t.poison = [⟨31, 1⟩])
    ∧ (1 ≤ 1 ∧ 1 < 1 + ([0#8] : List Byte).length) :=
  ⟨rfl, ⟨_, rfl, by decide⟩, ⟨_, rfl, by decide⟩, by decide⟩

/-- A stepped DECODE with a byte of LBUF and one of the stream written meanwhile. -/
def meddled (stream : List Byte) (k : Nat) : State :=
  { midDecode 2 1 stream k with poison := [⟨4, 4⟩], tampered := [⟨0, 1⟩], cursor := 1 }

theorem witness_BusyStepKeepsPoison : (meddled [0x61, 0, 0x61, 0] 2).busy = true
    ∧ (nextState (step (meddled [0x61, 0, 0x61, 0] 2))).map (fun t => (t.busy, t.poison, t.tampered))
      = some (true, (meddled [0x61, 0, 0x61, 0] 2).poison, [⟨0, 1⟩]) := by decide

theorem witness_DecodeEndFreesPoisoned :
    (meddled [0x61, 0] 2).turn = .engine (meddled [0x61, 0] 2) ∧ (meddled [0x61, 0] 2).fits = true
    ∧ (meddled [0x61, 0] 2).pairLeft = false ∧ (meddled [0x61, 0] 2).derivedSpans 1 = [⟨0, 4⟩]
    ∧ (meddled [0x61, 0] 2).decodeTail.cursor = 1 := by decide

/-- 61 00 61 00 and 68 00 61 00, byte 0 written; pixel 1 is emitted and not derived. -/
theorem witness_DerivedBytesCoverDependence : ∃ s1 s2 t1 t2 : State, s1.cfg = s2.cfg ∧ s1.cfg.pairSteps = false
    ∧ s1.pageW = s2.pageW ∧ s1.pageH = s2.pageH ∧ s1.srcAddr = s2.srcAddr ∧ s1.srcLen = s2.srcLen ∧ s1.decodeCheck 0 = none
    ∧ (∀ a, (∀ r ∈ [(⟨0, 1⟩ : Span)], ¬(r.base ≤ a ∧ a < r.base + r.len)) → s1.byteAt .cbuf a = s2.byteAt .cbuf a)
    ∧ exec (.decode 0) s1 = .next t1 ∧ exec (.decode 0) s2 = .next t2 ∧ 4 < 4 * t1.cursor.toNat
    ∧ ∀ r ∈ ({ s1 with tampered := [⟨0, 1⟩] } : State).derivedSpans t1.cursor.toNat, ¬(r.base ≤ 4 ∧ 4 < r.base + r.len) := by
  refine ⟨page 2 1 [0x61, 0, 0x61, 0], page 2 1 [0x68, 0, 0x61, 0], _, _, rfl, rfl, rfl, rfl, rfl, rfl, by decide, ?_, rfl, rfl,
    by decide, by decide⟩
  intro a h
  match a with
  | 0 => exact absurd (by decide) (h ⟨0, 1⟩ List.mem_cons_self)
  | 1 => rfl
  | 2 => rfl
  | 3 => rfl
  | _ + 4 => rfl

/-- What the clauses for one byte ask for at pair `k`: a RUN, a MAXRUN and a HOLD with no holder pending, the HOLD as the last
pair and before a RUN, a HOLD and a MAXRUN; a RUN, a HOLD and a MAXRUN of another colour and a CONT while a holder pends. -/
theorem witness_DerivedBytesCoverDependence_one :
    (∀ q ∈ [([0x61#8, 0x7F], 0, false, 0x7F, 128), ([0x61, 0xFF], 0, false, 0xFF, 130), ([0x61, 0x80], 0, false, 0x80, 0),
        ([0x61, 0xFE], 0, false, 0xFE, 0), ([0x61, 0x80, 0x65, 0x7F], 1, true, 0x7F, 130),
        ([0x61, 0x80, 0x65, 0x80], 1, true, 0x80, 128), ([0x61, 0x80, 0x65, 0xFF], 1, true, 0xFF, 130)],
      2 * q.2.1 + 1 < (page 130 1 q.1).srcLen.toNat
      ∧ (State.pairLoop q.2.1 (page 130 1 q.1).decodeInit).holdV = q.2.2.1
      ∧ (State.pairLoop q.2.1 (page 130 1 q.1).decodeInit).fetchedLength.toNat = q.2.2.2.1
      ∧ (State.pairLoop (q.2.1 + 1) (page 130 1 q.1).decodeInit).cursor.toNat = q.2.2.2.2
      ∧ q.2.2.2.2 ≤ 130 ∧ 130 ≤ (page 130 1 q.1).npix)
    ∧ (page 130 1 [0x61, 0x80]).srcLen.toNat < 2 * 0 + 4 ∧ 2 * 0 + 4 ≤ (page 130 1 [0x61, 0x80, 0x65, 0x7F]).srcLen.toNat
    ∧ ([0x7F#8, 0x80, 0xFE, 0xFF].map (fun n =>
        (State.pairLoop 1 (page 130 1 [0x61, 0x80, 0x65, n]).decodeInit).fetchedLength.toNat) = [0x7F, 0x80, 0xFE, 0xFF])
    ∧ ([0x61#8, 0x65].map (fun c => decide ((State.pairLoop 1 (page 130 1 [0x61, 0x80, c, 0]).decodeInit).fetchedColour
        = (State.pairLoop 1 (page 130 1 [0x61, 0x80, c, 0]).decodeInit).holdC)) = [true, false])
    ∧ (∀ o < 2 * ((page 2 1 [0x61, 0, 0x61]).srcLen.toNat / 2),
        ¬(2 ≤ (page 2 1 [0x61, 0, 0x61]).srcAddr.toNat + o ∧ (page 2 1 [0x61, 0, 0x61]).srcAddr.toNat + o < 2 + 1)) := by
  decide

theorem witness_HostReadWhileBusyUnspecified : (midDecode 4 2 [] 0).busy = true
    ∧ 28 + 8 ≤ spaceSize (midDecode 4 2 [] 0).cfg .lbuf ∧ 31 < 4 * (midDecode 4 2 [] 0).npix
    ∧ 4 * (midDecode 4 2 [] 0).npix ≤ 32 ∧ 63 + 1 ≤ spaceSize (midDecode 4 2 [] 0).cfg .cbuf := by decide

theorem witness_CommonCbufIsOne :
    (∀ second ∈ [page 4 2 [0x61, 0], midDecode 4 2 [0x61, 0] 0],
      ∃ s, (twoEngines (.writeMem .cbuf 62 [1, 2]) second).engines[0]? = some s ∧ s.busy = false
        ∧ s.inputs = ⟨.whenIdle, .writeMem .cbuf 62 [1, 2]⟩ :: [])
    ∧ 62 + ([1#8, 2#8] : List Byte).length ≤ (twoEngines .reset (page 4 2 [])).cbufSize
    ∧ (twoEngines .reset (page 4 2 [])).othersBusy 0 = false ∧ (twoEngines .reset (midDecode 4 2 [] 0)).othersBusy 0 = true
    ∧ ((twoEngines .reset (page 4 2 [])).loadCbuf 62 [1, 2]).isSome = true := by
  refine ⟨?_, by decide⟩
  intro second _
  exact ⟨_, rfl, rfl, rfl⟩

theorem witness_ResetOfOneInstance :
    ∃ s s', (twoEngines .reset (midDecode 4 2 [0x61, 0] 0)).engines[0]? = some s ∧ s.turn = .host .reset s' :=
  ⟨_, _, rfl, rfl⟩

/-- An idle state and one in the middle of a DECODE. -/
theorem witness_StepKeepsInvariant :
    (∃ t, State.reset.Inv ∧ step State.reset = .next t)
    ∧ (∃ t, (midDecode 0 7 [] 0).Inv ∧ step (midDecode 0 7 [] 0) = .next t) := by
  refine ⟨⟨_, ⟨?_, ?_, ?_, ?_, ?_, ?_, ?_, ?_, ?_, ?_⟩, rfl⟩, ⟨_, ⟨?_, ?_, ?_, ?_, ?_, ?_, ?_, ?_, ?_, ?_⟩, rfl⟩⟩
  all_goals first
    | (intro sp; cases sp <;> decide)
    | decide

theorem witness_StepKeepsParameters : ∃ t, step (page 4 2 []) = .next t := ⟨_, rfl⟩

theorem witness_WhoWritesWhat : ∀ i ∈ [Instr.run 0x61 0, .hold 0x61 0x80, .maxrun 0x61, .cont 0x61 0, .nop, .cclr, .lclr,
    .decode 0, .blend, .gray], (nextState (exec i (page 1 1 []))).isSome = true := by decide

theorem witness_TransactionLevelNeverBusy : ∃ t, (page 4 2 []).cfg.pairSteps = false ∧ (page 4 2 []).busy = false
    ∧ (page 4 2 []).busyErr = false ∧ step (page 4 2 []) = .next t := ⟨_, rfl, rfl, rfl, rfl⟩

theorem witness_EveryCommandEnds :
    ({ stepped 4 2 [0x61, 0] with inputs := [⟨.whenIdle, .writeReg 0 3⟩] } : State).busy = false
    ∧ ({ stepped 4 2 [0x61, 0] with inputs := [⟨.whenIdle, .writeReg 0 3⟩] } : State).inputs = [⟨.whenIdle, .writeReg 0 3⟩] :=
  ⟨rfl, rfl⟩

theorem witness_EnginesDoNotInterfere :
    (∀ e ∈ (twoEngines (.writeReg 0 3) (midDecode 4 2 [0x61, 0] 0)).engines, e.leavesCbuf = true)
    ∧ ((twoEngines (.writeReg 0 3) (midDecode 4 2 [0x61, 0] 0)).engines[1]?).isSome = true := by decide

/-- P3's layers, one without a bitmap and one of another protocol. -/
def layersOfP3 : List Layer := [⟨some (0x40, 4), 0⟩, ⟨some (0x30, 2), 1⟩, ⟨none, 0⟩, ⟨some (0x20, 4), 0⟩]

theorem witness_PageSequenceResult :
    ({ page 4 2 [] with inputs := renderPage 8 layersOfP3 } : State).busy = false
    ∧ ({ page 4 2 [] with inputs := renderPage 8 layersOfP3 } : State).cfg.pairSteps = false
    ∧ ({ page 4 2 [] with inputs := renderPage 8 layersOfP3 } : State).npix
      ≤ ({ page 4 2 [] with inputs := renderPage 8 layersOfP3 } : State).cfg.maxPix
    ∧ ({ page 4 2 [] with inputs := renderPage 8 layersOfP3 } : State).inputs = renderPage 8 layersOfP3
    ∧ paintOrder layersOfP3 = [(0x20, 4, 0), (0x30, 2, 1), (0x40, 4, 0)] := by decide

end Sys2Proof.Tests
end

section
/-! PROOF. The two granularities of R5: a DECODE stepped pair by pair ends where the DECODE of one transition ends. The
engine's micro-steps are the rounds of `pairLoop`, then `finishDecode`; and no part of the body reads the granularity. -/

namespace Sys2Proof.Machine

/-! ### A pair's instruction is the pair step of R99 -/

/-- FLUSH then the normal rule, after the decoding mode is settled (R75, R104). -/
theorem exec_decodeNormal (s : State) (c n : Byte) : exec (decodeNormal c n) s = .next (s.flush.normalRule c n) := by
  unfold decodeNormal State.normalRule
  split
  · rfl
  · split <;> rfl

/-- The instruction that the holder's mode selects does what the pair step of R99 does. -/
theorem exec_decodePair (s : State) (c n : Byte) :
    exec (decodePair s.pending c n) s = .next (s.pairStep c n) := by
  unfold decodePair State.pending State.pairStep
  by_cases hv : s.holdV = true
  · by_cases hc : c = s.holdC
    · rw [if_pos hv, if_pos hv, if_pos hc, if_pos (congrArg some hc.symm)]; rfl
    · have hmode : some s.holdC ≠ some c := fun h => hc (Option.some.inj h).symm
      rw [if_pos hv, if_pos hv, if_neg hc, if_neg hmode, exec_decodeNormal, State.flush, if_pos hv]
  · rw [if_neg hv, if_neg hv, if_neg nofun, exec_decodeNormal, State.flush, if_neg hv]

/-! ### The engine's micro-steps -/

/-- A DECODE is running inside its spaces and no host action is pending: the engine moves. -/
structure EngineMoves (s : State) : Prop where
  busy : s.busy = true
  inputs : s.inputs = []
  fits : s.fits = true

theorem EngineMoves.of_decoderOnly {s t : State} (h : EngineMoves s) (d : DecoderOnly s t) : EngineMoves t := by
  rw [d]; exact ⟨h.busy, h.inputs, h.fits⟩

/-- While a whole pair is left, a micro-step is one round of the loop (R125). -/
theorem EngineMoves.step_pair {s : State} (h : EngineMoves s) (hleft : s.rdptr.toNat + 2 ≤ s.srcLen.toNat) :
    step s = .next (s.advance.pairStep s.fetchedColour s.fetchedLength) := by
  have hpair : s.pairLeft = true := decide_eq_true hleft
  rw [step_engine h.busy h.inputs, engineStep, h.fits, if_neg (by decide), if_pos hpair]
  exact exec_decodePair s.advance _ _

/-- With no whole pair left, a micro-step is the end of the DECODE (R126). -/
theorem EngineMoves.step_end {s : State} (h : EngineMoves s) (hleft : s.srcLen.toNat < s.rdptr.toNat + 2) :
    step s = .next s.finishDecode := by
  have hpair : ¬ s.pairLeft = true := by rw [State.pairLeft, decide_eq_true_iff]; omega
  rw [step_engine h.busy h.inputs, engineStep, h.fits, if_neg (by decide), if_neg hpair]

/-- As many micro-steps as pairs are left are that many rounds of the loop; `m` more follow. -/
theorem EngineMoves.run_pairs (k m : Nat) : ∀ {s : State}, EngineMoves s → s.rdptr.toNat + 2 * k ≤ s.srcLen.toNat →
    Sys2Proof.core.run (k + m) s = Sys2Proof.core.run m (State.pairLoop k s) := by
  induction k with
  | zero => intro s _ _; rw [Nat.zero_add]; rfl
  | succ k ih =>
    intro s h hleft
    have hlen := s.srcLen.isLt
    have hround : DecoderOnly s (s.advance.pairStep s.fetchedColour s.fetchedLength) := .trans (.advance s) (.pairStep _ _ _)
    obtain ⟨-, -, -, -, hsrcLen, -⟩ := hround.same
    have hrdptr := pairStep_rdptr_toNat s
    rw [Nat.succ_add, run_succ (h.step_pair (by omega)), State.pairLoop]
    exact ih (h.of_decoderOnly hround) (by rw [hsrcLen]; omega)

/-- From the start of its stream a DECODE needs one micro-step a pair, and one for its end. -/
theorem EngineMoves.run_whole {s : State} (h : EngineMoves s) (h0 : s.rdptr = 0) :
    Sys2Proof.core.run (s.srcLen.toNat / 2 + 1) s
      = .next (State.pairLoop (s.srcLen.toNat / 2) s).finishDecode := by
  have hstart : s.rdptr.toNat = 0 := by rw [h0]; rfl
  have hlen := s.srcLen.isLt
  have hloop := DecoderOnly.pairLoop (s.srcLen.toNat / 2) s
  obtain ⟨-, -, -, -, hsrcLen, -⟩ := hloop.same
  have hrdptr := pairLoop_rdptr (s.srcLen.toNat / 2) s (by omega)
  have hend := congrArg BitVec.toNat hsrcLen
  rw [h.run_pairs _ 1 (by omega), run_succ ((h.of_decoderOnly hloop).step_end (by omega))]
  rfl

/-! ### The granularity is read by no part of the body -/

/-- The same state at the granularity of one transition a DECODE (R5, log 3). -/
def State.atOnce (s : State) : State := { s with cfg := { s.cfg with pairSteps := false } }

@[simp] theorem State.atOnce_holdV (s : State) : s.atOnce.holdV = s.holdV := rfl
@[simp] theorem State.atOnce_holdC (s : State) : s.atOnce.holdC = s.holdC := rfl

theorem State.atOnce_normalRule (s : State) (c n : Byte) : (s.normalRule c n).atOnce = s.atOnce.normalRule c n := by
  unfold State.normalRule
  split
  · rfl
  · split <;> rfl

theorem State.atOnce_pairStep (s : State) (c n : Byte) : (s.pairStep c n).atOnce = s.atOnce.pairStep c n := by
  unfold State.pairStep
  rw [State.atOnce_holdV, State.atOnce_holdC]
  split
  · split
    · rfl
    · exact State.atOnce_normalRule _ c n
  · exact State.atOnce_normalRule s c n

theorem State.atOnce_pairLoop (k : Nat) : ∀ s : State, (State.pairLoop k s).atOnce = State.pairLoop k s.atOnce := by
  induction k with
  | zero => intro s; rfl
  | succ k ih => intro s; rw [State.pairLoop, ih, State.atOnce_pairStep]; rfl

theorem State.atOnce_tail (s : State) : s.tail.atOnce = s.atOnce.tail := by
  unfold State.tail
  rw [State.atOnce_holdV]
  split <;> rfl

theorem State.atOnce_decodeTail (s : State) : s.decodeTail.atOnce = s.atOnce.decodeTail :=
  congrArg (fun t : State => { t with under := t.under || underOf t.cursor.toNat t.npix })
    (State.atOnce_tail { s with odd := s.odd || oddOf s.srcLen.toNat })

/-- The end of a DECODE whose LBUF and stream the host left alone has nothing to leave unspecified (R175). -/
theorem finishDecode_untouched {s : State} (hp : s.poison = []) (ht : s.tampered = []) :
    s.finishDecode = s.decodeTail.endCommand := by
  have d := DecoderOnly.decodeTail s
  refine applyPoison_of_nil ?_ ?_ <;> rw [d] <;> assumption

theorem State.atOnce_finishDecode {s : State} (hp : s.poison = []) (ht : s.tampered = []) :
    s.finishDecode.atOnce = s.atOnce.finishDecode := by
  rw [finishDecode_untouched hp ht, finishDecode_untouched (s := s.atOnce) hp ht, ← State.atOnce_decodeTail]
  rfl

/-- The body of DECODE at the granularity of one transition (R124 to R126), from the loop at either granularity. -/
theorem State.decodeBody_atOnce (s : State) :
    s.atOnce.decodeBody = (State.pairLoop (s.srcLen.toNat / 2) s.decodeInit).finishDecode.atOnce := by
  have d := DecoderOnly.pairLoop (s.srcLen.toNat / 2) s.decodeInit
  rw [State.atOnce_finishDecode (by rw [d]; rfl) (by rw [d]; rfl), State.atOnce_pairLoop]
  rfl

/-! ### The refinement -/

/-- Settles O20: the micro-steps run the rounds of the loop and the end of the body, which do not read the granularity. -/
theorem steppedDecodeRefines : Obligations.SteppedDecodeRefines := by
  unfold Obligations.SteppedDecodeRefines
  intro s u hpairs hpage hstream hinputs hstart
  have hcheck : s.decodeCheck 0 = none := decodeCheck_none_iff.mpr ⟨hpage, rfl, hstream⟩
  have hexec : exec (.decode 0) s = .next s.beginCommand.decodeInit := by
    show execDecode 0 s = _
    rw [execDecode_of_checks hcheck, if_pos hpairs]
  obtain rfl : s.beginCommand.decodeInit = u := Host.Outcome.next.inj (hexec.symm.trans hstart)
  have hmoves : EngineMoves s.beginCommand.decodeInit := ⟨rfl, hinputs, fits_iff.mpr ⟨hpage, hstream⟩⟩
  refine ⟨_, hmoves.run_whole rfl, ?_⟩
  have honce : execDecode 0 s.atOnce = .next s.atOnce.beginCommand.decodeBody := execDecode_of_checks hcheck
  exact honce.trans (congrArg _ s.beginCommand.decodeBody_atOnce)

end Sys2Proof.Machine
end

section
/-! PROOF. The invariant of the machine: reset meets it, every step keeps it. Once and for all: what the command frame ends
in and what a host action leads to; then each operation keeps its part of the invariant. -/

namespace Sys2Proof.Machine

/-! ### What a command frame and a host action lead to -/

/-- A command frame (R135) ends in fault entry, if a check failed, or in its body. -/
theorem runCommand_induction {P : State → Prop} {s : State} {op3 : Bool} {failed : Option Cause} {body : State → State}
    (hfault : ∀ cause, P (s.beginCommand.raise op3 cause)) (hbody : failed = none → P (body s.beginCommand)) :
    P (s.runCommand op3 failed body) := by
  cases failed with
  | none => exact hbody rfl
  | some cause => exact hfault cause

theorem pageCheck_eq_none {s : State} (h : s.pageCheck = none) : s.npix ≤ s.cfg.maxPix := by
  unfold State.pageCheck at h
  split at h
  · cases h
  · omega

/-- What an action of the host leads to, if the machine does not stop (R20 to R23, R66, R135, R170, R175, R176). -/
inductive HostMove (s : State) : State → Prop where
  /-- With BUSY 0 a word that decodes to an instruction runs it. -/
  | command {w : Word} {i : Instr} {t : State} (idle : s.busy = false) (decodes : decodeCommand w = .ok i)
      (runs : exec i s = .next t) : HostMove s t
  /-- With BUSY 0 a word that is no command faults with ILLCMD. -/
  | illegal (op3 : Bool) (idle : s.busy = false) : HostMove s (s.beginCommand.raise op3 .illcmd)
  /-- While BUSY a write to CMD or to a configuration register is dropped and sets BUSYERR. -/
  | dropped (busy : s.busy = true) : HostMove s { s with busyErr := true }
  /-- A write to STATUS clears BUSYERR or leaves it. -/
  | status (keep : Bool) : HostMove s { s with busyErr := s.busyErr && keep }
  /-- With BUSY 0 configuration registers change. -/
  | configured (idle : s.busy = false) (w h : BitVec 16) (a l : Word) :
      HostMove s { s with pageW := w, pageH := h, srcAddr := a, srcLen := l }
  /-- A read returns something, maybe drawing free bytes; an ignored write changes nothing. -/
  | read (rs : List Response) (n : Nat) : HostMove s { s with responses := rs, drawn := n }
  /-- A write to memory, inside its space. -/
  | wrote (sp : Space) (a : Nat) (bs : List Byte) (inside : a + bs.length ≤ spaceSize s.cfg sp) :
      HostMove s (s.hostWrite sp a bs)
  /-- Reset. -/
  | reset : HostMove s s.afterReset

theorem writeCommand_moves {w : Word} {s t : State} (h : writeCommand w s = .next t) : HostMove s t := by
  unfold writeCommand at h
  by_cases hb : s.busy = true
  · rw [if_pos hb] at h; cases h; exact .dropped hb
  · rw [if_neg hb] at h
    have hidle : s.busy = false := by simpa using hb
    cases hd : decodeCommand w with
    | ok i => rw [hd] at h; exact .command hidle hd h
    | error e => rw [hd] at h; cases h; exact .illegal _ hidle

/-- A write of a configuration register (R23, R176). -/
theorem unlessBusy_moves (s : State) (w h : BitVec 16) (a l : Word) :
    HostMove s (s.unlessBusy { s with pageW := w, pageH := h, srcAddr := a, srcLen := l }) := by
  unfold State.unlessBusy
  by_cases hb : s.busy = true
  · rw [if_pos hb]; exact .dropped hb
  · rw [if_neg hb]; exact .configured (by simpa using hb) w h a l

theorem writeReg_moves (s : State) (i : Nat) (v : Word) : HostMove s (s.writeReg i v) := by
  match i with
  | 0 => exact .read s.responses s.drawn
  | 1 => exact .status _
  | 2 => exact unlessBusy_moves s _ s.pageH s.srcAddr s.srcLen
  | 3 => exact unlessBusy_moves s s.pageW _ s.srcAddr s.srcLen
  | 4 => exact unlessBusy_moves s s.pageW s.pageH _ s.srcLen
  | 5 => exact unlessBusy_moves s s.pageW s.pageH s.srcAddr _
  | _ + 6 => exact .read s.responses s.drawn

/-- Every action of the host that answers a next state makes one of these moves. -/
theorem hostAct_moves {act : HostAct} {s t : State} (h : hostAct act s = .next t) : HostMove s t := by
  cases act with
  | writeReg i v =>
    change hostWriteReg i v s = _ at h
    unfold hostWriteReg at h
    split at h
    · exact writeCommand_moves h
    · cases h; exact writeReg_moves s i v
  | readReg i => cases h; exact .read _ s.drawn
  | writeMem sp a bs =>
    change hostWriteMem sp a bs s = _ at h
    unfold hostWriteMem at h
    split at h
    · cases h; exact .wrote sp a bs ‹_›
    · cases h
  | readMem sp a n =>
    change hostReadMem sp a n s = _ at h
    unfold hostReadMem at h
    split at h
    · cases h; exact .read _ _
    · cases h
  | writeCmdUnlessFault w =>
    change (if s.readNoFault then writeCommand w s else .next s) = _ at h
    split at h
    · exact writeCommand_moves h
    · cases h; exact .read s.responses s.drawn
  | reset => cases h; exact .reset

/-! ### Memories inside their spaces -/

/-- A memory in canonical form, all its bytes below `b`. -/
def Memory.Within (b : Nat) (m : Memory) : Prop := m.wf ∧ ∀ c ∈ m, c.1 < b

/-- A write that is empty or ends at or before the bound. -/
theorem Memory.Within.write {b : Nat} {m : Memory} (h : m.Within b) {a : Nat} {bs : List Byte}
    (hin : bs.length = 0 ∨ a + bs.length ≤ b) : (m.write a bs).Within b := by
  refine ⟨Memory.wf_write h.1 a bs, fun c hc => ?_⟩
  rcases Memory.mem_write hc with hc | hc
  · exact h.2 c hc
  · omega

theorem Memory.Within.fillPixels {b : Nat} {m : Memory} (h : m.Within b) {p k : Nat} (px : Pixel)
    (hin : 4 * (p + k) ≤ b) : (m.fillPixels p k px).Within b :=
  h.write (.inr (by rw [length_pixelRun]; omega))

/-- The first `k` pixels, as CCLR and LCLR write them. -/
theorem Memory.Within.fillFirst {b : Nat} {m : Memory} (h : m.Within b) {k : Nat} (px : Pixel) (hin : 4 * k ≤ b) :
    (m.fillPixels 0 k px).Within b :=
  h.fillPixels px (by omega)

theorem Memory.Within.writePixels {b : Nat} {m : Memory} (h : m.Within b) {n : Nat} (f : Nat → Option Pixel)
    (hin : 4 * n ≤ b) : (m.writePixels n f).Within b :=
  ⟨Memory.wf_writePixels h.1 n f, Memory.inside_writePixels hin h.2⟩

theorem State.length_freshBytes (s : State) (n : Nat) : (s.freshBytes n).length = n := by
  simp [State.freshBytes]

/-- Scrambling ranges that lie inside LBUF, or are empty, keeps LBUF inside its space. -/
theorem within_scrambles {b : Nat} (rs : List Span) : ∀ s : State, s.lbuf.Within b →
    (∀ r ∈ rs, r.len = 0 ∨ r.base + r.len ≤ b) → (rs.foldl (fun t r => t.scramble .lbuf r) s).lbuf.Within b := by
  induction rs with
  | nil => exact fun s h _ => h
  | cons r rs ih =>
    intro s h hin
    refine ih (s.scramble .lbuf r) (h.write ?_) fun q hq => hin q (List.mem_cons_of_mem _ hq)
    rw [s.length_freshBytes]
    exact hin r List.mem_cons_self

/-! ### The invariant while a DECODE's body runs -/

/-- The invariant inside the body of a DECODE, at either granularity. -/
structure Decoding (s : State) : Prop where
  cbuf : s.cbuf.Within s.cfg.cbufSize
  lbuf : s.lbuf.Within (4 * s.cfg.maxPix)
  canvas : s.canvas.Within (4 * s.cfg.maxPix)
  status : s.busy = true ∧ s.done = false ∧ s.fault = false
  fits : s.fits = true
  holdRange : s.holdV = true → 0x80 ≤ s.holdN.toNat ∧ s.holdN.toNat ≤ 0xFE
  rdptrEven : s.rdptr.toNat % 2 = 0
  rdptrLe : s.rdptr.toNat ≤ s.srcLen.toNat
  cursorLe : s.cursor.toNat ≤ s.npix
  causeKnown : s.causeCode.toNat ≤ 4
  poisonInside : ∀ r ∈ s.poison, r.base + r.len ≤ 4 * s.cfg.maxPix
  noBusyErr : s.cfg.pairSteps = false → s.busyErr = false

theorem Decoding.npix_le {s : State} (d : Decoding s) : s.npix ≤ s.cfg.maxPix := (fits_iff.mp d.fits).1

/-- While the engine steps pair by pair this is the invariant. -/
theorem Decoding.inv {s : State} (d : Decoding s) (hp : s.cfg.pairSteps = true) : s.Inv where
  memWf sp := by cases sp; exacts [d.cbuf.1, d.lbuf.1, d.canvas.1]
  memInside sp := by cases sp; exacts [d.cbuf.2, d.lbuf.2, d.canvas.2]
  holdRange := d.holdRange
  rdptrEven := d.rdptrEven
  causeKnown := d.causeKnown
  faultDone hf := absurd hf (by rw [d.status.2.2]; decide)
  idle hb := absurd hb (by rw [d.status.1]; decide)
  running _ := ⟨d.status.2.1, d.status.2.2, d.fits, d.rdptrLe, d.cursorLe, hp⟩
  poisonInside := d.poisonInside
  noBusyErr := d.noBusyErr

theorem State.Inv.within {s : State} (h : s.Inv) (sp : Space) : (s.mem sp).Within (spaceSize s.cfg sp) :=
  ⟨h.memWf sp, h.memInside sp⟩

theorem State.Inv.decoding {s : State} (h : s.Inv) (hb : s.busy = true) : Decoding s := by
  obtain ⟨hdone, hfault, hfits, hrdptr, hcursor, -⟩ := h.running hb
  exact ⟨h.within .cbuf, h.within .lbuf, h.within .canvas, ⟨hb, hdone, hfault⟩, hfits, h.holdRange, h.rdptrEven, hrdptr,
    hcursor, h.causeKnown, h.poisonInside, h.noBusyErr⟩

/-- The clipped count keeps the cursor and LBUF inside the page (R97). -/
theorem Decoding.emit {s : State} (d : Decoding s) (c : Byte) (k : Nat) : Decoding (s.emit c k) := by
  have hbudget : s.budget = s.npix - s.cursor.toNat := rfl
  have hcursor := d.cursorLe
  have hpage := d.npix_le
  refine { d with lbuf := d.lbuf.fillPixels _ (by omega), cursorLe := ?_ }
  rw [s.emit_cursor_toNat c k]
  show _ ≤ s.npix
  omega

theorem Decoding.clearHolder {s : State} (d : Decoding s) : Decoding s.clearHolder :=
  { d with holdRange := nofun }

theorem Decoding.stash {s : State} (d : Decoding s) (c : Byte) {n : Byte} (hn : 0x80 ≤ n.toNat ∧ n.toNat ≤ 0xFE) :
    Decoding (s.stash c n) :=
  { d with holdRange := fun _ => hn }

/-- The normal rule stashes only length codes 0x80 to 0xFE (R75, R99). -/
theorem Decoding.normalRule {s : State} (d : Decoding s) (c n : Byte) : Decoding (s.normalRule c n) := by
  unfold State.normalRule
  by_cases hff : n = 0xFF#8
  · rw [if_pos hff]; exact d.emit c _
  · rw [if_neg hff]
    by_cases hbit : n &&& 0x80#8 ≠ 0#8
    · rw [if_pos hbit]
      have hlow := (high_bit_iff n).mp hbit
      exact d.stash c ⟨hlow, by bv_omega⟩
    · rw [if_neg hbit]; exact d.emit c _

theorem Decoding.pairStep {s : State} (d : Decoding s) (c n : Byte) : Decoding (s.pairStep c n) := by
  unfold State.pairStep
  split
  · split
    · exact d.clearHolder.emit c _
    · exact (d.clearHolder.emit s.holdC _).normalRule c n
  · exact d.normalRule c n

/-- The fetch stays inside the stream and RDPTR even while a whole pair is left (R90, R125). -/
theorem Decoding.advance {s : State} (d : Decoding s) (hleft : s.rdptr.toNat + 2 ≤ s.srcLen.toNat) :
    Decoding s.advance := by
  have hlen := s.srcLen.isLt
  have hrdptr : s.advance.rdptr.toNat = s.rdptr.toNat + 2 := by rw [State.advance_rdptr]; bv_omega
  have heven := d.rdptrEven
  exact { d with rdptrEven := by omega, rdptrLe := by rw [hrdptr]; exact hleft }

theorem Decoding.pairLoop (k : Nat) : ∀ {s : State}, Decoding s → s.rdptr.toNat + 2 * k ≤ s.srcLen.toNat →
    Decoding (State.pairLoop k s) := by
  induction k with
  | zero => exact fun d _ => d
  | succ k ih =>
    intro s d hleft
    have hlen := s.srcLen.isLt
    obtain ⟨-, -, -, -, hsrcLen, -⟩ := (DecoderOnly.pairStep s.advance s.fetchedColour s.fetchedLength).same
    refine ih ((d.advance (by omega)).pairStep _ _) ?_
    rw [pairStep_rdptr_toNat s (by omega), hsrcLen, State.advance_srcLen]
    omega

theorem Decoding.tail {s : State} (d : Decoding s) : Decoding s.tail := by
  unfold State.tail
  split
  · have hflag : Decoding { s with tailf := true } := { d with fits := d.fits }
    exact (hflag.emit s.holdC _).clearHolder
  · exact d

theorem Decoding.decodeTail {s : State} (d : Decoding s) : Decoding s.decodeTail := by
  have hodd : Decoding { s with odd := s.odd || oddOf s.srcLen.toNat } := { d with fits := d.fits }
  exact { hodd.tail with fits := hodd.tail.fits }

/-! ### The end of a DECODE -/

/-- R175 leaves LBUF inside its space: what it makes unspecified was derived below the cursor, or written by the host. -/
theorem Decoding.finishDecode_lbuf {s : State} (d : Decoding s) :
    s.finishDecode.lbuf.Within (4 * s.cfg.maxPix) := by
  have ht := d.decodeTail
  obtain ⟨hcfg, -⟩ := (DecoderOnly.decodeTail s).same
  have hpage := ht.npix_le
  have hcursor := ht.cursorLe
  rw [← hcfg]
  refine within_scrambles _ _ ht.lbuf fun r hr => ?_
  rcases List.mem_append.1 hr with hr | hr
  · rcases derivedSpans_inside _ _ r hr with hempty | hbelow
    · exact .inl hempty
    · have hlast : s.decodeTail.endCommand.cursor.toNat = s.decodeTail.cursor.toNat := rfl
      exact .inr (by omega)
  · exact .inr (ht.poisonInside r hr)

/-- The end of a DECODE leaves the invariant, at either granularity. -/
theorem Decoding.finishDecode {s : State} (d : Decoding s) : s.finishDecode.Inv := by
  obtain ⟨hbusy, hdone, hhold, hpoison, htampered, hcfg, -, hbusyErr, -, hrdptr, hcause, hcbuf, hcanvas, -⟩ :=
    finishDecode_ends s
  have hmem : ∀ sp, (s.finishDecode.mem sp).Within (spaceSize s.finishDecode.cfg sp) := by
    intro sp
    rw [hcfg]
    cases sp with
    | cbuf => rw [State.mem_cbuf, hcbuf]; exact d.cbuf
    | lbuf => exact d.finishDecode_lbuf
    | canvas => rw [State.mem_canvas, hcanvas]; exact d.canvas
  exact
    { memWf := fun sp => (hmem sp).1
      memInside := fun sp => (hmem sp).2
      holdRange := fun h => absurd h (by rw [hhold]; decide)
      rdptrEven := by rw [hrdptr]; exact d.rdptrEven
      causeKnown := by rw [hcause]; exact d.causeKnown
      faultDone := fun _ => hdone
      idle := fun _ => ⟨hhold, hpoison, htampered⟩
      running := fun h => absurd h (by rw [hbusy]; decide)
      poisonInside := by rw [hpoison]; exact fun r hr => nomatch hr
      noBusyErr := by rw [hcfg, hbusyErr]; exact d.noBusyErr }

/-! ### Commands -/

theorem Cause.code_le (cause : Cause) : cause.code.toNat ≤ 4 := by cases cause <;> decide

/-- A DECODE whose checks passed starts inside its spaces (R124). -/
theorem State.Inv.decodeInit {s : State} (h : s.Inv) (hf : s.fits = true) : Decoding s.beginCommand.decodeInit where
  cbuf := h.within .cbuf
  lbuf := h.within .lbuf
  canvas := h.within .canvas
  status := ⟨rfl, rfl, rfl⟩
  fits := hf
  holdRange := nofun
  rdptrEven := rfl
  rdptrLe := Nat.zero_le _
  cursorLe := Nat.zero_le _
  causeKnown := h.causeKnown
  poisonInside := nofun
  noBusyErr := h.noBusyErr

section
variable {s : State} (h : s.Inv) (hb : s.busy = false)
include h hb

/-- Fault entry (R155). -/
theorem State.Inv.raise (op3 : Bool) (cause : Cause) : (s.beginCommand.raise op3 cause).Inv :=
  { h with
    causeKnown := cause.code_le
    faultDone := fun _ => rfl
    idle := fun _ => h.idle hb
    running := nofun }

/-- The end of a command that changed the pixel memories and WARNCNT at most. -/
theorem State.Inv.ended {l c : Memory} (hl : l.Within (4 * s.cfg.maxPix)) (hc : c.Within (4 * s.cfg.maxPix)) (n : Byte) :
    State.Inv { s with busy := false, done := true, fault := false, lbuf := l, canvas := c, warnCnt := n } :=
  { h with
    memWf := fun sp => by cases sp; exacts [h.memWf .cbuf, hl.1, hc.1]
    memInside := fun sp => by cases sp; exacts [h.memInside .cbuf, hl.2, hc.2]
    faultDone := nofun
    idle := fun _ => h.idle hb
    running := nofun }

/-- DECODE keeps the invariant, as one transition or as its first step (R123 to R126). -/
theorem State.Inv.execDecode {proto : Byte} {t : State} (he : execDecode proto s = .next t) : t.Inv := by
  cases he
  refine runCommand_induction (h.raise hb true) fun hcheck => ?_
  obtain ⟨hpage, -, hstream⟩ := decodeCheck_none_iff.mp hcheck
  have d := h.decodeInit (fits_iff.mpr ⟨hpage, hstream⟩)
  split
  case isTrue hsteps => exact d.inv hsteps
  case isFalse =>
    refine (d.pairLoop _ ?_).finishDecode
    show 0 + 2 * (s.srcLen.toNat / 2) ≤ s.srcLen.toNat
    omega

/-- Every command keeps the invariant. -/
theorem State.Inv.command {w : Word} {i : Instr} {t : State} (hw : decodeCommand w = .ok i) (he : exec i s = .next t) :
    t.Inv := by
  have hl := h.within .lbuf
  have hc := h.within .canvas
  have hpage (hp : s.pageCheck = none) : 4 * s.npix ≤ 4 * s.cfg.maxPix := Nat.mul_le_mul_left 4 (pageCheck_eq_none hp)
  have hraise := h.raise hb false
  rcases decodeCommand_is_command hw with rfl | rfl | rfl | ⟨p, rfl⟩ | rfl | rfl
  · cases he; exact h.ended hb hl hc s.warnCnt
  · cases he; exact runCommand_induction hraise fun hp => h.ended hb hl (hc.fillFirst _ (hpage hp)) 0
  · cases he; exact runCommand_induction hraise fun hp => h.ended hb (hl.fillFirst _ (hpage hp)) hc s.warnCnt
  · exact h.execDecode hb he
  · cases he; exact runCommand_induction hraise fun hp => h.ended hb hl (hc.writePixels _ (hpage hp)) s.warnCnt
  · cases he; exact runCommand_induction hraise fun hp => h.ended hb hl (hc.writePixels _ (hpage hp)) s.warnCnt

end

/-! ### The host's writes to memory -/

theorem State.Inv.setMem {s : State} (h : s.Inv) {sp : Space} {m : Memory} (hm : m.Within (spaceSize s.cfg sp)) :
    (s.setMem sp m).Inv := by
  have hmem : ∀ sp', ((s.setMem sp m).mem sp').Within (spaceSize s.cfg sp') := by
    intro sp'
    by_cases he : sp' = sp
    · subst he; rw [State.mem_setMem]; exact hm
    · rw [State.mem_setMem_ne s he]; exact h.within sp'
  cases sp <;> exact { h with memWf := fun sp => (hmem sp).1, memInside := fun sp => (hmem sp).2 }

/-- A host write inside a space keeps the invariant: with BUSY 0 it stores the bytes, while BUSY it scrambles them and
keeps a record (R66, R175). -/
theorem State.Inv.hostWrite {s : State} (h : s.Inv) {sp : Space} {a : Nat} {bs : List Byte}
    (hin : a + bs.length ≤ spaceSize s.cfg sp) : (s.hostWrite sp a bs).Inv := by
  unfold State.hostWrite
  by_cases hb : s.busy = true
  · rw [if_pos hb]
    have hset : (s.setMem sp ((s.mem sp).write a (s.freshBytes bs.length))).Inv :=
      h.setMem ((h.within sp).write (.inr (by rw [s.length_freshBytes]; exact hin)))
    have hbusy (hidle : s.busy = false) : False := absurd hb (by rw [hidle]; decide)
    cases sp with
    | cbuf => exact { hset with idle := fun hidle => (hbusy hidle).elim }
    | canvas => exact { hset with idle := hset.idle }
    | lbuf =>
      refine { hset with idle := fun hidle => (hbusy hidle).elim, poisonInside := fun r hr => ?_ }
      rcases List.mem_append.1 hr with hr | hr
      · exact h.poisonInside r hr
      · cases List.mem_singleton.1 hr; exact hin
  · rw [if_neg hb]; exact h.setMem ((h.within sp).write (.inr hin))

/-! ### Reset -/

/-- The power-on state meets the invariant, whatever the parameters (R37). -/
theorem State.powerOn_inv (cfg : Config) : (State.powerOn cfg).Inv where
  memWf sp := by cases sp <;> exact List.Pairwise.nil
  memInside sp := by cases sp <;> exact nofun
  holdRange := nofun
  rdptrEven := rfl
  causeKnown := Nat.zero_le 4
  faultDone := nofun
  idle _ := ⟨rfl, rfl, rfl⟩
  running := nofun
  poisonInside := nofun
  noBusyErr _ := rfl

theorem State.afterReset_inv (s : State) : s.afterReset.Inv :=
  { State.powerOn_inv s.cfg with idle := (State.powerOn_inv s.cfg).idle }

/-- Settles O46: the reset state is the power-on state of the default parameters. -/
theorem resetSatisfiesInvariant : Obligations.ResetSatisfiesInvariant := State.powerOn_inv Config.default

/-! ### Steps -/

/-- The invariant does not speak of the host's pending actions. -/
theorem State.Inv.withInputs {s : State} (h : s.Inv) (l : List HostEvent) : (s.withInputs l).Inv :=
  { h with idle := h.idle }

/-- Every action of the host keeps the invariant. -/
theorem HostMove.inv {s t : State} (m : HostMove s t) (h : s.Inv) : t.Inv := by
  cases m with
  | command idle decodes runs => exact h.command idle decodes runs
  | illegal op3 idle => exact h.raise idle op3 .illcmd
  | dropped busy =>
    obtain ⟨-, -, -, -, -, hsteps⟩ := h.running busy
    exact { h with noBusyErr := fun hp => absurd hsteps (by rw [hp]; decide) }
  | status keep => exact { h with noBusyErr := fun hp => by rw [h.noBusyErr hp]; rfl }
  | configured idle w ht a l => exact { h with running := fun hb => absurd hb (by rw [idle]; decide) }
  | read rs n => exact { h with idle := h.idle }
  | wrote sp a bs inside => exact h.hostWrite inside
  | reset => exact s.afterReset_inv

/-- Every micro-step of a running DECODE keeps the invariant (R125, R126). -/
theorem State.Inv.engineStep {s t : State} (h : s.Inv) (hb : s.busy = true) (he : engineStep s = .next t) : t.Inv := by
  have d := h.decoding hb
  obtain ⟨-, -, -, -, -, hsteps⟩ := h.running hb
  unfold Sys2Proof.Machine.engineStep at he
  rw [d.fits, if_neg (by decide)] at he
  by_cases hleft : s.pairLeft = true
  · rw [if_pos hleft, show exec s.fetchedInstr s.advance = _ from exec_decodePair s.advance _ _] at he
    cases he
    have hpair := (d.advance (of_decide_eq_true hleft)).pairStep s.fetchedColour s.fetchedLength
    obtain ⟨hcfg, -⟩ := (DecoderOnly.pairStep s.advance s.fetchedColour s.fetchedLength).same
    exact hpair.inv (by rw [hcfg]; exact hsteps)
  · rw [if_neg hleft] at he
    cases he
    exact d.finishDecode

/-- Settles O47: a step is idle, a micro-step of the engine, or a move of the host, and each keeps the invariant. -/
theorem stepKeepsInvariant : Obligations.StepKeepsInvariant := by
  unfold Obligations.StepKeepsInvariant
  intro s t h hstep
  rcases step_cases s with ⟨hidle, -, -⟩ | ⟨l, hengine, hb⟩ | ⟨act, l, hhost⟩
  · cases hidle.symm.trans hstep; exact h
  · exact (h.withInputs l).engineStep hb (hengine.symm.trans hstep)
  · exact (hostAct_moves (hhost.symm.trans hstep)).inv (h.withInputs l)

end Sys2Proof.Machine
end

section
/-! PROOF. The palette, the bits of the register window, who moves next, what reset leaves, and the frames of the
instructions and of a step. -/

namespace Sys2Proof.Machine

/-! ### The palette (R30 to R33) -/

theorem Palette.lookup_unrecognised {p : Palette} {c : Byte} (h : ∀ e ∈ p, e.code ≠ c) : p.lookup c = ⟨0, 0, 0, 0⟩ := by
  have hnone : p.find? (fun e => e.code == c) = none := List.find?_eq_none.mpr fun e he => by simpa using h e he
  rw [Palette.lookup, hnone]

/-- Each code stands once, so the entry found is the entry itself. -/
theorem Palette.lookup_of_mem {p : Palette} (hn : (p.map (·.code)).Nodup) {e : PaletteEntry} (he : e ∈ p) :
    p.lookup e.code = e.pixel := by
  cases hf : p.find? (fun f => f.code == e.code) with
  | none => exact absurd (List.find?_eq_none.mp hf e he) (by simp)
  | some f =>
    have hcode : f.code = e.code := by simpa using List.find?_some hf
    have hsame : f = e := List.inj_on_of_nodup_map hn (List.mem_of_find?_eq_some hf) he hcode
    rw [Palette.lookup, hf, hsame]

/-- What `Palette.legal` says of codes (R30) and of 0x61 (R31). -/
theorem Palette.legal_codes {p : Palette} (h : p.legal = true) :
    (p.map (·.code)).Nodup ∧ ∃ e ∈ p, e.code = 0x61#8 ∧ e.pixel = ⟨0, 0, 0, 255⟩ := by
  simp only [Palette.legal, Bool.and_eq_true, List.any_eq_true, decide_eq_true_eq, beq_iff_eq] at h
  obtain ⟨⟨⟨⟨⟨⟨hn, -⟩, -⟩, -⟩, -⟩, -⟩, e, he, ⟨hcode, -⟩, hpixel⟩ := h
  exact ⟨hn, e, he, hcode, hpixel⟩

/-- Settles O7: a legal palette lists each code once, and 0x61 with opaque black. -/
theorem paletteLookup : Obligations.PaletteLookup := by
  unfold Obligations.PaletteLookup
  refine ⟨fun p hp => ?_, by decide⟩
  obtain ⟨hn, e, he, hcode, hpixel⟩ := Palette.legal_codes hp
  refine ⟨?_, fun f hf => Palette.lookup_of_mem hn hf, fun c hc => Palette.lookup_unrecognised hc⟩
  show p.lookup 0x61#8 = _
  rw [← hcode, Palette.lookup_of_mem hn he, hpixel]

/-! ### The words of STATUS, HOLD and CAUSE -/

/-- STATUS as nine bits, BUSY the lowest (R22). -/
theorem State.statusWord_eq_bits (s : State) : s.statusWord = BitVec.ofNat 32
    (Nat.bit s.busy (Nat.bit s.done (Nat.bit s.fault (Nat.bit s.busyErr (Nat.bit s.clip (Nat.bit s.odd
      (Nat.bit s.under (Nat.bit s.tailf (Nat.bit s.holdV 0))))))))) := by
  unfold State.statusWord
  congr 1
  simp only [Nat.bit_val]
  omega

theorem State.statusWord_lt (s : State) : s.statusWord.toNat < 2 ^ 9 := by
  have := s.busy.toNat_le; have := s.done.toNat_le; have := s.fault.toNat_le
  have := s.busyErr.toNat_le; have := s.clip.toNat_le; have := s.odd.toNat_le
  have := s.under.toNat_le; have := s.tailf.toNat_le; have := s.holdV.toNat_le
  rw [State.statusWord, BitVec.toNat_ofNat]
  omega

theorem State.holdWord_toNat (s : State) :
    s.holdWord.toNat = s.holdC.toNat + 256 * s.holdN.toNat + 65536 * s.holdV.toNat := by
  have := s.holdV.toNat_le
  rw [State.holdWord, BitVec.toNat_ofNat, Nat.mod_eq_of_lt (by omega)]

theorem State.causeWord_toNat (s : State) : s.causeWord.toNat = s.causeCode.toNat + 256 * s.warnCnt.toNat := by
  rw [State.causeWord, BitVec.toNat_ofNat, Nat.mod_eq_of_lt (by omega)]

/-- A field of a word, from the word's number. -/
theorem extractLsb'_eq_iff {n : Nat} (w : Word) (start : Nat) (x : BitVec n) :
    w.extractLsb' start n = x ↔ w.toNat / 2 ^ start % 2 ^ n = x.toNat := by
  rw [← BitVec.toNat_inj, BitVec.extractLsb'_toNat, Nat.shiftRight_eq_div_pow]

theorem State.statusWord_fields (s : State) :
    s.statusWord.getLsbD 0 = s.busy ∧ s.statusWord.getLsbD 1 = s.done ∧ s.statusWord.getLsbD 2 = s.fault
    ∧ s.statusWord.getLsbD 3 = s.busyErr ∧ s.statusWord.getLsbD 4 = s.clip ∧ s.statusWord.getLsbD 5 = s.odd
    ∧ s.statusWord.getLsbD 6 = s.under ∧ s.statusWord.getLsbD 7 = s.tailf ∧ s.statusWord.getLsbD 8 = s.holdV := by
  simp only [State.statusWord_eq_bits, BitVec.getLsbD_ofNat, Nat.testBit_bit_succ, Nat.testBit_bit_zero]
  simp

theorem State.holdWord_fields (s : State) :
    s.holdWord.extractLsb' 0 8 = s.holdC ∧ s.holdWord.extractLsb' 8 8 = s.holdN ∧ s.holdWord.getLsbD 16 = s.holdV := by
  have hv := s.holdV.toNat_le
  refine ⟨(extractLsb'_eq_iff _ _ _).mpr ?_, (extractLsb'_eq_iff _ _ _).mpr ?_, ?_⟩
  · rw [s.holdWord_toNat]; omega
  · rw [s.holdWord_toNat]; omega
  · have hbit : s.holdWord.toNat / 2 ^ 16 = s.holdV.toNat := by rw [s.holdWord_toNat]; omega
    rw [BitVec.getLsbD, Nat.testBit_eq_decide_div_mod_eq, hbit]
    cases s.holdV <;> rfl

theorem State.causeWord_fields (s : State) :
    s.causeWord.extractLsb' 0 4 = s.causeCode ∧ s.causeWord.extractLsb' 4 4 = 0 ∧ s.causeWord.extractLsb' 8 8 = s.warnCnt := by
  refine ⟨(extractLsb'_eq_iff _ _ _).mpr ?_, (extractLsb'_eq_iff _ _ _).mpr ?_, (extractLsb'_eq_iff _ _ _).mpr ?_⟩
  · rw [s.causeWord_toNat]; omega
  · rw [s.causeWord_toNat]; show _ = 0; omega
  · rw [s.causeWord_toNat]; omega

/-- Settles O42: each word is the sum of its fields at their places. -/
theorem statusHoldCauseFields : Obligations.StatusHoldCauseFields := by
  unfold Obligations.StatusHoldCauseFields
  intro s
  obtain ⟨b0, b1, b2, b3, b4, b5, b6, b7, b8⟩ := s.statusWord_fields
  obtain ⟨hc, hn, hv⟩ := s.holdWord_fields
  obtain ⟨code, reserved, warn⟩ := s.causeWord_fields
  have hhold : s.holdWord.toNat < 2 ^ 17 := by have := s.holdV.toNat_le; rw [s.holdWord_toNat]; omega
  have hcause : s.causeWord.toNat < 2 ^ 16 := by rw [s.causeWord_toNat]; omega
  exact ⟨b0, b1, b2, b3, b4, b5, b6, b7, b8, s.statusWord_lt, hc, hn, hv, hhold, code, reserved, warn, hcause⟩

/-! ### The register window -/

/-- A register whose own content is as before reads as before, whatever else was configured (R23). -/
theorem State.readReg_configured (s : State) {w h : BitVec 16} {a l : Word} {j : Nat} (hw : j = 2 → w = s.pageW)
    (hh : j = 3 → h = s.pageH) (ha : j = 4 → a = s.srcAddr) (hl : j = 5 → l = s.srcLen) :
    State.readReg { s with pageW := w, pageH := h, srcAddr := a, srcLen := l } j = s.readReg j := by
  match j with
  | 2 => exact congrArg (BitVec.setWidth 32) (hw rfl)
  | 3 => exact congrArg (BitVec.setWidth 32) (hh rfl)
  | 4 => exact ha rfl
  | 5 => exact hl rfl
  | 0 | 1 | 6 | 7 | 8 | 9 => rfl
  | _ + 10 => rfl

/-- A page register keeps the low half of the word written (R23). -/
theorem setWidth_low_half (v : Word) : (v.setWidth 16).setWidth 32 = v &&& 0xFFFF#32 := by
  apply BitVec.eq_of_toNat_eq
  rw [BitVec.toNat_and, BitVec.toNat_setWidth, BitVec.toNat_setWidth]
  have hmask : v.toNat &&& 65535 = v.toNat % 2 ^ 16 := Nat.and_two_pow_sub_one_eq_mod v.toNat 16
  show _ = v.toNat &&& 65535
  omega

theorem unlessBusy_idle {s : State} (hb : s.busy = false) (t : State) : s.unlessBusy t = t := by
  rw [State.unlessBusy, hb, if_neg (by decide)]

/-- With BUSY 0 a write of a configuration register changes that one (R23). -/
theorem hostAct_writeConfig {s : State} (hb : s.busy = false) (v : Word) :
    hostAct (.writeReg 2 v) s = .next { s with pageW := v.setWidth 16 }
    ∧ hostAct (.writeReg 3 v) s = .next { s with pageH := v.setWidth 16 }
    ∧ hostAct (.writeReg 4 v) s = .next { s with srcAddr := v }
    ∧ hostAct (.writeReg 5 v) s = .next { s with srcLen := v } :=
  ⟨congrArg _ (unlessBusy_idle hb _), congrArg _ (unlessBusy_idle hb _), congrArg _ (unlessBusy_idle hb _),
    congrArg _ (unlessBusy_idle hb _)⟩

/-- Settles O41: a configuration write changes what its own register reads; the rest holds by what each offset is. -/
theorem registerWindow : Obligations.RegisterWindow := by
  unfold Obligations.RegisterWindow
  intro s v
  refine ⟨fun _ => rfl, fun hb i hi => ?_, fun i hi => ?_, rfl, rfl, rfl, rfl, rfl, rfl, rfl, fun i hi => ?_⟩
  · obtain ⟨hw, hh, ha, hl⟩ := hostAct_writeConfig hb v
    simp only [List.mem_cons, List.not_mem_nil, or_false] at hi
    rcases hi with rfl | rfl | rfl | rfl
    · exact ⟨_, hw, setWidth_low_half v,
        fun j hj => s.readReg_configured (absurd · hj) (fun _ => rfl) (fun _ => rfl) (fun _ => rfl), rfl⟩
    · exact ⟨_, hh, setWidth_low_half v,
        fun j hj => s.readReg_configured (fun _ => rfl) (absurd · hj) (fun _ => rfl) (fun _ => rfl), rfl⟩
    · exact ⟨_, ha, rfl,
        fun j hj => s.readReg_configured (fun _ => rfl) (fun _ => rfl) (absurd · hj) (fun _ => rfl), rfl⟩
    · exact ⟨_, hl, rfl,
        fun j hj => s.readReg_configured (fun _ => rfl) (fun _ => rfl) (fun _ => rfl) (absurd · hj), rfl⟩
  · match i, hi with
    | _ + 6, _ => rfl
  · match i, hi with
    | _ + 10, _ => rfl

/-! ### Who moves next -/

theorem step_of_host_turn {s t : State} {act : HostAct} (h : s.turn = .host act t) : step s = hostAct act t := by
  rw [step, stepTurn, h]

theorem step_of_engine_turn {s t : State} (h : s.turn = .engine t) : step s = engineStep t := by
  rw [step, stepTurn, h]

/-- A write to CMD of a word that decodes to an instruction, with BUSY 0 (R21, R135). -/
theorem writeCommand_of_decodes {s : State} {w : Word} {i : Instr} (hb : s.busy = false) (hd : decodeCommand w = .ok i) :
    writeCommand w s = exec i s := by
  rw [writeCommand, hb, if_neg (by decide), hd]

/-- Settles O35: the clauses are the cases of `State.turn`, and of a write to CMD. -/
theorem stepRunsHostAction : Obligations.StepRunsHostAction := by
  unfold Obligations.StepRunsHostAction
  intro s act rest
  refine ⟨fun hb tm hi => step_host hb hi, fun hb hi => ?_, fun hb k hi => ?_, fun hb hi => ?_,
    fun hb w i hd => writeCommand_of_decodes hb hd⟩
  · have hturn : s.turn = .host act (s.withInputs rest) := by simp [State.turn, hb, hi]
    exact step_of_host_turn hturn
  · have hturn : s.turn = .engine (s.withInputs (⟨.during k, act⟩ :: rest)) := by simp [State.turn, hb, hi]
    exact step_of_engine_turn hturn
  · have hturn : s.turn = .engine s := by simp [State.turn, hb, hi]
    exact step_of_engine_turn hturn

/-! ### Reset -/

theorem State.readReg_powerOn (cfg : Config) (i : Nat) : (State.powerOn cfg).readReg i = 0 := by
  match i with
  | 0 | 1 | 2 | 3 | 4 | 5 | 6 | 7 | 8 | 9 => rfl
  | _ + 10 => rfl

/-- Settles O45: reset leaves the registers and memories of power-on, with the counters of the free contents moved on. -/
theorem resetClearsRegisters : Obligations.ResetClearsRegisters := by
  unfold Obligations.ResetClearsRegisters
  exact ⟨State.readReg_powerOn _, fun _ => ⟨rfl, rfl, rfl⟩,
    fun s => ⟨s.afterReset, rfl, State.readReg_powerOn s.cfg, rfl, rfl, fun _ => ⟨rfl, rfl, rfl⟩⟩⟩

/-! ### What an instruction leaves alone -/

/-- Beside the frame's status and CAUSE's code the command changed at most CANVAS, now `c`, and WARNCNT, now `n`. -/
def CanvasCommand (s t : State) (c : Memory) (n : Byte) : Prop :=
  t = { s with
    busy := t.busy, done := t.done, fault := t.fault, causeCode := t.causeCode, canvas := c, warnCnt := n }

/-- What LCLR may change: the frame's status, CAUSE's code and LBUF. -/
def LbufCommand (s t : State) : Prop :=
  t = { s with busy := t.busy, done := t.done, fault := t.fault, causeCode := t.causeCode, lbuf := t.lbuf }

/-- What DECODE may change: status, the decoder's registers, CAUSE, LBUF and the model's own records. -/
def DecodeCommand (s t : State) : Prop :=
  t = { s with
    busy := t.busy, done := t.done, fault := t.fault, clip := t.clip, odd := t.odd, under := t.under, tailf := t.tailf
    rdptr := t.rdptr, cursor := t.cursor, holdV := t.holdV, holdC := t.holdC, holdN := t.holdN
    causeCode := t.causeCode, warnCnt := t.warnCnt, lbuf := t.lbuf, drawn := t.drawn
    poison := t.poison, tampered := t.tampered }

theorem DecodeCommand.trans {s t u : State} (h1 : DecodeCommand s t) (h2 : DecodeCommand t u) : DecodeCommand s u := by
  unfold DecodeCommand at *
  rw [h2, h1]

theorem DecodeCommand.of_decoderOnly {s t : State} (h : DecoderOnly s t) : DecodeCommand s t := by
  unfold DecodeCommand
  rw [h]

theorem DecodeCommand.finishDecode (s : State) : DecodeCommand s s.finishDecode := by
  have hlbuf {u v : State} (h : LbufOnly u v) : DecodeCommand u { v with poison := [], tampered := [] } := by
    unfold DecodeCommand
    rw [h]
  have htail := DecodeCommand.of_decoderOnly (DecoderOnly.decodeTail s)
  have hend : DecodeCommand s s.decodeTail.endCommand := htail.trans rfl
  exact hend.trans (hlbuf (LbufOnly.scrambles _ _))

theorem exec_pair_frame {i : Instr} (hi : Laws.isPair i = true) {s t : State} (h : exec i s = .next t) :
    DecoderOnly s t := by
  cases i with
  | run c n => cases h; exact .trans (.flush s) (.emit _ _ _)
  | hold c n => cases h; exact .trans (.flush s) (.stash _ _ _)
  | maxrun c => cases h; exact .trans (.flush s) (.emit _ _ _)
  | cont c n => cases h; exact .trans (.clearHolder s) (.emit _ _ _)
  | nop | cclr | lclr | decode _ | blend | gray => cases hi

theorem exec_nop_frame {s t : State} (h : exec .nop s = .next t) : CanvasCommand s t s.canvas s.warnCnt := by
  cases h; rfl

theorem exec_cclr_frame {s t : State} (h : exec .cclr s = .next t) : CanvasCommand s t t.canvas t.warnCnt := by
  cases h
  exact runCommand_induction (P := fun u => CanvasCommand s u u.canvas u.warnCnt) (fun _ => rfl) fun _ => rfl

theorem exec_blend_frame {s t : State} (h : exec .blend s = .next t) : CanvasCommand s t t.canvas s.warnCnt := by
  cases h
  exact runCommand_induction (P := fun u => CanvasCommand s u u.canvas s.warnCnt) (fun _ => rfl) fun _ => rfl

theorem exec_gray_frame {s t : State} (h : exec .gray s = .next t) : CanvasCommand s t t.canvas s.warnCnt := by
  cases h
  exact runCommand_induction (P := fun u => CanvasCommand s u u.canvas s.warnCnt) (fun _ => rfl) fun _ => rfl

theorem exec_lclr_frame {s t : State} (h : exec .lclr s = .next t) : LbufCommand s t := by
  cases h; exact runCommand_induction (fun _ => rfl) fun _ => rfl

theorem exec_decode_frame {proto : Byte} {s t : State} (h : exec (.decode proto) s = .next t) :
    DecodeCommand s t := by
  cases h
  refine runCommand_induction (fun _ => rfl) fun _ => ?_
  have hstart : DecodeCommand s s.beginCommand.decodeInit := rfl
  split
  · exact hstart
  · exact (hstart.trans (.of_decoderOnly (.pairLoop _ _))).trans (.finishDecode _)

/-- Settles O49: by the frame of each kind of instruction. -/
theorem whoWritesWhat : Obligations.WhoWritesWhat := by
  unfold Obligations.WhoWritesWhat
  intro i s t h
  cases i with
  | run c n => rw [exec_pair_frame rfl h]; simp
  | hold c n => rw [exec_pair_frame rfl h]; simp
  | maxrun c => rw [exec_pair_frame rfl h]; simp
  | cont c n => rw [exec_pair_frame rfl h]; simp
  | nop => rw [exec_nop_frame h]; simp
  | cclr => rw [exec_cclr_frame h]; simp
  | blend => rw [exec_blend_frame h]; simp
  | gray => rw [exec_gray_frame h]; simp
  | lclr => rw [exec_lclr_frame h]; simp
  | decode p => rw [exec_decode_frame h]; simp

/-! ### What a step leaves alone -/

/-- A host write to memory leaves the parameters, BUSY and BUSYERR. -/
theorem State.hostWrite_frame (s : State) (sp : Space) (a : Nat) (bs : List Byte) :
    (s.hostWrite sp a bs).cfg = s.cfg ∧ (s.hostWrite sp a bs).busy = s.busy
    ∧ (s.hostWrite sp a bs).busyErr = s.busyErr := by
  unfold State.hostWrite
  split <;> cases sp <;> exact ⟨rfl, rfl, rfl⟩

theorem HostMove.cfg {s t : State} (m : HostMove s t) : t.cfg = s.cfg := by
  cases m with
  | command idle decodes runs => exact (exec_keepsCbuf runs).2.2.1
  | wrote sp a bs inside => exact (s.hostWrite_frame sp a bs).1
  | illegal | dropped | status | configured | read | reset => rfl

/-- Settles O48: no micro-step and no move of the host writes the parameters. -/
theorem stepKeepsParameters : Obligations.StepKeepsParameters := by
  unfold Obligations.StepKeepsParameters
  intro s t hstep
  rcases step_cases s with ⟨hidle, -, -⟩ | ⟨l, hengine, -⟩ | ⟨act, l, hhost⟩
  · cases hidle.symm.trans hstep; rfl
  · obtain ⟨-, -, hcfg, -⟩ := engineStep_keepsCbuf (hengine.symm.trans hstep)
    exact hcfg
  · exact (hostAct_moves (hhost.symm.trans hstep)).cfg

/-- The body of a DECODE of one transition ends with BUSY 0 and leaves BUSYERR. -/
theorem State.decodeBody_busy (s : State) : s.decodeBody.busy = false ∧ s.decodeBody.busyErr = s.busyErr := by
  obtain ⟨hbusy, -, -, -, -, -, -, hbusyErr, -⟩ := finishDecode_ends (State.pairLoop (s.srcLen.toNat / 2) s.decodeInit)
  have hloop := DecoderOnly.pairLoop (s.srcLen.toNat / 2) s.decodeInit
  exact ⟨hbusy, hbusyErr.trans (by rw [hloop]; rfl)⟩

/-- At the transaction level a command ends with BUSY 0 and leaves BUSYERR (R22, R135). -/
theorem exec_command_busy {w : Word} {i : Instr} (hw : decodeCommand w = .ok i) {s t : State}
    (hp : s.cfg.pairSteps = false) (h : exec i s = .next t) : t.busy = false ∧ t.busyErr = s.busyErr := by
  have frame {op3 : Bool} {failed : Option Cause} {body : State → State}
      (hbody : (body s.beginCommand).busy = false ∧ (body s.beginCommand).busyErr = s.busyErr) :
      (s.runCommand op3 failed body).busy = false ∧ (s.runCommand op3 failed body).busyErr = s.busyErr :=
    runCommand_induction (P := fun u => u.busy = false ∧ u.busyErr = s.busyErr) (fun _ => ⟨rfl, rfl⟩) fun _ => hbody
  rcases decodeCommand_is_command hw with rfl | rfl | rfl | ⟨p, rfl⟩ | rfl | rfl
  · cases h; exact frame ⟨rfl, rfl⟩
  · cases h; exact frame ⟨rfl, rfl⟩
  · cases h; exact frame ⟨rfl, rfl⟩
  · cases h
    refine frame ?_
    rw [State.beginCommand_cfg, hp, if_neg (by decide)]
    exact s.beginCommand.decodeBody_busy
  · cases h; exact frame ⟨rfl, rfl⟩
  · cases h; exact frame ⟨rfl, rfl⟩

/-- At the transaction level no move of the host sets BUSY or BUSYERR. -/
theorem HostMove.not_busy {s t : State} (m : HostMove s t) (hp : s.cfg.pairSteps = false) (hb : s.busy = false)
    (he : s.busyErr = false) : t.busy = false ∧ t.busyErr = false := by
  cases m with
  | command idle decodes runs =>
    obtain ⟨hbusy, hbusyErr⟩ := exec_command_busy decodes hp runs
    exact ⟨hbusy, hbusyErr.trans he⟩
  | illegal op3 idle => exact ⟨rfl, he⟩
  | dropped busy => exact absurd busy (by rw [hb]; decide)
  | status keep => exact ⟨hb, by rw [he]; rfl⟩
  | wrote sp a bs inside =>
    obtain ⟨-, hbusy, hbusyErr⟩ := s.hostWrite_frame sp a bs
    exact ⟨hbusy.trans hb, hbusyErr.trans he⟩
  | configured | read => exact ⟨hb, he⟩
  | reset => exact ⟨rfl, rfl⟩

/-- Settles O50: with BUSY 0 a step is idle or a move of the host, and no command is left running. -/
theorem transactionLevelNeverBusy : Obligations.TransactionLevelNeverBusy := by
  unfold Obligations.TransactionLevelNeverBusy
  intro s t hp hb he hstep
  rcases step_cases s with ⟨hidle, -, -⟩ | ⟨l, -, hbusy⟩ | ⟨act, l, hhost⟩
  · cases hidle.symm.trans hstep; exact ⟨hb, he⟩
  · exact absurd hbusy (by rw [hb]; decide)
  · exact (hostAct_moves (hhost.symm.trans hstep)).not_busy hp hb he

end Sys2Proof.Machine
end

section
/-! PROOF. The host's memory port between commands, and the one CBUF that the instances of a system read. -/

namespace Sys2Proof.Machine

/-! ### The memory port with BUSY 0 -/

/-- A byte after a write to its space (R9): the one written inside the range, what was there outside it. -/
theorem State.byteAt_setMem_write (s : State) (sp : Space) (a : Nat) (bs : List Byte) (x : Nat) :
    (s.setMem sp ((s.mem sp).write a bs)).byteAt sp x =
      if h : a ≤ x ∧ x < a + bs.length then bs[x - a]'(by omega) else s.byteAt sp x := by
  unfold State.byteAt
  rw [State.mem_setMem, State.unwritten_congr (s.setMem_epoch sp _), Memory.get_write]
  by_cases h : a ≤ x ∧ x < a + bs.length
  · rw [if_pos h, dif_pos h, List.getElem?_eq_getElem (by omega), Option.getD_some]
  · rw [if_neg h, dif_neg h]

/-- With BUSY 0 a host write inside a space stores its bytes (R66). -/
theorem hostAct_writeMem_idle {s : State} {sp : Space} {a : Nat} {bs : List Byte} (hb : s.busy = false)
    (hin : a + bs.length ≤ spaceSize s.cfg sp) :
    hostAct (.writeMem sp a bs) s = .next (s.setMem sp ((s.mem sp).write a bs)) := by
  show hostWriteMem sp a bs s = _
  rw [hostWriteMem, if_pos hin, State.hostWrite, hb, if_neg (by decide)]

/-- With BUSY 0 the host reads the byte itself: no running command may write it (R175). -/
theorem State.hostByte_idle {s : State} (hb : s.busy = false) (sp : Space) (a i : Nat) :
    s.hostByte sp a i = s.byteAt sp a := by
  have hfree : s.mayBeWritten sp a = false := by rw [State.mayBeWritten, hb]; rfl
  rw [State.hostByte, hfree, if_neg (by decide)]

/-- With BUSY 0 a host read returns the bytes and draws no free ones (R66). -/
theorem hostAct_readMem_idle {s : State} {sp : Space} {a n : Nat} (hb : s.busy = false)
    (hin : a + n ≤ spaceSize s.cfg sp) :
    hostAct (.readMem sp a n) s
      = .next { s with responses := .bytes ((List.range n).map (fun i => s.byteAt sp (a + i))) :: s.responses } := by
  show hostReadMem sp a n s = _
  rw [hostReadMem, if_pos hin, State.hostRead]
  simp only [State.hostByte_idle hb, hb, Bool.false_eq_true, if_false]

/-- Settles O43: by what the port does inside a space, and the bound it checks. -/
theorem hostMemoryBetweenCommands : Obligations.HostMemoryBetweenCommands := by
  unfold Obligations.HostMemoryBetweenCommands
  intro s sp a bs hb
  refine ⟨fun hin => ⟨_, hostAct_writeMem_idle hb hin, s.byteAt_setMem_write sp a bs, ?_⟩,
    fun n hin => hostAct_readMem_idle hb hin, fun hout => ?_⟩
  · rw [State.mem_setMem]
  · exact if_neg (Nat.not_le_of_lt hout)

/-! ### The one CBUF -/

/-- All instances read the CBUF that was stored last (R65). -/
theorem System.view_put_cbufByte (y : System) (i : Nat) (t u : State) (x : Nat) :
    ((y.put i t).view u).byteAt .cbuf x = t.byteAt .cbuf x :=
  State.cbufByte_congr rfl rfl x

/-- A host write to CBUF as the step of one of the instances, idle: the bytes stored over the common CBUF, then what R175 asks. -/
theorem System.stepAt_cbufWrite {y : System} {i : Nat} {s : State} {tm : Timing} {a : Nat} {bs : List Byte}
    {rest : List HostEvent} (hi : y.engines[i]? = some s) (hb : s.busy = false)
    (hev : s.inputs = ⟨tm, .writeMem .cbuf a bs⟩ :: rest) (hin : a + bs.length ≤ y.cbufSize) :
    y.stepAt i = y.putChanged i (((y.view s).withInputs rest).setMem .cbuf (y.cbuf.write a bs))
      (.written ⟨a, bs.length⟩) := by
  have hturn : (y.view s).turn = .host (.writeMem .cbuf a bs) ((y.view s).withInputs rest) :=
    y.turn_view (s' := s.withInputs rest) (by rw [State.turn, hb, if_neg (by decide), hev])
  have hstep : step (y.view s) = .next (((y.view s).withInputs rest).setMem .cbuf (y.cbuf.write a bs)) :=
    (step_of_host_turn hturn).trans (hostAct_writeMem_idle (s := (y.view s).withInputs rest) hb hin)
  have hchange : (y.view s).cbufChange = some (.written ⟨a, bs.length⟩) := by rw [State.cbufChange, hturn]; rfl
  rw [System.stepAt, hi]
  simp only [hstep, hchange]

/-- A write to CBUF touches of the other instances only what those that run a DECODE count (R175). -/
theorem System.putChanged_written_engines_ne (y : System) {i j : Nat} (t : State) (r : Span) (hj : j ≠ i) :
    (y.putChanged i t (.written r)).engines[j]? =
      y.engines[j]?.map (fun u => if u.busy then { u with tampered := u.tampered ++ [r] } else u) := by
  rw [System.putChanged, System.put_engines, if_neg hj, System.noteWritten_engines]

/-- What all instances read of CBUF after a write of the range `r`: free bytes inside it if one of the others runs a DECODE
(R175), else what the writer stored. -/
theorem System.putChanged_written_cbufByte (y : System) (i : Nat) (t u : State) (r : Span) (x : Nat) :
    ((y.putChanged i t (.written r)).view u).byteAt .cbuf x =
      if y.othersBusy i = true ∧ r.base ≤ x ∧ x < r.base + r.len then Config.freeByte t.ident (t.drawn + (x - r.base))
      else t.byteAt .cbuf x := by
  rw [System.putChanged, System.view_put_cbufByte]
  by_cases ho : y.othersBusy i = true
  · rw [if_pos ho, scramble_byteAt]; simp only [ho, true_and]
  · rw [if_neg ho, if_neg (fun h => ho h.1)]

/-- A load succeeds inside CBUF with all instances idle, and stores its bytes (R58, R61). -/
theorem System.loadCbuf_eq_some_iff {y z : System} {a : Nat} {bs : List Byte} : y.loadCbuf a bs = some z ↔
    (a + bs.length ≤ y.cbufSize ∧ ∀ s ∈ y.engines, s.busy = false) ∧ { y with cbuf := y.cbuf.write a bs } = z := by
  simp [System.loadCbuf]

/-- Settles O59: what the instances read is the one stored CBUF, which the write or the load changed. -/
theorem commonCbufIsOne : Obligations.CommonCbufIsOne := by
  unfold Obligations.CommonCbufIsOne
  refine ⟨fun y i s tm a bs rest hi hb hev hin => ?_, fun y z a bs hload => ?_⟩
  · dsimp only
    rw [System.stepAt_cbufWrite hi hb hev hin]
    refine ⟨fun j t _ x => ?_, fun j t hj ht => ?_⟩
    · have hstored := ((y.view s).withInputs rest).byteAt_setMem_write .cbuf a bs x
      rw [System.putChanged_written_cbufByte]
      by_cases hx : a ≤ x ∧ x < a + bs.length
      · rw [dif_pos hx] at hstored ⊢
        by_cases ho : y.othersBusy i = true
        · rw [if_pos ⟨ho, hx⟩, if_pos ho]; rfl
        · rw [if_neg (fun h => ho h.1), if_neg ho]; exact hstored
      · rw [dif_neg hx] at hstored ⊢
        rw [if_neg (fun h => hx h.2)]; exact hstored
    · rw [System.putChanged_written_engines_ne y _ _ hj, ht, Option.map_some]
  · obtain ⟨⟨hin, hidle⟩, rfl⟩ := System.loadCbuf_eq_some_iff.mp hload
    exact ⟨hin, rfl, fun s hs => ⟨hidle s hs, (y.view s).byteAt_setMem_write .cbuf a bs⟩⟩

end Sys2Proof.Machine
end

section
/-! PROOF. The decoder and the encoder are inverse to each other, PIXELS asks for its count, and a word placed by
`withFetchWord` is what the next step runs. -/

namespace Sys2Proof.Machine

/-! ### The normal rule and the decoding mode (R74, R75) -/

/-- The three length codes that the normal rule tells apart. -/
theorem lengthCode_cases (n : Byte) : n = 0xFF#8 ∨ (128 ≤ n.toNat ∧ n ≠ 0xFF#8) ∨ n.toNat < 128 := by
  by_cases hmax : n = 0xFF#8
  · exact .inl hmax
  · rcases Nat.lt_or_ge n.toNat 128 with hlow | hhigh
    · exact .inr (.inr hlow)
    · exact .inr (.inl ⟨hhigh, hmax⟩)

theorem ne_maxrunCode {n : Byte} (hlow : n.toNat < 128) : n ≠ 0xFF#8 := by
  rintro rfl; exact absurd hlow (by decide)

theorem decodeNormal_maxrun (c : Byte) : decodeNormal c 0xFF#8 = .maxrun c := if_pos rfl

theorem decodeNormal_hold (c : Byte) {n : Byte} (hhigh : 128 ≤ n.toNat) (hmax : n ≠ 0xFF#8) :
    decodeNormal c n = .hold c n := by
  rw [decodeNormal, if_neg hmax, if_pos ((high_bit_iff n).mpr hhigh)]

theorem decodeNormal_run (c : Byte) {n : Byte} (hlow : n.toNat < 128) : decodeNormal c n = .run c n := by
  rw [decodeNormal, if_neg (ne_maxrunCode hlow), if_neg (fun hbit => absurd ((high_bit_iff n).mp hbit) (by omega))]

theorem decodePair_pending (c n : Byte) : decodePair (some c) c n = .cont c n := if_pos rfl

theorem decodePair_normal {pending : Option Byte} {c : Byte} (h : pending ≠ some c) (n : Byte) :
    decodePair pending c n = decodeNormal c n := if_neg h

/-- What the normal rule reads from a pair is well-formed, selected unless a holder of its colour pends, and is written
as that pair. -/
theorem decodeNormal_encodes (c n : Byte) : (decodeNormal c n).wf = true ∧ encode (decodeNormal c n) = .pair c n
    ∧ ∀ pending, pending ≠ some c → (decodeNormal c n).selectedBy pending = true := by
  rcases lengthCode_cases n with rfl | ⟨hhigh, hmax⟩ | hlow
  · rw [decodeNormal_maxrun]
    exact ⟨rfl, rfl, fun _ h => bne_iff_ne.mpr h⟩
  · rw [decodeNormal_hold c hhigh hmax]
    exact ⟨by simp [Instr.wf, hhigh, hmax], rfl, fun _ h => bne_iff_ne.mpr h⟩
  · rw [decodeNormal_run c hlow]
    exact ⟨decide_eq_true hlow, rfl, fun _ h => bne_iff_ne.mpr h⟩

/-! ### Fields of a word by match and mask -/

/-- A mask of `k` ones from bit `i` on takes the field out at its place. -/
theorem and_mask_eq_field (x i k : Nat) : x &&& (2 ^ k - 1) <<< i = x / 2 ^ i % 2 ^ k * 2 ^ i := by
  rw [← Nat.shiftRight_eq_div_pow, ← Nat.shiftLeft_eq]
  refine Nat.eq_of_testBit_eq fun j => ?_
  simp only [Nat.testBit_and, Nat.testBit_shiftLeft, Nat.testBit_two_pow_sub_one, Nat.testBit_mod_two_pow,
    Nat.testBit_shiftRight]
  by_cases hij : i ≤ j
  · rw [Nat.add_sub_cancel' hij, Bool.and_comm]; simp [hij]
  · simp [hij]

/-- MAXRUN's mask on `PW = COLOR | LEN << 8` takes out the length code (R75). -/
theorem pairWord_and_len (c n : Byte) : (c.toNat + 256 * n.toNat) &&& 0xFF00 = 256 * n.toNat := by
  have hmask : (c.toNat + 256 * n.toNat) &&& 0xFF00 = (c.toNat + 256 * n.toNat) / 256 % 256 * 256 :=
    and_mask_eq_field _ 8 8
  omega

/-- The mask of HOLD and RUN takes out bit 7 of the length code (R75). -/
theorem pairWord_and_high (c n : Byte) : (c.toNat + 256 * n.toNat) &&& 0x8000 = n.toNat / 128 * 0x8000 := by
  have hmask : (c.toNat + 256 * n.toNat) &&& 0x8000 = (c.toNat + 256 * n.toNat) / 0x8000 % 2 * 0x8000 :=
    and_mask_eq_field _ 15 1
  rw [hmask]
  omega

/-- Settles O5: the masks of R75 see the length code and its bit 7, which the normal rule tests. -/
theorem streamOpcodeMap : Obligations.StreamOpcodeMap := by
  unfold Obligations.StreamOpcodeMap
  intro pending c n
  have hmaxrun : n = 0xFF#8 ↔ n.toNat = 255 := BitVec.toNat_inj.symm
  refine ⟨?_, fun hmode => ?_⟩
  · rintro rfl; exact decodePair_pending c n
  · rw [decodePair_normal hmode, pairWord_and_len, pairWord_and_high]
    refine ⟨fun hlen => ?_, fun hbit hlen => ?_, fun hbit => ?_⟩
    · rw [hmaxrun.mpr (by omega)]; exact decodeNormal_maxrun c
    · exact decodeNormal_hold c (by omega) (fun h => hlen (by rw [hmaxrun.mp h]))
    · exact decodeNormal_run c (by omega)

/-! ### Command words (R71, R78, R79) -/

theorem protoField_toNat (w : Word) : (protoField w).toNat = w.toNat / 256 % 256 := by
  simp [protoField, Nat.shiftRight_eq_div_pow]

theorem protoField_eq_zero_iff (w : Word) : protoField w = 0#8 ↔ w.toNat / 256 % 256 = 0 := by
  rw [← protoField_toNat]; exact BitVec.toNat_inj.symm

/-- The must-be-zero bits are bits 7:4 and 31:16 (R71). -/
theorem zeroBitsClear_iff (w : Word) : zeroBitsClear w = true ↔ w.toNat / 16 % 16 = 0 ∧ w.toNat / 65536 = 0 := by
  have hlow : w.toNat &&& 0xF0 = w.toNat / 16 % 16 * 16 := and_mask_eq_field w.toNat 4 4
  have hhigh : w.toNat &&& 0xFFFF0000 = w.toNat / 65536 % 65536 * 65536 := and_mask_eq_field w.toNat 16 16
  have hmask : w.toNat &&& 0xFFFF00F0 = w.toNat &&& 0xFFFF0000 ||| w.toNat &&& 0xF0 :=
    Nat.and_or_distrib_left w.toNat 0xFFFF0000 0xF0
  rw [zeroBitsClear, beq_iff_eq, ← BitVec.toNat_inj, BitVec.toNat_and]
  show w.toNat &&& 0xFFFF00F0 = 0 ↔ _
  rw [hmask, Nat.or_eq_zero_iff, hlow, hhigh]
  have hw := w.isLt
  omega

/-- A word with its must-be-zero bits clear is its two fields. -/
theorem toNat_eq_fields {w : Word} (hclear : zeroBitsClear w = true) :
    w.toNat = opField w + 256 * (protoField w).toNat := by
  obtain ⟨hlow, hhigh⟩ := (zeroBitsClear_iff w).mp hclear
  rw [protoField_toNat, opField]
  omega

/-- What a command word decodes to, and why: the must-be-zero bits come first, then OP, then PROTO where OP is not 3
(R71, R78, R79). -/
inductive CommandRow (w : Word) : Except DecodeError Instr → Prop where
  | mustBeZeroBitSet (notClear : zeroBitsClear w = false) : CommandRow w (.error .mustBeZeroBitSet)
  | reservedOp (clear : zeroBitsClear w = true) (op : 6 ≤ opField w) : CommandRow w (.error .reservedOp)
  | protoOutsideDecode (clear : zeroBitsClear w = true) (op : opField w < 6 ∧ opField w ≠ 3)
      (proto : protoField w ≠ 0#8) : CommandRow w (.error .protoOutsideDecode)
  | decode (clear : zeroBitsClear w = true) (op : opField w = 3) : CommandRow w (.ok (.decode (protoField w)))
  | noProto {i : Instr} (clear : zeroBitsClear w = true) (op : opField w < 6 ∧ opField w ≠ 3)
      (proto : protoField w = 0#8) (code : encode i = .command (BitVec.ofNat 32 (opField w))) : CommandRow w (.ok i)

theorem decodeCommand_row (w : Word) : CommandRow w (decodeCommand w) := by
  unfold decodeCommand
  split
  case isFalse hset => exact .mustBeZeroBitSet (Bool.eq_false_iff.mpr hset)
  case isTrue hclear =>
    have row {i : Instr} {op : Nat} (hop : opField w = op) (hlt : op < 6 ∧ op ≠ 3)
        (hcode : encode i = .command (BitVec.ofNat 32 op)) : CommandRow w (withoutProto w i) := by
      subst hop
      unfold withoutProto
      split
      case isTrue hproto => exact .noProto hclear hlt hproto hcode
      case isFalse hproto => exact .protoOutsideDecode hclear hlt hproto
    split
    next hop => exact row hop (by decide) rfl
    next hop => exact row hop (by decide) rfl
    next hop => exact row hop (by decide) rfl
    next hop => exact .decode hclear hop
    next hop => exact row hop (by decide) rfl
    next hop => exact row hop (by decide) rfl
    next h0 h1 h2 h3 h4 h5 =>
      simp only [imp_false] at h0 h1 h2 h3 h4 h5
      exact .reservedOp hclear (by omega)

/-- Settles O4: by the row of each word, its fields being quotients and remainders. -/
theorem illegalWordsExactly : Obligations.IllegalWordsExactly := by
  unfold Obligations.IllegalWordsExactly
  intro w
  have hbits := zeroBitsClear_iff w
  have hproto := protoField_eq_zero_iff w
  have hop : opField w = w.toNat % 16 := rfl
  have hrow := decodeCommand_row w
  generalize decodeCommand w = r at hrow
  cases hrow with
  | mustBeZeroBitSet notClear =>
    have hset := mt hbits.mpr (Bool.eq_false_iff.mp notClear)
    exact ⟨fun _ => by omega, fun _ => ⟨_, rfl⟩⟩
  | reservedOp clear op => exact ⟨fun _ => .inl op, fun _ => ⟨_, rfl⟩⟩
  | protoOutsideDecode clear op proto =>
    rw [ne_eq, hproto] at proto
    exact ⟨fun _ => by omega, fun _ => ⟨_, rfl⟩⟩
  | decode clear op =>
    have hclear := hbits.mp clear
    exact ⟨nofun, fun _ => by omega⟩
  | noProto clear op proto code =>
    have hclear := hbits.mp clear
    rw [hproto] at proto
    exact ⟨nofun, fun _ => by omega⟩

/-- The word of a DECODE is its two fields (R79). -/
theorem decodeWord_toNat (p : Byte) : (p.setWidth 32 <<< 8 ||| 3#32 : Word).toNat = 3 + 256 * p.toNat := by
  have hshift : (p.setWidth 32 <<< 8 : Word).toNat = p.toNat <<< 8 := by
    rw [BitVec.toNat_shiftLeft, BitVec.toNat_setWidth, Nat.shiftLeft_eq, Nat.shiftLeft_eq]; omega
  rw [BitVec.toNat_or, hshift]
  show p.toNat <<< 8 ||| 3 = _
  rw [← Nat.shiftLeft_add_eq_or_of_lt (by decide), Nat.shiftLeft_eq]
  omega

theorem decodeCommand_decodeWord (p : Byte) :
    decodeCommand (p.setWidth 32 <<< 8 ||| 3#32) = .ok (.decode p) := by
  have hw := decodeWord_toNat p
  generalize p.setWidth 32 <<< 8 ||| 3#32 = w at hw ⊢
  have hclear : zeroBitsClear w = true := (zeroBitsClear_iff w).mpr (by omega)
  have hop : opField w = 3 := by rw [opField]; omega
  have hproto : protoField w = p := BitVec.eq_of_toNat_eq (by rw [protoField_toNat]; omega)
  rw [decodeCommand, if_pos hclear, hop, hproto]
  rfl

/-- What a command word decodes to is written as that word (R79). -/
theorem encode_of_decodeCommand {w : Word} {i : Instr} (h : decodeCommand w = .ok i) : encode i = .command w := by
  have hrow := decodeCommand_row w
  rw [h] at hrow
  cases hrow with
  | decode clear op =>
    have hfields := toNat_eq_fields clear
    rw [op] at hfields
    exact congrArg Code.command (BitVec.eq_of_toNat_eq ((decodeWord_toNat _).trans hfields.symm))
  | noProto clear op proto code =>
    have hfields : w.toNat = opField w := by rw [toNat_eq_fields clear, proto]; rfl
    rw [code, ← hfields, BitVec.ofNat_toNat, BitVec.setWidth_eq]

/-! ### The round trip -/

/-- Settles O2: a well-formed pair meets the tests of its row of R75, and a command word is decoded by its row. -/
theorem decodeOfEncode : Obligations.DecodeOfEncode := by
  unfold Obligations.DecodeOfEncode
  intro i pending hwf hsel
  cases i with
  | run c n =>
    have hlow : n.toNat < 128 := of_decide_eq_true hwf
    exact congrArg Except.ok ((decodePair_normal (bne_iff_ne.mp hsel) n).trans (decodeNormal_run c hlow))
  | hold c n =>
    obtain ⟨hhigh, hmax⟩ : 128 ≤ n.toNat ∧ n ≠ 0xFF#8 := by simpa [Instr.wf] using hwf
    exact congrArg Except.ok ((decodePair_normal (bne_iff_ne.mp hsel) n).trans (decodeNormal_hold c hhigh hmax))
  | maxrun c =>
    exact congrArg Except.ok ((decodePair_normal (bne_iff_ne.mp hsel) _).trans (decodeNormal_maxrun c))
  | cont c n =>
    obtain rfl : pending = some c := beq_iff_eq.mp hsel
    exact congrArg Except.ok (decodePair_pending c n)
  | decode p => exact decodeCommand_decodeWord p
  | nop | cclr | lclr | blend | gray => rfl

/-- Settles O3: for a pair by the mode and the normal rule, for a command word by the row of R79 it matched. -/
theorem encodeOfDecode : Obligations.EncodeOfDecode := by
  unfold Obligations.EncodeOfDecode
  intro pending k i h
  cases k with
  | pair c n =>
    cases h
    by_cases hmode : pending = some c
    · rw [hmode, decodePair_pending]
      exact ⟨rfl, beq_iff_eq.mpr rfl, rfl⟩
    · obtain ⟨hwf, hencode, hsel⟩ := decodeNormal_encodes c n
      rw [decodePair_normal hmode]
      exact ⟨hwf, hsel pending hmode, hencode⟩
  | command w =>
    have hencode := encode_of_decodeCommand h
    rcases decodeCommand_is_command h with rfl | rfl | rfl | ⟨p, rfl⟩ | rfl | rfl <;> exact ⟨rfl, rfl, hencode⟩

/-- Settles O1: by evaluating the decoder on these words. -/
theorem specWordsDecode : Obligations.SpecWordsDecode := by
  unfold Obligations.SpecWordsDecode
  decide

/-! ### PIXELS (R83) -/

/-- With no holder pending, a length code below 0x80 is a run of its own. -/
theorem runsOf_run {c n : Byte} (hlow : n.toNat < 128) (rest : List (Byte × Byte)) :
    runsOf none ((c, n) :: rest) = (⟨c, n.toNat + 1⟩ :: (runsOf none rest).1, (runsOf none rest).2) := by
  rw [runsOf, if_neg (ne_maxrunCode hlow), if_neg (Nat.not_le_of_lt hlow)]

/-- With no holder pending, a HOLD and a pair of its colour are one run. -/
theorem runsOf_hold_cont (c : Byte) {h : Byte} (hhigh : 128 ≤ h.toNat) (hmax : h ≠ 0xFF#8) (n : Byte)
    (rest : List (Byte × Byte)) : runsOf none ((c, h) :: (c, n) :: rest)
      = (⟨c, 1 + n.toNat + ((h &&& 0x7F#8).toNat + 1) * 128⟩ :: (runsOf none rest).1, (runsOf none rest).2) := by
  rw [runsOf, if_neg hmax, if_pos hhigh, runsOf, if_pos rfl]

/-- The length code of a HOLD is bit 7 and its seven magnitude bits (R77). -/
theorem holdCode_toNat {k : Nat} (hk : k < 128) : (0x80#8 ||| BitVec.ofNat 8 k).toNat = 128 + k := by
  rw [BitVec.toNat_or, BitVec.toNat_ofNat k, Nat.mod_eq_of_lt (a := k) (by omega)]
  exact (Nat.shiftLeft_add_eq_or_of_lt (a := 1) (i := 7) hk).symm

theorem magnitudeBits_toNat (h : Byte) : (h &&& 0x7F#8).toNat = h.toNat % 128 :=
  Nat.and_two_pow_sub_one_eq_mod h.toNat 7

/-- PIXELS of 1 to 16512 pixels is one run, whatever pairs follow. -/
theorem runsOf_pixelsUpTo16512 (c : Byte) {count : Nat} (hpos : 0 < count) (hle : count ≤ 16512)
    (rest : List (Byte × Byte)) : runsOf none (pixelsUpTo16512 c count ++ rest)
      = (⟨c, count⟩ :: (runsOf none rest).1, (runsOf none rest).2) := by
  unfold pixelsUpTo16512
  split
  case isTrue hshort =>
    have hn : (BitVec.ofNat 8 (count - 1)).toNat = count - 1 := Nat.mod_eq_of_lt (by omega)
    rw [List.singleton_append, runsOf_run (by omega), hn, Nat.sub_add_cancel hpos]
  case isFalse hlong =>
    generalize hk : min 126 ((count - 1) / 128 - 1) = k
    have hn : (BitVec.ofNat 8 (count - 1 - (k + 1) * 128)).toNat = count - 1 - (k + 1) * 128 :=
      Nat.mod_eq_of_lt (by omega)
    have hh := holdCode_toNat (k := k) (by omega)
    have hmax : (0x80#8 ||| BitVec.ofNat 8 k) ≠ 0xFF#8 := fun h => by
      have : (0x80#8 ||| BitVec.ofNat 8 k).toNat = 255 := congrArg BitVec.toNat h
      omega
    have hcount : 1 + (count - 1 - (k + 1) * 128) + ((128 + k) % 128 + 1) * 128 = count := by omega
    show runsOf none ((c, 0x80#8 ||| BitVec.ofNat 8 k) :: (c, BitVec.ofNat 8 (count - 1 - (k + 1) * 128)) :: rest) = _
    rw [runsOf_hold_cont c (by omega) hmax, magnitudeBits_toNat, hh, hn, hcount]

/-- PIXELS of a positive count is one run of at most 16512 pixels, then PIXELS of what is left. -/
theorem runsOf_pixelsPairs_succ (c : Byte) (fuel : Nat) {count : Nat} (hpos : 0 < count) :
    runsOf none (pixelsPairs c (fuel + 1) count)
      = (⟨c, min count 16512⟩ :: (runsOf none (pixelsPairs c fuel (count - 16512))).1,
        (runsOf none (pixelsPairs c fuel (count - 16512))).2) := by
  rw [pixelsPairs, if_neg (by omega)]
  rcases Nat.lt_or_ge 16512 count with hgt | hle
  · rw [if_neg (by omega), runsOf_pixelsUpTo16512 c (by decide) (by decide), Nat.min_eq_right (by omega)]
  · have hrest : pixelsPairs c fuel (count - 16512) = [] := by
      rw [Nat.sub_eq_zero_of_le hle]; cases fuel <;> rfl
    have hone := runsOf_pixelsUpTo16512 c hpos hle []
    rw [List.append_nil] at hone
    rw [if_pos hle, hone, hrest, Nat.min_eq_left hle]

/-- Settles O6: by induction on the fuel, each piece being one run of its pixels. -/
theorem pixelsExpansionExact : Obligations.PixelsExpansionExact := by
  unfold Obligations.PixelsExpansionExact
  intro c fuel
  induction fuel with
  | zero =>
    intro count hle
    obtain rfl : count = 0 := by omega
    exact ⟨rfl, nofun, rfl⟩
  | succ fuel ih =>
    intro count hle
    rcases Nat.eq_zero_or_pos count with rfl | hpos
    · exact ⟨rfl, nofun, rfl⟩
    · obtain ⟨htotal, hcolor, hheld⟩ := ih (count - 16512) (by omega)
      rw [runsOf_pixelsPairs_succ c fuel hpos]
      refine ⟨?_, List.forall_mem_cons.mpr ⟨rfl, hcolor⟩, hheld⟩
      show min count 16512 + totalCount _ = count
      omega

/-! ### A placed word (log 15) -/

/-- The page is inside LBUF, the stream inside CBUF, and one pair is left. -/
theorem State.withRoom_fits (s : State) : s.withRoom.fits = true
    ∧ s.withRoom.srcLen.toNat = s.withRoom.rdptr.toNat + 2 := by
  unfold State.withRoom
  extract_lets s1 cfg1 s2
  have hpage : s1.npix ≤ s1.cfg.maxPix := by
    unfold s1
    split
    · assumption
    · exact (Nat.zero_mul _).trans_le (Nat.zero_le _)
  have hroom : s2.npix ≤ s2.cfg.maxPix ∧ 2 ≤ s2.cfg.cbufSize := by
    unfold s2
    split
    · exact ⟨hpage, by assumption⟩
    · exact ⟨hpage, le_rfl⟩
  split
  case isTrue hleft =>
    have hlen : (s2.rdptr + 2#32).toNat = s2.rdptr.toNat + 2 := BitVec.toNat_add_of_lt hleft.1
    exact ⟨fits_iff.mpr ⟨hroom.1, by rw [hlen]; exact hleft.2⟩, hlen⟩
  case isFalse => exact ⟨fits_iff.mpr hroom, rfl⟩

theorem State.placePair_moves (s : State) (c n : Byte) : EngineMoves (s.placePair c n) where
  busy := rfl
  inputs := rfl
  fits := s.withRoom_fits.1

/-- Two bytes read back after they are written. -/
theorem State.byteAt_write_pair (s : State) (sp : Space) (a : Nat) (c n : Byte) :
    (s.setMem sp ((s.mem sp).write a [c, n])).byteAt sp a = c
    ∧ (s.setMem sp ((s.mem sp).write a [c, n])).byteAt sp (a + 1) = n := by
  simp [State.byteAt_setMem_write]

/-- A placed pair is the one the engine fetches. -/
theorem State.placePair_fetched (s : State) (c n : Byte) :
    (s.placePair c n).fetchedColour = c ∧ (s.placePair c n).fetchedLength = n := by
  have hbyte (x : Nat) : (s.placePair c n).byteAt .cbuf x = (s.withRoom.setMem .cbuf
      ((s.withRoom.mem .cbuf).write (s.withRoom.srcAddr.toNat + s.withRoom.rdptr.toNat) [c, n])).byteAt .cbuf x :=
    State.cbufByte_congr rfl rfl x
  obtain ⟨hcolour, hlength⟩ :=
    s.withRoom.byteAt_write_pair .cbuf (s.withRoom.srcAddr.toNat + s.withRoom.rdptr.toNat) c n
  exact ⟨(hbyte _).trans hcolour, (hbyte _).trans hlength⟩

/-- While a whole pair is left, a micro-step executes the instruction fetched, with its fetch done (R90). -/
theorem EngineMoves.step_fetched {s : State} (h : EngineMoves s) (hleft : s.rdptr.toNat + 2 ≤ s.srcLen.toNat) :
    step s = exec s.fetchedInstr s.advance :=
  (h.step_pair hleft).trans (exec_decodePair s.advance _ _).symm

theorem step_placePair (s : State) (c n : Byte) :
    step (s.placePair c n) = exec (decodePair none c n) (s.placePair c n).advance := by
  obtain ⟨hcolour, hlength⟩ := s.placePair_fetched c n
  obtain ⟨-, hlen⟩ := s.withRoom_fits
  rw [(s.placePair_moves c n).step_fetched hlen.ge, State.fetchedInstr, hcolour, hlength]
  rfl

theorem step_placeCommand (s : State) {w : Word} {i : Instr} (h : decodeCommand w = .ok i) :
    step (s.placeCommand w) = exec i { s with busy := false } := by
  rw [step_host (s := s.placeCommand w) rfl rfl]
  exact writeCommand_of_decodes (s := { s with busy := false }) rfl h

/-- A pair has 16 bits and a command word 32 (R70, R71). -/
theorem width_of_ofBits {nbits w : Nat} {k : Code} (h : Code.ofBits nbits w = some k) : k.width = nbits := by
  unfold Code.ofBits at h
  split at h
  · cases h; exact Eq.symm ‹_›
  · split at h
    · cases h; exact Eq.symm ‹_›
    · cases h

theorem decodeTableWord_eq_some {nbits w : Nat} {i : Instr} (h : decodeTableWord nbits w = some i) :
    ∃ k, Code.ofBits nbits (w % 2 ^ nbits) = some k ∧ decode none k = .ok i := by
  unfold decodeTableWord at h
  split at h
  next k hk =>
    refine ⟨k, hk, ?_⟩
    cases hd : decode none k with
    | ok j => rw [hd] at h; cases h; rfl
    | error e => rw [hd] at h; cases h
  next => cases h

/-- Settles O37: a pair is what the engine fetches, a command word what the host writes. -/
theorem placedWordRunsNext : Obligations.PlacedWordRunsNext := by
  unfold Obligations.PlacedWordRunsNext
  intro s nbits w i h
  obtain ⟨k, hk, hi⟩ := decodeTableWord_eq_some h
  rw [State.withFetchWord, hk]
  cases k with
  | pair c n =>
    cases hi
    have hwidth : 16 = nbits := width_of_ofBits hk
    exact ⟨(s.placePair c n).advance, step_placePair s c n, by omega, fun _ => rfl⟩
  | command v =>
    have hwidth : 32 = nbits := width_of_ofBits hk
    exact ⟨{ s with busy := false }, step_placeCommand s hi, fun _ => rfl, by omega⟩

end Sys2Proof.Machine
end

section
/-! PROOF. The stream level: the lengths of runs, what each pair does and leaves unchanged, the end of a DECODE and the
whole of it against the list of runs of its stream. -/

namespace Sys2Proof.Machine

/-! ### The lengths of runs (R77, R93, R106) -/

theorem mem_tailCandidates {h : Byte} {k : Nat} : k ∈ tailCandidates h ↔ ∃ i ≤ 7, k = magnitude h * 2 ^ i := by
  have hshift : ∀ i, i ∈ [7, 6, 5, 4, 3, 2, 1, 0] ↔ i ≤ 7 := by
    intro i
    simp only [List.mem_cons, List.not_mem_nil, or_false]
    omega
  simp only [tailCandidates, List.mem_map, hshift, Nat.shiftLeft_eq, eq_comm]

/-- The candidates are tried in descending order. -/
theorem tailCandidates_descending (h : Byte) : (tailCandidates h).Pairwise (· ≥ ·) := by
  refine List.pairwise_map.mpr (List.Pairwise.imp (R := (· > ·)) (fun hlt => ?_) (by decide))
  rw [Nat.shiftLeft_eq, Nat.shiftLeft_eq]
  exact Nat.mul_le_mul_left _ (Nat.pow_le_pow_right (by decide) (Nat.le_of_lt hlt))

/-- The first element at or below a bound of a descending list is at least every other one at or below it. -/
theorem le_of_find?_descending {l : List Nat} (hl : l.Pairwise (· ≥ ·)) {b k x : Nat}
    (hfind : l.find? (fun k => decide (k ≤ b)) = some k) (hx : x ∈ l) (hfits : x ≤ b) : x ≤ k := by
  obtain ⟨-, before, after, rfl, hbefore⟩ := List.find?_eq_some_iff_append.mp hfind
  rcases List.mem_append.mp hx with hx | hx
  · exact absurd (hbefore x hx) (by simpa using hfits)
  · obtain ⟨-, hafter, -⟩ := List.pairwise_append.mp hl
    rcases List.mem_cons.mp hx with rfl | hx
    · exact Nat.le_refl _
    · exact List.rel_of_pairwise_cons hafter hx

/-- TAIL takes no pixel only if no candidate fits, else the largest that fits. -/
theorem lenTail_cases (h : Byte) (b : Nat) :
    (lenTail h b = 0 ∧ ∀ k ∈ tailCandidates h, b < k)
    ∨ (lenTail h b ∈ tailCandidates h ∧ ∀ k ∈ tailCandidates h, k ≤ b → k ≤ lenTail h b) := by
  unfold lenTail
  cases hfind : (tailCandidates h).find? (fun k => decide (k ≤ b)) with
  | none => exact .inl ⟨rfl, fun k hk => by simpa using List.find?_eq_none.mp hfind k hk⟩
  | some k =>
    exact .inr ⟨List.mem_of_find?_eq_some hfind,
      fun x hx hfits => le_of_find?_descending (tailCandidates_descending h) hfind hx hfits⟩

theorem magnitude_eq (h : Byte) : magnitude h = h.toNat % 128 + 1 :=
  congrArg (· + 1) (magnitudeBits_toNat h)

theorem magnitude_mem_tailCandidates (h : Byte) : magnitude h ∈ tailCandidates h :=
  mem_tailCandidates.mpr ⟨0, by decide, (Nat.mul_one _).symm⟩

theorem tailCandidates_bounds {h : Byte} {k : Nat} (hk : k ∈ tailCandidates h) :
    magnitude h ≤ k ∧ k ≤ magnitude h * 128 := by
  obtain ⟨i, hi, rfl⟩ := mem_tailCandidates.mp hk
  exact ⟨Nat.le_mul_of_pos_right _ (Nat.two_pow_pos i), Nat.mul_le_mul_left _ (Nat.pow_le_pow_right (by decide) hi)⟩

/-- TAIL takes no pixel exactly if the budget is below the magnitude, the smallest candidate. -/
theorem lenTail_eq_zero_iff (h : Byte) (b : Nat) : lenTail h b = 0 ↔ b < magnitude h := by
  have hpos : 0 < magnitude h := Nat.succ_pos _
  have hle := lenTail_le h b
  rcases lenTail_cases h b with ⟨hzero, hnone⟩ | ⟨hmem, hlargest⟩
  · exact ⟨fun _ => hnone _ (magnitude_mem_tailCandidates h), fun _ => hzero⟩
  · obtain ⟨hlow, -⟩ := tailCandidates_bounds hmem
    omega

/-- Settles O8: a held length code is 128 and its seven magnitude bits; TAIL's candidates are at most `len_ext`. -/
theorem runLengthBounds : Obligations.RunLengthBounds := by
  unfold Obligations.RunLengthBounds
  refine ⟨fun n hn => ?_, rfl, fun h hlow hhigh => ?_, fun h n hlow hhigh => ?_, fun h b hlow hhigh => ?_, rfl⟩
  · unfold lenRun; omega
  · rw [lenExt_eq, magnitudeBits_toNat]; omega
  · rw [lenCont_eq, magnitudeBits_toNat]; omega
  · have hm := magnitude_eq h
    rcases lenTail_cases h b with ⟨hzero, -⟩ | ⟨hmem, -⟩
    · omega
    · obtain ⟨-, hle⟩ := tailCandidates_bounds hmem
      omega

/-- Settles O9: the candidates are tried from the largest down. -/
theorem tailTakesLargestShift : Obligations.TailTakesLargestShift := by
  unfold Obligations.TailTakesLargestShift
  intro h budget
  refine ⟨fun k hk hfits => ?_, lenTail_le h budget, ?_, lenTail_eq_zero_iff h budget⟩
  · have hmem : magnitude h * 2 ^ k ∈ tailCandidates h := mem_tailCandidates.mpr ⟨k, hk, rfl⟩
    rcases lenTail_cases h budget with ⟨-, hnone⟩ | ⟨-, hlargest⟩
    · exact absurd hfits (Nat.not_le_of_lt (hnone _ hmem))
    · exact hlargest _ hmem hfits
  · rcases lenTail_cases h budget with ⟨hzero, -⟩ | ⟨hmem, -⟩
    · exact .inl hzero
    · exact .inr (mem_tailCandidates.mp hmem)

/-- Settles O10: each row by evaluation; with no budget left no candidate fits. -/
theorem tailTable : Obligations.TailTable := by
  unfold Obligations.TailTable
  exact ⟨rfl, rfl, rfl, rfl, rfl, rfl, rfl, rfl, rfl, rfl, rfl, rfl, rfl, rfl, rfl, rfl, rfl, rfl,
    fun h => Nat.le_zero.mp (lenTail_le h 0), rfl⟩

/-! ### The pairs (R100 to R104) -/

theorem State.flush_of_no_holder {s : State} (hv : s.holdV = false) : s.flush = s := by
  rw [State.flush, hv, if_neg (by decide)]

theorem State.flush_of_holder {s : State} (hv : s.holdV = true) :
    s.flush = s.clearHolder.emit s.holdC (lenExt s.holdN) := by
  rw [State.flush, if_pos hv]

/-- RUN and MAXRUN after the FLUSH of a pending holder (R100, R101). -/
theorem exec_run_emitted (c n : Byte) (s : State) :
    ∃ t, exec (.run c n) s = .next t ∧ Emitted c (n.toNat + 1) s.flush t :=
  ⟨_, rfl, emit_emitted _ _ _⟩

theorem exec_maxrun_emitted (c : Byte) (s : State) :
    ∃ t, exec (.maxrun c) s = .next t ∧ Emitted c 16384 s.flush t :=
  ⟨_, rfl, emit_emitted _ _ _⟩

/-- HOLD after the FLUSH of a pending holder (R102). -/
theorem exec_hold (c n : Byte) (s : State) :
    exec (.hold c n) s = .next { s.flush with holdV := true, holdC := c, holdN := n } := rfl

/-- Settles O11: with no holder pending there is nothing to flush. -/
theorem runEmits : Obligations.RunEmits := by
  unfold Obligations.RunEmits
  intro c n s hv
  have hrun := exec_run_emitted c n s
  rwa [State.flush_of_no_holder hv] at hrun

/-- Settles O12: with no holder pending there is nothing to flush. -/
theorem maxrunEmits : Obligations.MaxrunEmits := by
  unfold Obligations.MaxrunEmits
  intro c s hv
  have hmaxrun := exec_maxrun_emitted c s
  rwa [State.flush_of_no_holder hv] at hmaxrun

/-- Settles O13: with no holder pending there is nothing to flush. -/
theorem holdStashes : Obligations.HoldStashes := by
  unfold Obligations.HoldStashes
  intro c n s hv
  rw [exec_hold, State.flush_of_no_holder hv]

/-- Settles O14: CONT emits `len_cont` from the state with the holder cleared. -/
theorem contEmits : Obligations.ContEmits := by
  unfold Obligations.ContEmits
  intro c n s _ _
  rw [← lenCont_eq]
  exact ⟨_, rfl, emit_emitted s.clearHolder c _⟩

/-- Settles O15: the state between the FLUSH and the normal rule is the flushed one. -/
theorem flushThenNormalRule : Obligations.FlushThenNormalRule := by
  unfold Obligations.FlushThenNormalRule
  intro c n s hv _
  refine ⟨s.flush, ?_, exec_run_emitted c n s, exec_maxrun_emitted c s, exec_hold c n s⟩
  rw [State.flush_of_holder hv, ← lenExt_eq]
  exact emit_emitted s.clearHolder s.holdC _

/-- Settles O16: by the cases of the decoding mode and of the normal rule. -/
theorem pairStepIsDecodedPair : Obligations.PairStepIsDecodedPair := exec_decodePair

/-! ### What a pair leaves unchanged (R97, R98) -/

/-- From `s` to `t` at most the holder, CURSOR, CLIP and LBUF between the two cursors changed, as a pair changes it. -/
structure PairWrites (s t : State) : Prop where
  frame : t = { s with
    cursor := t.cursor, clip := t.clip, lbuf := t.lbuf, holdV := t.holdV, holdC := t.holdC, holdN := t.holdN }
  cursor_ge : s.cursor.toNat ≤ t.cursor.toNat
  cursor_le : t.cursor.toNat ≤ max s.cursor.toNat s.npix
  clip : s.clip = true → t.clip = true
  outside : ∀ a, ¬(4 * s.cursor.toNat ≤ a ∧ a < 4 * t.cursor.toNat) → t.byteAt .lbuf a = s.byteAt .lbuf a

theorem PairWrites.npix {s t : State} (h : PairWrites s t) : t.npix = s.npix := by
  rw [h.frame]; rfl

theorem PairWrites.trans {s t u : State} (h1 : PairWrites s t) (h2 : PairWrites t u) : PairWrites s u where
  frame := by rw [h2.frame, h1.frame]
  cursor_ge := h1.cursor_ge.trans h2.cursor_ge
  cursor_le := by
    have hfirst := h1.cursor_le
    have hsecond := h2.cursor_le
    rw [h1.npix] at hsecond
    omega
  clip hs := h2.clip (h1.clip hs)
  outside a ha := by
    have hfirst := h1.cursor_ge
    have hsecond := h2.cursor_ge
    exact (h2.outside a (by omega)).trans (h1.outside a (by omega))

/-- A change of the holder only. -/
theorem PairWrites.of_holder (s : State) (v : Bool) (c n : Byte) :
    PairWrites s { s with holdV := v, holdC := c, holdN := n } :=
  ⟨rfl, Nat.le_refl _, Nat.le_max_left _ _, id, fun _ _ => rfl⟩

theorem PairWrites.emit (s : State) (c : Byte) (k : Nat) : PairWrites s (s.emit c k) where
  frame := rfl
  cursor_ge := (emit_emitted s c k).cursor_le
  cursor_le := by
    have hbudget : s.budget = s.npix - s.cursor.toNat := rfl
    rw [s.emit_cursor_toNat]
    omega
  clip hs := by rw [s.emit_clip, hs, Bool.true_or]
  outside _ ha := (emit_emitted s c k).outside ha

theorem PairWrites.clearHolder (s : State) : PairWrites s s.clearHolder := .of_holder s false s.holdC s.holdN

theorem PairWrites.flush (s : State) : PairWrites s s.flush := by
  cases hv : s.holdV with
  | false => rw [State.flush_of_no_holder hv]; exact .of_holder s s.holdV s.holdC s.holdN
  | true => rw [State.flush_of_holder hv]; exact .trans (.clearHolder s) (.emit _ _ _)

/-- Each pair is made of the FLUSH, an emission and a change of the holder. -/
theorem exec_pair_writes {i : Instr} (hi : Laws.isPair i = true) {s t : State} (h : exec i s = .next t) :
    PairWrites s t := by
  cases i with
  | run c n => cases h; exact .trans (.flush s) (.emit _ _ _)
  | hold c n => cases h; exact .trans (.flush s) (.of_holder _ true c n)
  | maxrun c => cases h; exact .trans (.flush s) (.emit _ _ _)
  | cont c n => cases h; exact .trans (.clearHolder s) (.emit _ _ _)
  | nop | cclr | lclr | decode _ | blend | gray => cases hi

/-- Settles O17: by what the FLUSH, an emission and a change of the holder write. -/
theorem pairFrame : Obligations.PairFrame := by
  unfold Obligations.PairFrame
  intro i s t c n hi h
  have hpair : Laws.isPair i = true := by rcases hi with rfl | rfl | rfl | rfl <;> rfl
  obtain ⟨hframe, hge, hle, hclip, houtside⟩ := exec_pair_writes hpair h
  exact ⟨hframe, hge, hle, hclip, houtside⟩

/-! ### The steps of a running DECODE (R90, R106, R125, R126) -/

/-- Settles O36: the micro-step executes the pair that the fetch reads. -/
theorem stepRunsFetchedPair : Obligations.StepRunsFetchedPair := by
  unfold Obligations.StepRunsFetchedPair
  intro s hbusy hinputs hpage hstream hleft
  have hmoves : EngineMoves s := ⟨hbusy, hinputs, fits_iff.mpr ⟨hpage, hstream⟩⟩
  exact hmoves.step_fetched hleft

/-- How many pixels the end of a DECODE emits (R106). -/
def State.tailLen (s : State) : Nat := if s.holdV then lenTail s.holdN s.budget else 0

theorem State.tailLen_le (s : State) : s.tailLen ≤ s.budget := by
  unfold State.tailLen
  split
  · exact lenTail_le _ _
  · exact Nat.zero_le _

/-- What the end of a DECODE emits fits the budget (R106). -/
theorem State.emit_tailLen_clip (s : State) : (s.emit s.holdC s.tailLen).clip = s.clip := by
  rw [s.emit_clip, decide_eq_false (Nat.not_lt_of_le s.tailLen_le), Bool.or_false]

/-- An emission of no pixels changes at most how LBUF lists its bytes. -/
theorem State.emit_zero (s : State) (c : Byte) : s.emit c 0 = { s with lbuf := (s.emit c 0).lbuf } := by
  have hcursor : (s.emit c 0).cursor = s.cursor :=
    BitVec.eq_of_toNat_eq (by rw [s.emit_cursor_toNat, Nat.zero_min, Nat.add_zero])
  have hclip : (s.emit c 0).clip = s.clip := by rw [s.emit_clip, decide_eq_false (Nat.not_lt_zero _), Bool.or_false]
  have hframe := (emit_emitted s c 0).frame
  rwa [hcursor, hclip] at hframe

theorem State.clearHolder_of_no_holder {s : State} (hv : s.holdV = false) : s.clearHolder = s := by
  rw [State.clearHolder, ← hv]

/-- TAIL, register by register: an emission, the holder cleared, TAILF if there was one (R106). -/
theorem State.tail_eq (s : State) : s.tail = { s.emit s.holdC s.tailLen with
    holdV := false, tailf := s.tailf || s.holdV, lbuf := s.tail.lbuf } := by
  cases hv : s.holdV with
  | true =>
    rw [State.tail, if_pos hv, State.tailLen, if_pos hv, Bool.or_true]
    rfl
  | false =>
    have hnone : ¬ s.holdV = true := by rw [hv]; decide
    rw [State.tail, if_neg hnone, State.tailLen, if_neg hnone, State.emit_zero, Bool.or_false]
    exact (State.clearHolder_of_no_holder hv).symm

/-- The end of a DECODE's body, register by register (R106, R125, R126). -/
theorem State.decodeTail_eq (s : State) : s.decodeTail = { s.emit s.holdC s.tailLen with
    holdV := false, odd := s.odd || oddOf s.srcLen.toNat, tailf := s.tailf || s.holdV
    under := s.under || underOf (s.emit s.holdC s.tailLen).cursor.toNat s.npix, lbuf := s.decodeTail.lbuf } :=
  congrArg (fun t : State => { t with under := t.under || underOf t.cursor.toNat t.npix })
    (State.tail_eq { s with odd := s.odd || oddOf s.srcLen.toNat })

theorem State.decodeTail_cursor (s : State) : s.decodeTail.cursor = (s.emit s.holdC s.tailLen).cursor := by
  rw [s.decodeTail_eq]

/-- What a decoder laid down settles every byte of LBUF. -/
theorem Lays.byteAt_eq {s t u : State} {cols : List Byte} (ht : Lays s cols t) (hu : Lays s cols u) (a : Nat) :
    t.byteAt .lbuf a = u.byteAt .lbuf a := by
  rw [ht.bytes, hu.bytes, ht.cursor, hu.cursor]

theorem decodeTail_lays_tailLen (s : State) : Lays s (List.replicate s.tailLen s.holdC) s.decodeTail := by
  have hlays := decodeTail_lays s
  unfold State.tailLen
  split at hlays
  case isTrue hv => rwa [if_pos hv]
  case isFalse hv => rwa [if_neg hv]

/-- Settles O38: the last micro-step is the end of the body, and without host accesses nothing is left unspecified. -/
theorem stepEndsDecode : Obligations.StepEndsDecode := by
  unfold Obligations.StepEndsDecode
  intro s hbusy hinputs hpage hstream hleft hpoison htampered
  have hmoves : EngineMoves s := ⟨hbusy, hinputs, fits_iff.mpr ⟨hpage, hstream⟩⟩
  have hstep : step s = .next s.decodeTail.endCommand := by
    rw [hmoves.step_end hleft, finishDecode_untouched hpoison htampered]
  exact ⟨s.decodeTail.endCommand, s.emit s.holdC s.tailLen, hstep, emit_emitted _ _ _, s.emit_tailLen_clip,
    congrArg State.endCommand s.decodeTail_eq, (decodeTail_lays_tailLen s).byteAt_eq (.emit _ _ _)⟩

/-! ### A whole DECODE (R111) -/

/-- The colours of all runs of a stream, the tail's included, before the cut at NPIX. -/
def uncutColours (npix : Nat) (pairs : List (Byte × Byte)) : List Byte :=
  layOut (runsOf none pairs).1
    ++ layOut (tailRun (runsOf none pairs).2 (npix - min npix (totalCount (runsOf none pairs).1)))

theorem decodedColours_eq_take (npix : Nat) (pairs : List (Byte × Byte)) :
    decodedColours npix pairs = (uncutColours npix pairs).take npix := by
  have hfits : (layOut (tailRun (runsOf none pairs).2 (npix - min npix (totalCount (runsOf none pairs).1)))).length
      ≤ npix - (layOut (runsOf none pairs).1).length := by
    rw [length_layOut (runsOf none pairs).1, length_layOut]
    cases (runsOf none pairs).2 with
    | none => exact Nat.zero_le _
    | some held =>
      have hle := lenTail_le held.2 (npix - min npix (totalCount (runsOf none pairs).1))
      show lenTail held.2 _ + 0 ≤ _
      omega
  rw [uncutColours, List.take_append, List.take_of_length_le hfits]
  rfl

theorem State.layOut_tailRun (s : State) :
    layOut (tailRun s.holder s.budget) = List.replicate s.tailLen s.holdC := by
  unfold State.holder State.tailLen
  split
  · exact List.append_nil _
  · rfl

section
variable {s t : State} {cols : List Byte} (h : Lays s cols t) (h0 : s.cursor.toNat = 0)
include h h0

/-- From cursor 0 on the colours laid down are cut at NPIX. -/
theorem Lays.cursor_of_start : t.cursor.toNat = (cols.take s.npix).length := by
  rw [h.cursor, State.budget, h0, List.length_take]
  omega

theorem Lays.pixelAt_of_some {p : Nat} {c : Byte} (hp : (cols.take s.npix)[p]? = some c) :
    t.pixelAt .lbuf p = s.cfg.palette.lookup c := by
  obtain ⟨hlt, hcolour⟩ := List.getElem?_eq_some_iff.mp hp
  rw [List.getElem_take] at hcolour
  have hcursor := h.cursor_of_start h0
  refine State.pixelAt_eq fun a ha => ?_
  rw [h.bytes, if_pos (by omega), ha, h0, Nat.sub_zero, 
    List.getD_eq_getElem _ _ (hlt.trans_le (List.length_take_le' _ _)), hcolour]

theorem Lays.pixelAt_of_none {p : Nat} (hp : (cols.take s.npix)[p]? = none) :
    t.pixelAt .lbuf p = s.pixelAt .lbuf p := by
  have hle := List.getElem?_eq_none_iff.mp hp
  have hcursor := h.cursor_of_start h0
  refine State.pixelAt_congr fun a ha => ?_
  rw [h.bytes, if_neg (by omega)]

end

/-- What has been painted from a state with cursor 0 has been laid down from it. -/
theorem Painted.lays {s0 s : State} {cols : List Byte} (h : Painted s0 s cols) (h0 : s0.cursor.toNat = 0) :
    Lays s0 cols s where
  cursor := by
    rw [h.cursor, State.budget, h0]
    omega
  bytes x := by
    rw [h.bytes, h.cursor, h0, Nat.sub_zero]
    simp only [Nat.mul_zero, Nat.zero_le, true_and]
  only := h.only

/-- The state of a DECODE after the loop over its stream (R124, R125). -/
def State.decodeLoop (s : State) : State := State.pairLoop (s.srcLen.toNat / 2) s.beginCommand.decodeInit

/-- The loop of a DECODE lays down the runs of its stream, and leaves their holder. -/
theorem State.decodeLoop_painted (s : State) :
    Painted s.beginCommand.decodeInit s.decodeLoop (layOut (runsOf none s.streamPairs).1)
    ∧ s.decodeLoop.holder = (runsOf none s.streamPairs).2
    ∧ s.decodeLoop.rdptr.toNat = 2 * (s.srcLen.toNat / 2) := by
  have hlen := s.srcLen.isLt
  have hstart : Painted s.beginCommand.decodeInit s.beginCommand.decodeInit [] :=
    { only := .refl _, cursor := (Nat.min_zero _).symm, clip := rfl, flags := ⟨rfl, rfl, rfl⟩
      bytes := fun a => by rw [List.length_nil, Nat.min_zero, if_neg (Nat.not_lt_zero _)] }
  have hpairs : s.beginCommand.decodeInit.pairsFrom 0 (s.srcLen.toNat / 2) = s.streamPairs := by
    simp only [State.pairsFrom, Nat.zero_add]
    rfl
  have hloop := Painted.loop _ (s.srcLen.toNat / 2) _ [] hstart (by
    show 0 + _ < _
    omega)
  rw [show s.beginCommand.decodeInit.rdptr.toNat = 0 from rfl, hpairs, List.nil_append, Nat.zero_add] at hloop
  exact hloop

/-- The body of a DECODE lays down the runs of its stream and the tail's. -/
theorem State.decodeLoop_tail_lays (s : State) :
    Lays s.beginCommand.decodeInit (uncutColours s.npix s.streamPairs) s.decodeLoop.decodeTail := by
  obtain ⟨hpainted, hholder, -⟩ := s.decodeLoop_painted
  have hbudget : s.decodeLoop.budget = s.npix - min s.npix (totalCount (runsOf none s.streamPairs).1) := by
    rw [State.budget, hpainted.only.npix, hpainted.cursor, length_layOut]
    rfl
  rw [uncutColours, ← hholder, ← hbudget, State.layOut_tailRun]
  exact (hpainted.lays rfl).trans (decodeTail_lays_tailLen _)

/-- DECODE at the transaction level, when its checks pass: the loop and the end of the body inside the frame (R123). -/
theorem exec_decode_atOnce {s : State} (hsteps : s.cfg.pairSteps = false) (hpage : s.npix ≤ s.cfg.maxPix)
    (hstream : s.srcAddr.toNat + s.srcLen.toNat ≤ s.cfg.cbufSize) :
    exec (.decode 0) s = .next s.decodeLoop.decodeTail.endCommand := by
  obtain ⟨⟨honly, -⟩, -⟩ := s.decodeLoop_painted
  have hcheck : s.decodeCheck 0 = none := decodeCheck_none_iff.mpr ⟨hpage, rfl, hstream⟩
  have hend : s.decodeLoop.finishDecode = s.decodeLoop.decodeTail.endCommand :=
    finishDecode_untouched (by rw [honly]; rfl) (by rw [honly]; rfl)
  show execDecode 0 s = _
  rw [execDecode_of_checks hcheck, hsteps, if_neg (by decide)]
  exact congrArg _ hend

@[simp] theorem State.isSome_holder (s : State) : s.holder.isSome = s.holdV := by
  unfold State.holder
  cases s.holdV <;> rfl

/-- Settles O18: the loop lays down the runs of the stream, the end of the body the tail's, all cut at NPIX. -/
theorem decodeAsOneTransition : Obligations.DecodeAsOneTransition := by
  unfold Obligations.DecodeAsOneTransition
  intro s hsteps hpage hstream
  obtain ⟨hpainted, hholder, hrdptr⟩ := s.decodeLoop_painted
  obtain ⟨hodd, hunder, htailf⟩ := hpainted.flags
  obtain ⟨-, -, -, -, hsrcLen, -⟩ := hpainted.only.same
  have hlays := s.decodeLoop_tail_lays
  have htail := s.decodeLoop.decodeTail_eq
  rw [decodedColours_eq_take]
  refine ⟨_, exec_decode_atOnce hsteps hpage hstream, hlays.cursor_of_start rfl, fun p => ?_,
    (congrArg (·.rdptr.toNat) htail).trans hrdptr, congrArg State.holdV htail, (congrArg State.clip htail).trans ?clip,
    (congrArg State.odd htail).trans ?odd, (congrArg State.tailf htail).trans ?tailf,
    (congrArg State.under htail).trans ?under, congrArg State.endCommand hlays.only⟩
  · split
    case h_1 c hp => exact hlays.pixelAt_of_some rfl hp
    case h_2 hp => exact hlays.pixelAt_of_none rfl hp
  case clip =>
    rw [← length_layOut]
    exact s.decodeLoop.emit_tailLen_clip.trans hpainted.clip
  case odd => rw [hodd, hsrcLen]; rfl
  case tailf => rw [htailf, ← hholder, State.isSome_holder]; rfl
  case under => rw [hunder, hpainted.only.npix, ← State.decodeTail_cursor]; rfl

end Sys2Proof.Machine
end

section
/-! PROOF. The pixel arithmetic of BLEND and GRAY: the rounded quotients of `over` and `luma` fit a byte, an opaque or gray
destination stays so, and a page is opaque and gray (R11, R129 to R133, R137). -/

namespace Sys2Proof.Machine

/-! ### Rounded quotients (R11) -/

theorem rdiv_mul (k : Nat) {b : Nat} (hb : 0 < b) : rdiv (k * b) b = k := by
  have hsum : 2 * (k * b) + b = b + 2 * b * k := by ring
  rw [rdiv, hsum, Nat.add_mul_div_left _ _ (by omega), Nat.div_eq_of_lt (by omega), Nat.zero_add]

theorem rdiv_mono {a a' : Nat} (h : a ≤ a') (b : Nat) : rdiv a b ≤ rdiv a' b :=
  Nat.div_le_div_right (by omega)

/-- A rounded quotient is at most every number that the exact one is at most. -/
theorem rdiv_le {a b k : Nat} (hb : 0 < b) (h : a ≤ k * b) : rdiv a b ≤ k :=
  (rdiv_mono h b).trans_eq (rdiv_mul k hb)

theorem rdiv_mul_mul {k : Nat} (hk : 0 < k) (a b : Nat) : rdiv (k * a) (k * b) = rdiv a b := by
  have hnum : 2 * (k * a) + k * b = k * (2 * a + b) := by ring
  have hden : 2 * (k * b) = k * (2 * b) := by ring
  rw [rdiv, hnum, hden, Nat.mul_div_mul_left _ _ hk, rdiv]

theorem toNat_ofNat_rdiv {a b : Nat} (hb : 0 < b) (h : a ≤ 255 * b) : (BitVec.ofNat 8 (rdiv a b)).toNat = rdiv a b := by
  have hle := rdiv_le hb h
  rw [BitVec.toNat_ofNat, Nat.mod_eq_of_lt (by omega)]

/-! ### `over` (R129, R130) -/

/-- `NA` for a source that is not transparent (R129). -/
theorem overAlpha_bounds {sa da : Nat} (hpos : 0 < sa) (hsa : sa ≤ 255) (hda : da ≤ 255) :
    255 ≤ overAlpha sa da ∧ overAlpha sa da ≤ 65025 := by
  have hrest : da * (255 - sa) ≤ 255 * (255 - sa) := Nat.mul_le_mul_right _ hda
  unfold overAlpha
  omega

/-- The exact quotient of a lane is at most 255, so no clamp is needed (R129). -/
theorem overLane_le {sc dc : Nat} (hsc : sc ≤ 255) (hdc : dc ≤ 255) (sa da : Nat) :
    overLane sc sa dc da ≤ 255 * overAlpha sa da := by
  have hsource : 255 * sc * sa ≤ 255 * (255 * sa) := by
    rw [Nat.mul_assoc]; exact Nat.mul_le_mul_left _ (Nat.mul_le_mul_right _ hsc)
  have hdest : dc * da * (255 - sa) ≤ 255 * (da * (255 - sa)) := by
    rw [Nat.mul_assoc]; exact Nat.mul_le_mul_right _ hdc
  unfold overLane overAlpha
  omega

theorem overPixel_transparent {s : Pixel} (h : s.a = 0#8) (d : Pixel) : overPixel s d = d := if_pos h

theorem overPixel_opaque {s : Pixel} (h : s.a = 255#8) (d : Pixel) : overPixel s d = ⟨s.r, s.g, s.b, 255#8⟩ := by
  have hne : ¬ s.a = 0#8 := by rw [h]; decide
  rw [overPixel, if_neg hne, if_pos h]

/-- The general formula gives an opaque source whole: R130 (a). -/
theorem rdiv_overLane_opaque (sc : Byte) (dc da : Nat) :
    sc.toNat = rdiv (overLane sc.toNat 255 dc da) (overAlpha 255 da) := by
  have hlane : overLane sc.toNat 255 dc da = sc.toNat * 65025 := by unfold overLane; omega
  have halpha : overAlpha 255 da = 65025 := by unfold overAlpha; omega
  rw [hlane, halpha, rdiv_mul _ (by decide)]

/-- For every source that is not transparent the channels of `over` are the exact quotients rounded once (R129, R130). -/
theorem overPixel_toNat {s : Pixel} (hs : s.a ≠ 0#8) (d : Pixel) :
    (overPixel s d).a.toNat = rdiv (overAlpha s.a.toNat d.a.toNat) 255
    ∧ (overPixel s d).r.toNat
        = rdiv (overLane s.r.toNat s.a.toNat d.r.toNat d.a.toNat) (overAlpha s.a.toNat d.a.toNat)
    ∧ (overPixel s d).g.toNat
        = rdiv (overLane s.g.toNat s.a.toNat d.g.toNat d.a.toNat) (overAlpha s.a.toNat d.a.toNat)
    ∧ (overPixel s d).b.toNat
        = rdiv (overLane s.b.toNat s.a.toNat d.b.toNat d.a.toNat) (overAlpha s.a.toNat d.a.toNat) := by
  by_cases hopaque : s.a = 255#8
  · have halpha : 255 = rdiv (overAlpha 255 d.a.toNat) 255 := by
      rw [overAlpha, Nat.sub_self, Nat.mul_zero, Nat.add_zero, rdiv_mul _ (by decide)]
    rw [overPixel_opaque hopaque, hopaque]
    exact ⟨halpha, rdiv_overLane_opaque _ _ _, rdiv_overLane_opaque _ _ _, rdiv_overLane_opaque _ _ _⟩
  · have hpos : 0 < s.a.toNat := Nat.pos_of_ne_zero fun h => hs (BitVec.eq_of_toNat_eq h)
    obtain ⟨hlow, hhigh⟩ := overAlpha_bounds hpos (Nat.le_of_lt_succ s.a.isLt) (Nat.le_of_lt_succ d.a.isLt)
    have lane (sc dc : Byte) := toNat_ofNat_rdiv (Nat.lt_of_lt_of_le (by decide) hlow)
      (overLane_le (Nat.le_of_lt_succ sc.isLt) (Nat.le_of_lt_succ dc.isLt) s.a.toNat d.a.toNat)
    rw [overPixel, if_neg hs, if_neg hopaque]
    exact ⟨toNat_ofNat_rdiv (by decide) hhigh, lane s.r d.r, lane s.g d.g, lane s.b d.b⟩

/-- Settles O32: the three cases of `over`; the quotients are at most 255. -/
theorem overRoundsExactQuotient : Obligations.OverRoundsExactQuotient := by
  unfold Obligations.OverRoundsExactQuotient
  intro s d
  refine ⟨fun h => overPixel_transparent h d, fun h => overPixel_opaque h d, fun hs => ?_⟩
  have hpos : 0 < s.a.toNat := Nat.pos_of_ne_zero fun h => hs (BitVec.eq_of_toNat_eq h)
  obtain ⟨hlow, hhigh⟩ := overAlpha_bounds hpos (Nat.le_of_lt_succ s.a.isLt) (Nat.le_of_lt_succ d.a.isLt)
  exact ⟨hlow, hhigh, overPixel_toNat hs d⟩

/-- Over an opaque destination `NA` is 255 times 255, and a lane needs one division by 255: R130 (c). -/
theorem rdiv_overLane_of_opaque {sa : Nat} (hsa : sa ≤ 255) (sc dc : Nat) :
    rdiv (overLane sc sa dc 255) (overAlpha sa 255) = rdiv (sc * sa + dc * (255 - sa)) 255 := by
  have hlane : overLane sc sa dc 255 = 255 * (sc * sa + dc * (255 - sa)) := by unfold overLane; ring
  have halpha : overAlpha sa 255 = 255 * 255 := by unfold overAlpha; omega
  rw [hlane, halpha, rdiv_mul_mul (by decide)]

/-- `over` an opaque destination (R130 (c)). -/
theorem overPixel_of_opaque (s : Pixel) {d : Pixel} (hd : d.a = 255#8) :
    (overPixel s d).a = 255#8
    ∧ (overPixel s d).r.toNat = rdiv (s.r.toNat * s.a.toNat + d.r.toNat * (255 - s.a.toNat)) 255
    ∧ (overPixel s d).g.toNat = rdiv (s.g.toNat * s.a.toNat + d.g.toNat * (255 - s.a.toNat)) 255
    ∧ (overPixel s d).b.toNat = rdiv (s.b.toNat * s.a.toNat + d.b.toNat * (255 - s.a.toNat)) 255 := by
  by_cases hs : s.a = 0#8
  · have kept (sc dc : Byte) : dc.toNat = rdiv (sc.toNat * 0 + dc.toNat * (255 - 0)) 255 := by
      rw [Nat.mul_zero, Nat.zero_add, rdiv_mul _ (by decide)]
    rw [overPixel_transparent hs, hs]
    exact ⟨hd, kept _ _, kept _ _, kept _ _⟩
  · have hsa : s.a.toNat ≤ 255 := Nat.le_of_lt_succ s.a.isLt
    obtain ⟨ha, hr, hg, hb⟩ := overPixel_toNat hs d
    rw [hd, show (255#8).toNat = 255 from rfl] at ha hr hg hb
    have halpha : overAlpha s.a.toNat 255 = 255 * 255 := by unfold overAlpha; omega
    refine ⟨BitVec.eq_of_toNat_eq (ha.trans ?_), hr.trans (rdiv_overLane_of_opaque hsa _ _),
      hg.trans (rdiv_overLane_of_opaque hsa _ _), hb.trans (rdiv_overLane_of_opaque hsa _ _)⟩
    rw [halpha, rdiv_mul _ (by decide)]
    rfl

/-- Two channels that agree in source and destination agree in the result: R130 (d). -/
theorem overPixel_gray {s d : Pixel} (hsg : s.r = s.g) (hsb : s.r = s.b) (hdg : d.r = d.g) (hdb : d.r = d.b) :
    (overPixel s d).r = (overPixel s d).g ∧ (overPixel s d).r = (overPixel s d).b := by
  unfold overPixel
  split
  · exact ⟨hdg, hdb⟩
  · split
    · exact ⟨hsg, hsb⟩
    · simp only [← hsg, ← hsb, ← hdg, ← hdb, and_self]

/-- Settles O33: over an opaque destination `NA` is constant; all channels are computed alike. -/
theorem overKeepsOpaqueAndGray : Obligations.OverKeepsOpaqueAndGray := by
  unfold Obligations.OverKeepsOpaqueAndGray
  exact fun s d => ⟨overPixel_of_opaque s, overPixel_gray⟩

/-! ### `luma` (R132, R133) -/

/-- The weights sum to 1000, so the luma of three bytes is a byte (R132). -/
theorem luma_toNat (r g b : Byte) :
    (luma r g b).toNat = (299 * r.toNat + 587 * g.toNat + 114 * b.toNat + 500) / 1000 := by
  rw [luma, toNat_ofNat_rdiv (by decide) (by omega), rdiv]
  omega

theorem luma_gray (v : Byte) : luma v v v = v :=
  BitVec.eq_of_toNat_eq (by rw [luma_toNat]; omega)

theorem grayPixel_grayPixel (p : Pixel) : grayPixel (grayPixel p) = grayPixel p := by
  simp only [grayPixel, luma_gray]

/-! ### A page (R137) -/

/-- Opaque white stays opaque under every layer (R130 (c)). -/
theorem State.pageCanvas_opaque (s : State) (ls : List (Word × Word × Byte)) (p : Nat) :
    (s.pageCanvas ls p).a = 255#8 := by
  refine List.foldlRecOn (motive := fun d : Pixel => d.a = 255#8) ls _ rfl fun d hd l _ => ?_
  split
  · exact (overPixel_of_opaque _ hd).1
  · exact hd

/-- Settles O54: the layers keep white opaque, and GRAY keeps alpha and makes the channels equal. -/
theorem pageIsOpaqueAndGray : Obligations.PageIsOpaqueAndGray := by
  unfold Obligations.PageIsOpaqueAndGray
  exact fun s ls p => ⟨s.pageCanvas_opaque ls p, rfl, rfl⟩

end Sys2Proof.Machine
end

section
/-! PROOF. The commands NOP, CCLR, LCLR, BLEND and GRAY (R120 to R122, R128 to R134), and what a DECODE starts from and
depends on (R124, R127). -/

namespace Sys2Proof.Machine

/-! ### The frame of a command with a page (R135, R151) -/

/-- A command whose page fits is its body inside the frame. -/
theorem runCommand_of_fits {s : State} (hpage : s.npix ≤ s.cfg.maxPix) (body : State → State) :
    s.runCommand false s.pageCheck body = body s.beginCommand := by
  rw [pageCheck_none hpage]; rfl

/-- A command whose page does not fit faults DIM and does nothing else. -/
theorem runCommand_of_dim {s : State} (hpage : s.cfg.maxPix < s.npix) (body : State → State) :
    s.runCommand false s.pageCheck body = { s with busy := false, done := true, fault := true, causeCode := 2 } := by
  rw [pageCheck_dim hpage]; rfl

/-- Settles O27: NOP checks nothing and its body is empty. -/
theorem nopChangesStatusOnly : Obligations.NopChangesStatusOnly := by
  unfold Obligations.NopChangesStatusOnly
  exact ⟨by decide, fun _ => rfl⟩

/-! ### The clears (R121, R122) -/

theorem pixelLane_uniform (v : Byte) (lane : Nat) : pixelLane ⟨v, v, v, v⟩ lane = v := by
  unfold pixelLane
  split <;> rfl

/-- A byte of the memory after its first `n` pixels were filled with four equal bytes. -/
theorem Memory.get_fillPixels_uniform (m : Memory) (n : Nat) (v : Byte) (a : Nat) :
    (m.fillPixels 0 n ⟨v, v, v, v⟩).get a = if a < 4 * n then some v else m.get a := by
  rw [Memory.get_fillPixels, pixelLane_uniform]
  simp only [Nat.mul_zero, Nat.zero_le, true_and, Nat.zero_add]

/-- Settles O28: CANVAS is filled with pixels of four bytes 0xFF. -/
theorem cclrWhitensCanvas : Obligations.CclrWhitensCanvas := by
  unfold Obligations.CclrWhitensCanvas
  refine ⟨by decide, fun s => ⟨fun hpage => ?_, fun hpage => congrArg _ (runCommand_of_dim hpage _)⟩⟩
  refine ⟨s.beginCommand.cclrBody.endCommand, congrArg _ (runCommand_of_fits hpage _), fun a => ?_, rfl⟩
  show ((s.canvas.fillPixels 0 s.npix ⟨255, 255, 255, 255⟩).get a).getD _ = _
  rw [Memory.get_fillPixels_uniform]
  split <;> rfl

/-- Settles O29: LBUF is filled with pixels of four bytes 0. -/
theorem lclrZeroesLbuf : Obligations.LclrZeroesLbuf := by
  unfold Obligations.LclrZeroesLbuf
  refine ⟨by decide, fun s => ⟨fun hpage => ?_, fun hpage => congrArg _ (runCommand_of_dim hpage _)⟩⟩
  refine ⟨s.beginCommand.lclrBody.endCommand, congrArg _ (runCommand_of_fits hpage _), fun a => ?_, rfl⟩
  show ((s.lbuf.fillPixels 0 s.npix ⟨0, 0, 0, 0⟩).get a).getD _ = _
  rw [Memory.get_fillPixels_uniform]
  split <;> rfl

/-! ### The compositor (R128, R131, R134) -/

/-- `t` is `s` with the pixels of `f` below NPIX written to CANVAS. -/
structure Composited (f : Nat → Option Pixel) (s t : State) : Prop where
  canvas : t.canvas = s.canvas.writePixels s.npix f
  frame : endedWithCanvas s t

namespace Composited
variable {f : Nat → Option Pixel} {s t : State} (h : Composited f s t)
include h

theorem byteAt (a : Nat) : t.byteAt .canvas a =
    if a / 4 < s.npix then ((f (a / 4)).map (pixelLane · (a % 4))).getD (s.byteAt .canvas a)
    else s.byteAt .canvas a := by
  have hframe : t.unwritten .canvas a = s.unwritten .canvas a := by rw [h.frame]; rfl
  unfold State.byteAt
  rw [hframe, show t.mem .canvas = _ from h.canvas, Memory.get_writePixels]
  split
  · cases f (a / 4) <;> rfl
  · rfl

/-- A pixel that was written. -/
theorem pixelAt_some {p : Nat} {px : Pixel} (hp : p < s.npix) (hf : f p = some px) : t.pixelAt .canvas p = px :=
  State.pixelAt_eq fun a ha => by rw [h.byteAt, if_pos (by omega), ha, hf]; rfl

/-- A byte of a pixel that was not written. -/
theorem byteAt_kept {a : Nat} (ha : s.npix ≤ a / 4 ∨ f (a / 4) = none) : t.byteAt .canvas a = s.byteAt .canvas a := by
  rw [h.byteAt]
  rcases ha with ha | hf
  · rw [if_neg (Nat.not_lt_of_le ha)]
  · rw [hf]; exact ite_self _

end Composited

theorem exec_blend_composited {s : State} (hpage : s.npix ≤ s.cfg.maxPix) :
    ∃ t, exec .blend s = .next t ∧ Composited s.blendAt s t :=
  ⟨s.beginCommand.blendBody.endCommand, congrArg _ (runCommand_of_fits hpage _), rfl, rfl⟩

theorem exec_gray_composited {s : State} (hpage : s.npix ≤ s.cfg.maxPix) :
    ∃ t, exec .gray s = .next t ∧ Composited (fun p => some (grayPixel (s.pixelAt .canvas p))) s t :=
  ⟨s.beginCommand.grayBody.endCommand, congrArg _ (runCommand_of_fits hpage _), rfl, rfl⟩

/-- Settles O30: BLEND composites `over` of the two pixels where the source is not transparent. -/
theorem blendPaintsOver : Obligations.BlendPaintsOver := by
  unfold Obligations.BlendPaintsOver
  intro s hpage
  obtain ⟨t, hexec, ht⟩ := exec_blend_composited hpage
  exact ⟨t, hexec, fun p hp ha => ht.pixelAt_some hp (if_neg ha),
    fun a ha => ht.byteAt_kept (ha.imp_right fun hclear => if_pos hclear), ht.frame⟩

/-- Settles O31: GRAY composites the gray of every pixel. -/
theorem grayTakesLuma : Obligations.GrayTakesLuma := by
  unfold Obligations.GrayTakesLuma
  intro s hpage
  obtain ⟨t, hexec, ht⟩ := exec_gray_composited hpage
  refine ⟨t, hexec, fun p hp => ?_, fun a ha => ht.byteAt_kept (.inl (by omega)), ht.frame⟩
  rw [ht.pixelAt_some hp rfl]
  exact ⟨rfl, rfl, rfl, luma_toNat _ _ _⟩

/-- Settles O34: the gray of a gray pixel is that pixel, and above the page GRAY writes nothing. -/
theorem grayIsIdempotent : Obligations.GrayIsIdempotent := by
  unfold Obligations.GrayIsIdempotent
  refine ⟨luma_gray, fun s t u hpage hst htu a => ?_⟩
  obtain ⟨t', hst', ht⟩ := exec_gray_composited hpage
  obtain rfl : t = t' := Host.Outcome.next.inj (hst.symm.trans hst')
  have hnpix : t.npix = s.npix := by rw [ht.frame]; rfl
  obtain ⟨u', htu', hu⟩ := exec_gray_composited (s := t) (by rw [hnpix, ht.frame]; exact hpage)
  obtain rfl : u = u' := Host.Outcome.next.inj (htu.symm.trans htu')
  by_cases hp : a / 4 < s.npix
  · have hpixel : u.pixelAt .canvas (a / 4) = t.pixelAt .canvas (a / 4) := by
      rw [hu.pixelAt_some (by omega) rfl, ht.pixelAt_some hp rfl, grayPixel_grayPixel]
    rw [State.byteAt_eq_lane, hpixel, ← State.byteAt_eq_lane]
  · exact hu.byteAt_kept (.inl (by omega))

/-! ### What a DECODE starts from and depends on (R124, R127) -/

/-- Settles O19: stepped pair by pair, DECODE's own step is R124 inside the frame. -/
theorem steppedDecodeStarts : Obligations.SteppedDecodeStarts := by
  unfold Obligations.SteppedDecodeStarts
  intro s hsteps hpage hstream
  have hcheck : s.decodeCheck 0 = none := decodeCheck_none_iff.mpr ⟨hpage, rfl, hstream⟩
  show execDecode 0 s = _
  rw [execDecode_of_checks hcheck, if_pos hsteps]
  rfl

/-- The stream is what the registers name of CBUF's bytes (R52). -/
theorem streamPairs_congr {s t : State} (haddr : s.srcAddr = t.srcAddr) (hlen : s.srcLen = t.srcLen)
    (hbytes : ∀ a, s.byteAt .cbuf a = t.byteAt .cbuf a) : s.streamPairs = t.streamPairs := by
  unfold State.streamPairs
  simp only [haddr, hlen, hbytes]

theorem npix_congr {s t : State} (hw : s.pageW = t.pageW) (hh : s.pageH = t.pageH) : s.npix = t.npix := by
  unfold State.npix
  rw [hw, hh]

theorem decodeCheck_congr {s t : State} (hcfg : s.cfg = t.cfg) (hnpix : s.npix = t.npix) (haddr : s.srcAddr = t.srcAddr)
    (hlen : s.srcLen = t.srcLen) (proto : Byte) : s.decodeCheck proto = t.decodeCheck proto := by
  unfold State.decodeCheck
  rw [hcfg, hnpix, haddr, hlen]

/-- Settles O21: every register, flag and pixel named is a function of the stream, NPIX and the parameters (R111). -/
theorem decodeForgetsThePast : Obligations.DecodeForgetsThePast := by
  unfold Obligations.DecodeForgetsThePast
  intro s1 s2 t1 t2 hcfg hsteps hw hh haddr hlen hcheck hbytes h1 h2
  have hnpix := npix_congr hw hh
  have hpairs := streamPairs_congr haddr hlen hbytes
  obtain ⟨hpage1, -, hstream1⟩ := decodeCheck_none_iff.mp hcheck
  obtain ⟨hpage2, -, hstream2⟩ := decodeCheck_none_iff.mp ((decodeCheck_congr hcfg hnpix haddr hlen 0).symm.trans hcheck)
  obtain ⟨t, ht, hcursor1, hpixel1, hrdptr1, hhold1, hclip1, hodd1, htailf1, hunder1, -⟩ :=
    decodeAsOneTransition s1 hsteps hpage1 hstream1
  obtain rfl : t1 = t := Host.Outcome.next.inj (h1.symm.trans ht)
  obtain ⟨t, ht, hcursor2, hpixel2, hrdptr2, hhold2, hclip2, hodd2, htailf2, hunder2, -⟩ :=
    decodeAsOneTransition s2 (hcfg ▸ hsteps) hpage2 hstream2
  obtain rfl : t2 = t := Host.Outcome.next.inj (h2.symm.trans ht)
  rw [← hnpix, ← hpairs] at hcursor2 hpixel2 hclip2
  rw [← hpairs] at htailf2
  have hcursor : t1.cursor.toNat = t2.cursor.toNat := hcursor1.trans hcursor2.symm
  refine ⟨BitVec.eq_of_toNat_eq hcursor, BitVec.eq_of_toNat_eq (by rw [hrdptr1, hrdptr2, hlen]),
    hclip1.trans hclip2.symm, by rw [hodd1, hodd2, hlen], by rw [hunder1, hunder2, hcursor, hnpix],
    htailf1.trans htailf2.symm, hhold1.trans hhold2.symm, fun p hp => ?_⟩
  rw [hpixel1, hpixel2, List.getElem?_eq_getElem (hcursor1 ▸ hp), hcfg]

/-- The runs of a stream and of what follows it, taken with the holder the stream leaves (R111). -/
theorem runsOf_append (pairs more : List (Byte × Byte)) : ∀ held, runsOf held (pairs ++ more)
    = ((runsOf held pairs).1 ++ (runsOf (runsOf held pairs).2 more).1, (runsOf (runsOf held pairs).2 more).2) := by
  induction pairs with
  | nil => intro held; rfl
  | cons pair pairs ih =>
    intro held
    obtain ⟨c, n⟩ := pair
    rw [List.cons_append]
    cases held with
    | none =>
      simp only [runsOf, ih]
      by_cases hmax : n = 0xFF#8
      · simp only [hmax, if_true, List.cons_append]
      · by_cases hhigh : 128 ≤ n.toNat
        · simp only [hmax, hhigh, if_true, if_false]
        · simp only [hmax, hhigh, if_false, List.cons_append]
    | some held =>
      obtain ⟨hc, h⟩ := held
      simp only [runsOf, ih]
      by_cases hcont : c = hc
      · simp only [hcont, if_true, List.cons_append]
      · by_cases hmax : n = 0xFF#8
        · simp only [hcont, hmax, if_true, if_false, List.cons_append]
        · by_cases hhigh : 128 ≤ n.toNat
          · simp only [hcont, hmax, hhigh, if_true, if_false, List.cons_append]
          · simp only [hcont, hmax, hhigh, if_false, List.cons_append]

theorem layOut_append (rs rs' : List Run) : layOut (rs ++ rs') = layOut rs ++ layOut rs' := by
  simp [layOut]

/-- Settles O22: with no holder left the runs of the extension come after those of the stream. -/
theorem decodePrefix : Obligations.DecodePrefix := by
  unfold Obligations.DecodePrefix
  intro npix pairs more hnone
  have hstream : decodedColours npix pairs = (layOut (runsOf none pairs).1).take npix := by
    simp only [decodedColours, hnone]
    exact List.append_nil _
  rw [hstream, decodedColours, runsOf_append, layOut_append]
  exact ((List.prefix_append _ _).take npix).trans (List.prefix_append _ _)

end Sys2Proof.Machine
end

section
/-! PROOF. The page sequence (R136): what each action of the idle host makes of the page, one after another, and the page
that the whole leaves (R137). -/

namespace Sys2Proof.Machine

/-! ### Actions of an idle host, one after another (log 4) -/

/-- From every state with `P` whose host is to do `es` first, the machine does them, one step each, and is then in a state
with `Q`. -/
def Performs (es : List HostEvent) (P Q : State → Prop) : Prop :=
  ∀ (t : State) (rest : List HostEvent), P t → t.inputs = es ++ rest →
    ∃ u, (∀ n, Sys2Proof.core.run (es.length + n) t = Sys2Proof.core.run n u) ∧ u.inputs = rest ∧ Q u

section
variable {P Q R : State → Prop}

theorem Performs.nil (P : State → Prop) : Performs [] P P :=
  fun t _ hP hi => ⟨t, fun n => by rw [List.length_nil, Nat.zero_add], hi, hP⟩

theorem Performs.append {es es' : List HostEvent} (h : Performs es P Q) (h' : Performs es' Q R) :
    Performs (es ++ es') P R := by
  intro t rest hP hi
  obtain ⟨u, hrun, hinputs, hQ⟩ := h t (es' ++ rest) hP (hi.trans (List.append_assoc _ _ _))
  obtain ⟨v, hrun', hinputs', hR⟩ := h' u rest hQ hinputs
  refine ⟨v, fun n => ?_, hinputs', hR⟩
  rw [List.length_append, Nat.add_assoc, hrun, hrun']

theorem Performs.of_hostAct {act : HostAct} (hidle : ∀ t, P t → t.busy = false)
    (h : ∀ t rest, P t → ∃ u, hostAct act (t.withInputs rest) = .next u ∧ u.inputs = rest ∧ Q u) :
    Performs [polite act] P Q := by
  intro t rest hP hi
  obtain ⟨u, hact, hinputs, hQ⟩ := h t rest hP
  refine ⟨u, fun n => ?_, hinputs, hQ⟩
  rw [List.length_singleton, Nat.add_comm]
  exact run_succ ((step_host (hidle t hP) hi).trans hact) n

/-- A word that decodes to an instruction, written to CMD, runs it (R21). -/
theorem Performs.of_exec {w : Word} {i : Instr} (hd : decodeCommand w = .ok i) (hidle : ∀ t, P t → t.busy = false)
    (h : ∀ t rest, P t → ∃ u, exec i (t.withInputs rest) = .next u ∧ u.inputs = rest ∧ Q u) :
    Performs [issue i] P Q := by
  have hissue : issue i = polite (.writeReg 0 w) := by rw [issue, encode_of_decodeCommand hd]
  rw [hissue]
  refine Performs.of_hostAct hidle fun t rest hP => ?_
  obtain ⟨u, hexec, hu⟩ := h t rest hP
  exact ⟨u, (writeCommand_of_decodes (s := t.withInputs rest) (hidle t hP) hd).trans hexec, hu⟩

end

/-! ### The page while it is rendered -/

/-- In `t` the block is idle, and the parameters, the page size and CBUF are those of `s`. -/
structure SamePage (s t : State) : Prop where
  idle : t.busy = false
  cfg : t.cfg = s.cfg
  pageW : t.pageW = s.pageW
  pageH : t.pageH = s.pageH
  cbuf : t.cbuf = s.cbuf
  cbufResets : t.cbufResets = s.cbufResets

/-- A command that ended without a fault and changed at most CANVAS stays on the page. -/
theorem SamePage.ended {s t u : State} (h : SamePage s t) (hu : endedWithCanvas t u) :
    SamePage s u ∧ u.warnCnt = t.warnCnt ∧ u.inputs = t.inputs ∧ u.fault = false := by
  rw [hu]
  exact ⟨⟨rfl, h.cfg, h.pageW, h.pageH, h.cbuf, h.cbufResets⟩, rfl, rfl, rfl⟩

/-- On the way from `s` through the page sequence: CANVAS shows `px` below NPIX and is that of `s` above, and WARNCNT is
`n`. -/
structure OnPage (s : State) (px : Nat → Pixel) (n : Nat) (t : State) : Prop extends SamePage s t where
  pixels : ∀ p < s.npix, t.pixelAt .canvas p = px p
  above : ∀ a, 4 * s.npix ≤ a → t.byteAt .canvas a = s.byteAt .canvas a
  warnCnt : t.warnCnt.toNat = n

/-- `u` differs from `t` in nothing that shows on the page. -/
def OffPage (t u : State) : Prop :=
  u = { t with
    busy := u.busy, done := u.done, fault := u.fault, busyErr := u.busyErr, clip := u.clip, odd := u.odd
    under := u.under, tailf := u.tailf, srcAddr := u.srcAddr, srcLen := u.srcLen, rdptr := u.rdptr, cursor := u.cursor
    holdV := u.holdV, holdC := u.holdC, holdN := u.holdN, causeCode := u.causeCode, warnCnt := u.warnCnt
    lbuf := u.lbuf, poison := u.poison, tampered := u.tampered, inputs := u.inputs, responses := u.responses }

namespace OnPage
variable {s t u : State} {px : Nat → Pixel} {n : Nat} (h : OnPage s px n t)
include h

theorem npix : t.npix = s.npix := npix_congr h.pageW h.pageH

theorem fits (hpage : s.npix ≤ s.cfg.maxPix) (rest : List HostEvent) :
    (t.withInputs rest).npix ≤ (t.withInputs rest).cfg.maxPix := by
  show t.npix ≤ t.cfg.maxPix
  rwa [h.npix, h.cfg]

theorem of_offPage {m : Nat} (hu : OffPage t u) (hb : u.busy = false) (hm : u.warnCnt.toNat = m) : OnPage s px m u where
  idle := hb
  cfg := by rw [hu]; exact h.cfg
  pageW := by rw [hu]; exact h.pageW
  pageH := by rw [hu]; exact h.pageH
  cbuf := by rw [hu]; exact h.cbuf
  cbufResets := by rw [hu]; exact h.cbufResets
  pixels p hp := by rw [hu]; exact h.pixels p hp
  above a ha := by rw [hu]; exact h.above a ha
  warnCnt := hm

/-- A command that composites pixels from a state on the page. -/
theorem composited {rest : List HostEvent} {f : Nat → Option Pixel} {px' : Nat → Pixel}
    (hu : Composited f (t.withInputs rest) u) (hpx : ∀ p < s.npix, (f p).getD (px p) = px' p) :
    OnPage s px' n u ∧ u.inputs = rest ∧ u.fault = false := by
  have hstart : SamePage s (t.withInputs rest) := ⟨h.idle, h.cfg, h.pageW, h.pageH, h.cbuf, h.cbufResets⟩
  obtain ⟨hsame, hwarn, hrest⟩ := hstart.ended hu.frame
  have hnpix : (t.withInputs rest).npix = s.npix := h.npix
  refine ⟨⟨hsame, fun p hp => ?_, fun a ha => ?_, (congrArg BitVec.toNat hwarn).trans h.warnCnt⟩, hrest⟩
  · rw [← hpx p hp]
    cases hf : f p with
    | some q => exact hu.pixelAt_some (hnpix.symm ▸ hp) hf
    | none => exact (State.pixelAt_congr fun a ha => hu.byteAt_kept (.inr (ha ▸ hf))).trans (h.pixels p hp)
  · exact (hu.byteAt_kept (.inl (by omega))).trans (h.above a ha)

end OnPage

section
variable {s : State} {px : Nat → Pixel} {n : Nat}

/-- CCLR, from the idle start, makes the page white and WARNCNT 0 (R121). -/
theorem performs_cclr (hb : s.busy = false) (hpage : s.npix ≤ s.cfg.maxPix) :
    Performs [issue .cclr] (· = s) (OnPage s (fun _ => ⟨255, 255, 255, 255⟩) 0) := by
  obtain ⟨hword, hcclr⟩ := cclrWhitensCanvas
  refine Performs.of_exec hword (fun t ht => ht ▸ hb) ?_
  rintro t rest rfl
  obtain ⟨u, hexec, hbytes, hframe⟩ := (hcclr (t.withInputs rest)).1 hpage
  have hstart : SamePage t { t.withInputs rest with warnCnt := 0 } := ⟨hb, rfl, rfl, rfl, rfl, rfl⟩
  obtain ⟨hsame, hwarn, hrest, -⟩ := hstart.ended hframe
  refine ⟨u, hexec, hrest, hsame, fun p hp => State.pixelAt_eq fun a ha => ?_,
    fun a ha => (hbytes a).trans (if_neg (Nat.not_lt_of_le ha)), congrArg BitVec.toNat hwarn⟩
  have hin : a < 4 * (t.withInputs rest).npix := by
    show a < 4 * t.npix
    omega
  rw [hbytes, if_pos hin]
  exact (pixelLane_uniform 255 _).symm

/-- A read shows on no page. -/
theorem OnPage.read {t : State} (h : OnPage s px n t) (rest : List HostEvent) (rs : List Response) :
    OnPage s px n { t.withInputs rest with responses := rs } :=
  h.of_offPage rfl h.idle h.warnCnt

/-! ### One layer (R136) -/

/-- On the page, the stream registers name layer `l` (log 21). -/
structure OnStream (s : State) (px : Nat → Pixel) (n : Nat) (l : Word × Word × Byte) (t : State) : Prop
    extends OnPage s px n t where
  srcAddr : t.srcAddr = streamAddress l.1
  srcLen : t.srcLen = l.2.1

/-- On the page, LBUF shows `q` below NPIX. -/
structure OnSource (s : State) (px : Nat → Pixel) (n : Nat) (q : Nat → Pixel) (t : State) : Prop
    extends OnPage s px n t where
  source : ∀ p < s.npix, t.pixelAt .lbuf p = q p

/-- The host writes the stream registers (R136). -/
theorem performs_writeStream (l : Word × Word × Byte) :
    Performs [polite (.writeReg 4 (streamAddress l.1)), polite (.writeReg 5 l.2.1)]
      (OnPage s px n) (OnStream s px n l) := by
  have haddr : Performs [polite (.writeReg 4 (streamAddress l.1))] (OnPage s px n)
      fun t => OnPage s px n t ∧ t.srcAddr = streamAddress l.1 := by
    refine Performs.of_hostAct (fun t h => h.idle) fun t rest h => ?_
    obtain ⟨-, -, hwrite, -⟩ := hostAct_writeConfig (s := t.withInputs rest) h.idle (streamAddress l.1)
    exact ⟨_, hwrite, rfl, h.of_offPage rfl h.idle h.warnCnt, rfl⟩
  have hlen : Performs [polite (.writeReg 5 l.2.1)] (fun t => OnPage s px n t ∧ t.srcAddr = streamAddress l.1)
      (OnStream s px n l) := by
    refine Performs.of_hostAct (fun t h => h.1.idle) fun t rest ⟨h, ha⟩ => ?_
    obtain ⟨-, -, -, hwrite⟩ := hostAct_writeConfig (s := t.withInputs rest) h.idle l.2.1
    exact ⟨_, hwrite, rfl, h.of_offPage rfl h.idle h.warnCnt, ha, rfl⟩
  exact haddr.append hlen

/-- LCLR makes LBUF transparent black (R122). -/
theorem performs_lclr (hpage : s.npix ≤ s.cfg.maxPix) (l : Word × Word × Byte) :
    Performs [issue .lclr] (OnStream s px n l)
      fun t => OnStream s px n l t ∧ OnSource s px n (fun _ => ⟨0, 0, 0, 0⟩) t := by
  obtain ⟨hword, hlclr⟩ := lclrZeroesLbuf
  refine Performs.of_exec hword (fun t h => h.idle) fun t rest h => ?_
  obtain ⟨u, hexec, hbytes, hframe⟩ := (hlclr (t.withInputs rest)).1 (h.fits hpage rest)
  have hoff : OffPage t u := by
    unfold OffPage
    rw [hframe]
    rfl
  have hu : OnPage s px n u := h.of_offPage hoff (by rw [hframe]) (by rw [hframe]; exact h.warnCnt)
  refine ⟨u, hexec, by rw [hframe]; rfl, ⟨hu, by rw [hframe]; exact h.srcAddr, by rw [hframe]; exact h.srcLen⟩, hu,
    fun p hp => State.pixelAt_eq fun a ha => ?_⟩
  have hin : a < 4 * (t.withInputs rest).npix := by
    show a < 4 * t.npix
    rw [h.npix]
    omega
  rw [hbytes, if_pos hin, pixelLane_uniform]

theorem OnStream.decodeCheck {l : Word × Word × Byte} {t : State} (h : OnStream s px n l t) (rest : List HostEvent) :
    (t.withInputs rest).decodeCheck l.2.2 = (s.forLayer l).decodeCheck l.2.2 :=
  decodeCheck_congr (t := s.forLayer l) h.cfg h.npix h.srcAddr h.srcLen l.2.2

theorem OnStream.streamPairs {l : Word × Word × Byte} {t : State} (h : OnStream s px n l t) (rest : List HostEvent) :
    (t.withInputs rest).streamPairs = (s.forLayer l).streamPairs :=
  streamPairs_congr (t := s.forLayer l) h.srcAddr h.srcLen fun a => State.cbufByte_congr h.cbuf h.cbufResets a

/-- A DECODE whose checks pass leaves FAULT 0 and the layer's pixels in LBUF (R123 to R126). -/
theorem performs_decode {l : Word × Word × Byte} (hsteps : s.cfg.pairSteps = false) (hok : s.layerOk l = true) :
    Performs [issue (.decode l.2.2)] (fun t => OnStream s px n l t ∧ OnSource s px n (fun _ => ⟨0, 0, 0, 0⟩) t)
      fun t => OnSource s px n (s.layerPixel l) t ∧ t.fault = false := by
  refine Performs.of_exec (decodeCommand_decodeWord l.2.2) (fun t h => h.1.idle) fun t rest ⟨h, hblank⟩ => ?_
  obtain ⟨hpage, hproto, hstream⟩ :=
    decodeCheck_none_iff.mp ((h.decodeCheck rest).trans (Option.isNone_iff_eq_none.mp hok))
  have hpairs := h.streamPairs rest
  obtain ⟨u, hexec, -, hpixel, -, -, -, -, -, -, hframe⟩ :=
    decodeAsOneTransition (t.withInputs rest) ((congrArg Config.pairSteps h.cfg).trans hsteps) hpage hstream
  have hoff : OffPage t u := by
    unfold OffPage
    rw [hframe]
    rfl
  have hu : OnPage s px n u := h.of_offPage hoff (by rw [hframe]) (by rw [hframe]; exact h.warnCnt)
  refine ⟨u, by rw [hproto]; exact hexec, by rw [hframe]; rfl, ⟨hu, fun p hp => ?_⟩, by rw [hframe]⟩
  have hnpix : (t.withInputs rest).npix = s.npix := h.npix
  have hcfg : (t.withInputs rest).cfg = s.cfg := h.cfg
  have hzero : (t.withInputs rest).pixelAt .lbuf p = ⟨0, 0, 0, 0⟩ := hblank.source p hp
  have hp' := hpixel p
  rw [hnpix, hpairs, hcfg, hzero] at hp'
  exact hp'

theorem decodeCheck_ne_illcmd {t : State} {proto : Byte} {cause : Cause} (h : t.decodeCheck proto = some cause) :
    cause ≠ .illcmd := by
  unfold State.decodeCheck at h
  split_ifs at h <;> cases h <;> decide

theorem warnSucc_toNat (v : Byte) : (warnSucc v).toNat = min 255 (v.toNat + 1) := by
  rw [warnSucc, BitVec.toNat_ofNat, Nat.mod_eq_of_lt (by omega)]

/-- A DECODE that faults leaves FAULT 1 and counts in WARNCNT, saturating (R28, R155). -/
theorem performs_faultingDecode {l : Word × Word × Byte} (hbad : s.layerOk l = false) :
    Performs [issue (.decode l.2.2)] (fun t => OnStream s px n l t ∧ OnSource s px n (fun _ => ⟨0, 0, 0, 0⟩) t)
      fun t => OnPage s px (min 255 (n + 1)) t ∧ t.fault = true := by
  refine Performs.of_exec (decodeCommand_decodeWord l.2.2) (fun t h => h.1.idle) fun t rest ⟨h, _⟩ => ?_
  obtain ⟨cause, hcause⟩ := Option.isSome_iff_exists.mp (Option.isNone_eq_false_iff.mp hbad)
  have hcheck := (h.decodeCheck rest).trans hcause
  have hwarn : ((t.withInputs rest).beginCommand.raise true cause).warnCnt = warnSucc t.warnCnt := by
    have hne : (cause != .illcmd) = true := bne_iff_ne.mpr (decodeCheck_ne_illcmd hcheck)
    rw [State.raise_warnCnt, hne]
    rfl
  refine ⟨(t.withInputs rest).beginCommand.raise true cause, ?_, rfl, h.of_offPage rfl rfl ?_, rfl⟩
  · show Host.Outcome.next (State.runCommand _ true _ _) = _
    rw [hcheck]
    rfl
  · rw [hwarn, warnSucc_toNat, h.warnCnt]

/-- After RD STATUS the host's last read shows FAULT (R22). -/
theorem readNoFault_statusRead (t : State) (rs : List Response) :
    State.readNoFault { t with responses := .word t.statusWord :: rs } = !t.fault := by
  obtain ⟨-, -, hfault, -⟩ := t.statusWord_fields
  exact congrArg not hfault

/-- RD STATUS (R136), after which the host knows FAULT; what a read leaves alone is as before. -/
theorem performs_readStatus {P : State → Prop} (fault : Bool) (hidle : ∀ t, P t → t.busy = false)
    (hread : ∀ t rest rs, P t → P { t.withInputs rest with responses := rs }) :
    Performs [polite (.readReg 1)] (fun t => P t ∧ t.fault = fault) fun t => P t ∧ t.readNoFault = !fault :=
  Performs.of_hostAct (fun t h => hidle t h.1) fun t rest ⟨h, hfault⟩ =>
    ⟨_, rfl, rfl, hread t rest _ h, (readNoFault_statusRead (t.withInputs rest) _).trans (congrArg not hfault)⟩

/-- With FAULT 0 read, the host's test blends LBUF over the page (R128, R136). -/
theorem performs_blend (hpage : s.npix ≤ s.cfg.maxPix) (q : Nat → Pixel) :
    Performs [polite (.writeCmdUnlessFault 4)] (fun t => OnSource s px n q t ∧ t.readNoFault = true)
      (OnPage s (fun p => overPixel (q p) (px p)) n) := by
  refine Performs.of_hostAct (fun t h => h.1.idle) fun t rest ⟨h, hread⟩ => ?_
  obtain ⟨u, hexec, hu⟩ := exec_blend_composited (h.fits hpage rest)
  have hword : decodeCommand 4 = .ok .blend := by decide
  have hact : hostAct (.writeCmdUnlessFault 4) (t.withInputs rest) = .next u :=
    (if_pos hread).trans ((writeCommand_of_decodes (s := t.withInputs rest) h.idle hword).trans hexec)
  have hover : ∀ p < s.npix, ((t.withInputs rest).blendAt p).getD (px p) = overPixel (q p) (px p) := by
    intro p hp
    have hsource : (t.withInputs rest).pixelAt .lbuf p = q p := h.source p hp
    have hdest : (t.withInputs rest).pixelAt .canvas p = px p := h.pixels p hp
    unfold State.blendAt
    rw [hsource, hdest]
    split
    case isTrue hclear => exact (overPixel_transparent hclear _).symm
    case isFalse => rfl
  obtain ⟨hpageOver, hrest, -⟩ := h.composited hu hover
  exact ⟨u, hact, hrest, hpageOver⟩

/-- With FAULT 1 read, the host's test does nothing (log 19). -/
theorem performs_skip : Performs [polite (.writeCmdUnlessFault 4)]
    (fun t => OnPage s px n t ∧ t.readNoFault = false) (OnPage s px n) := by
  refine Performs.of_hostAct (fun t h => h.1.idle) fun t rest ⟨h, hread⟩ => ?_
  have htest : ¬ (t.withInputs rest).readNoFault = true := Bool.eq_false_iff.mp hread
  exact ⟨t.withInputs rest, if_neg htest, rfl, h.of_offPage rfl h.idle h.warnCnt⟩

/-- A layer that decodes is blended over the page. -/
theorem performs_okLayer {l : Word × Word × Byte} (hsteps : s.cfg.pairSteps = false) (hpage : s.npix ≤ s.cfg.maxPix)
    (hok : s.layerOk l = true) : Performs (layerEvents l.1 l.2.1 l.2.2) (OnPage s px n)
      (OnPage s (fun p => overPixel (s.layerPixel l p) (px p)) n) := by
  have hstatus : Performs [polite (.readReg 1)] (fun t => OnSource s px n (s.layerPixel l) t ∧ t.fault = false)
      fun t => OnSource s px n (s.layerPixel l) t ∧ t.readNoFault = true :=
    performs_readStatus false (fun t h => h.idle) fun t rest rs h => ⟨h.read rest rs, h.source⟩
  exact (performs_writeStream l).append ((performs_lclr hpage l).append ((performs_decode hsteps hok).append
    (hstatus.append (performs_blend hpage _))))

/-- A layer whose DECODE faults is skipped and counted. -/
theorem performs_badLayer {l : Word × Word × Byte} (hpage : s.npix ≤ s.cfg.maxPix) (hbad : s.layerOk l = false) :
    Performs (layerEvents l.1 l.2.1 l.2.2) (OnPage s px n) (OnPage s px (min 255 (n + 1))) := by
  have hstatus : Performs [polite (.readReg 1)] (fun t => OnPage s px (min 255 (n + 1)) t ∧ t.fault = true)
      fun t => OnPage s px (min 255 (n + 1)) t ∧ t.readNoFault = false :=
    performs_readStatus true (fun t h => h.idle) fun t rest rs h => h.read rest rs
  exact (performs_writeStream l).append ((performs_lclr hpage l).append ((performs_faultingDecode hbad).append
    (hstatus.append performs_skip)))

/-! ### All layers, and the end (R136, R137) -/

theorem State.pageCanvas_concat (s : State) (ls : List (Word × Word × Byte)) (l : Word × Word × Byte) (p : Nat) :
    s.pageCanvas (ls ++ [l]) p
      = if s.layerOk l then overPixel (s.layerPixel l p) (s.pageCanvas ls p) else s.pageCanvas ls p := by
  rw [State.pageCanvas, List.foldl_append]
  rfl

theorem State.pageWarns_concat (s : State) (ls : List (Word × Word × Byte)) (l : Word × Word × Byte) :
    s.pageWarns (ls ++ [l]) = if s.layerOk l then s.pageWarns ls else min 255 (s.pageWarns ls + 1) := by
  unfold State.pageWarns
  rw [List.countP_append, List.countP_singleton]
  cases s.layerOk l
  · simp only [Bool.not_false, if_true, Bool.false_eq_true, if_false]
    omega
  · simp only [Bool.not_true, Bool.false_eq_true, if_false, if_true, Nat.add_zero]

/-- The layers, painted back to front after those already done (R137). -/
theorem performs_layers (hsteps : s.cfg.pairSteps = false) (hpage : s.npix ≤ s.cfg.maxPix)
    (ls : List (Word × Word × Byte)) : ∀ before,
    Performs (ls.flatMap fun l => layerEvents l.1 l.2.1 l.2.2) (OnPage s (s.pageCanvas before) (s.pageWarns before))
      (OnPage s (s.pageCanvas (before ++ ls)) (s.pageWarns (before ++ ls))) := by
  induction ls with
  | nil => intro before; rw [List.append_nil]; exact .nil _
  | cons l ls ih =>
    intro before
    have hlayer : Performs (layerEvents l.1 l.2.1 l.2.2) (OnPage s (s.pageCanvas before) (s.pageWarns before))
        (OnPage s (s.pageCanvas (before ++ [l])) (s.pageWarns (before ++ [l]))) := by
      rw [funext (s.pageCanvas_concat before l), s.pageWarns_concat before l]
      cases hok : s.layerOk l with
      | true => exact performs_okLayer hsteps hpage hok
      | false => exact performs_badLayer hpage hok
    rw [List.append_cons, List.flatMap_cons]
    exact hlayer.append (ih (before ++ [l]))

/-- GRAY makes the page gray and leaves FAULT 0 (R131). -/
theorem performs_gray (hpage : s.npix ≤ s.cfg.maxPix) :
    Performs [issue .gray] (OnPage s px n) fun t => OnPage s (fun p => grayPixel (px p)) n t ∧ t.fault = false := by
  have hword : decodeCommand 5 = .ok .gray := by decide
  refine Performs.of_exec hword (fun t h => h.idle) fun t rest h => ?_
  obtain ⟨u, hexec, hu⟩ := exec_gray_composited (h.fits hpage rest)
  obtain ⟨hpageGray, hrest, hfault⟩ := h.composited hu fun p hp => congrArg grayPixel (h.pixels p hp)
  exact ⟨u, hexec, hrest, hpageGray, hfault⟩

/-- The host's last read returned the raster of the page. -/
def RasterRead (s t : State) (earlier : List Response) : Prop :=
  t.responses = .bytes ((List.range (4 * s.npix)).map fun a => t.byteAt .canvas a) :: earlier

/-- The host reads the raster and then CAUSE (R136). -/
theorem performs_reads (hpage : s.npix ≤ s.cfg.maxPix) :
    Performs [polite (.readMem .canvas 0 (4 * s.npix)), polite (.readReg 9)]
      (fun t => OnPage s px n t ∧ t.fault = false)
      fun t => OnPage s px n t ∧ t.fault = false ∧ ∃ earlier, t.responses
        = .word (t.readReg 9) :: .bytes ((List.range (4 * s.npix)).map fun a => t.byteAt .canvas a) :: earlier := by
  have hraster : Performs [polite (.readMem .canvas 0 (4 * s.npix))] (fun t => OnPage s px n t ∧ t.fault = false)
      fun t => (OnPage s px n t ∧ t.fault = false) ∧ ∃ earlier, RasterRead s t earlier := by
    refine Performs.of_hostAct (fun t h => h.1.idle) fun t rest ⟨h, hfault⟩ => ?_
    have hinside : 0 + 4 * s.npix ≤ spaceSize (t.withInputs rest).cfg .canvas := by
      show 0 + 4 * s.npix ≤ 4 * t.cfg.maxPix
      rw [h.cfg]
      omega
    refine ⟨_, hostAct_readMem_idle (s := t.withInputs rest) h.idle hinside, rfl, ⟨h.read rest _, hfault⟩,
      t.responses, ?_⟩
    simp only [Nat.zero_add]
    rfl
  have hcause : Performs [polite (.readReg 9)]
      (fun t => (OnPage s px n t ∧ t.fault = false) ∧ ∃ earlier, RasterRead s t earlier)
      fun t => OnPage s px n t ∧ t.fault = false ∧ ∃ earlier, t.responses
        = .word (t.readReg 9) :: .bytes ((List.range (4 * s.npix)).map fun a => t.byteAt .canvas a) :: earlier :=
    Performs.of_hostAct (fun t h => h.1.1.idle) fun t rest ⟨⟨h, hfault⟩, earlier, hread⟩ =>
      ⟨_, rfl, rfl, h.read rest _, hfault, earlier, congrArg (.word t.causeWord :: ·) hread⟩
  exact hraster.append hcause

end

/-- Settles O53: CCLR, the layers one after another, GRAY and the reads, each from the page the one before leaves. -/
theorem pageSequenceResult : Obligations.PageSequenceResult := by
  unfold Obligations.PageSequenceResult
  intro s layers hb hsteps hpage hinputs
  have hlayers := performs_layers hsteps hpage (paintOrder layers) []
  have hwhole := (performs_cclr hb hpage).append
    (hlayers.append ((performs_gray (px := s.pageCanvas (paintOrder layers)) hpage).append (performs_reads hpage)))
  obtain ⟨t, hrun, hend, h, hfault, hreads⟩ := hwhole s [] rfl (hinputs.trans (List.append_nil _).symm)
  exact ⟨t, hrun 0, hend, hfault, h.cbuf, h.pageW, h.pageH, h.pixels, h.above, h.warnCnt, hreads⟩

end Sys2Proof.Machine
end

section
/-! PROOF. Faults (R150 to R157), the idle block (R164), the bounded end of every command (R166), and several instances
over the one CBUF: they do not interfere (R65, R165), and what the reset of one leaves in the others (R170). -/

namespace Sys2Proof.Machine

/-! ### Fault entry (R155) -/

/-- Fault entry counts a DECODE's own faults, not ILLCMD (R28, R155). -/
theorem State.raise_counts (s : State) (op3 : Bool) (cause : Cause) : (s.raise op3 cause).warnCnt =
    if op3 = true ∧ cause ≠ .illcmd then BitVec.ofNat 8 (min 255 (s.warnCnt.toNat + 1)) else s.warnCnt :=
  if_congr (by rw [Bool.and_eq_true, bne_iff_ne]) rfl rfl

/-- Settles O23: WARNCNT is as `State.raise_counts` says, and each cause has its code of R150. -/
theorem faultEntryRecords : Obligations.FaultEntryRecords := by
  unfold Obligations.FaultEntryRecords
  intro s op3 cause
  rw [← s.raise_counts op3 cause]
  cases cause <;> rfl

/-- ILLCMD counts in no case (R155). -/
theorem State.raise_illcmd (s : State) (op3 : Bool) :
    s.raise op3 .illcmd = { s with busy := false, done := true, fault := true, causeCode := 1 } := by
  rw [faultEntryRecords s op3 .illcmd, if_neg (fun h => h.2 rfl)]

/-! ### DIM, PROTO, ADDR (R151 to R153, R157) -/

theorem decodeCheck_dim {s : State} (hpage : s.cfg.maxPix < s.npix) (proto : Byte) :
    s.decodeCheck proto = some .dim := if_pos hpage

theorem decodeCheck_proto {s : State} {proto : Byte} (hpage : s.npix ≤ s.cfg.maxPix) (hproto : proto ≠ 0#8) :
    s.decodeCheck proto = some .proto := by
  rw [State.decodeCheck, if_neg (Nat.not_lt_of_le hpage), if_pos hproto]

theorem decodeCheck_addr {s : State} (hpage : s.npix ≤ s.cfg.maxPix)
    (hrange : s.cfg.cbufSize < s.srcAddr.toNat + s.srcLen.toNat) : s.decodeCheck 0#8 = some .addr := by
  rw [State.decodeCheck, if_neg (Nat.not_lt_of_le hpage), if_neg (not_not_intro rfl), if_pos hrange]

/-- A DECODE that fails a check records the cause, counts in WARNCNT, and changes nothing else (R155). -/
theorem exec_decode_faults {s : State} {proto : Byte} {cause : Cause} (h : s.decodeCheck proto = some cause) :
    exec (.decode proto) s = .next { s with
      busy := false, done := true, fault := true, causeCode := cause.code, warnCnt := warnSucc s.warnCnt } := by
  have hne := decodeCheck_ne_illcmd h
  show Host.Outcome.next (s.runCommand true (s.decodeCheck proto) _) = _
  rw [h]
  cases cause with
  | illcmd => exact absurd rfl hne
  | dim | proto | addr => rfl

/-- Settles O24: the frame's first check fails, and of the five commands DECODE has OP 3. -/
theorem pageTooLargeFaults : Obligations.PageTooLargeFaults := by
  unfold Obligations.PageTooLargeFaults
  intro s hpage
  refine ⟨fun i hi => ?_, fun proto => exec_decode_faults (decodeCheck_dim hpage proto)⟩
  simp only [List.mem_cons, List.not_mem_nil, or_false] at hi
  rcases hi with rfl | rfl | rfl | rfl <;> exact congrArg _ (runCommand_of_dim hpage _)

/-- Settles O25: with a page that fits, PROTO is checked next, then ADDR. -/
theorem decodeFaults : Obligations.DecodeFaults := by
  unfold Obligations.DecodeFaults
  exact fun s proto hpage => ⟨fun hproto => exec_decode_faults (decodeCheck_proto hpage hproto),
    fun hrange => exec_decode_faults (decodeCheck_addr hpage hrange)⟩

/-! ### ILLCMD (R154) and the idle block (R164) -/

/-- With BUSY 0 a write to CMD of a word that is no command only records the fault. -/
theorem writeCommand_of_error {s : State} {w : Word} {e : DecodeError} (hb : s.busy = false)
    (hd : decodeCommand w = .error e) :
    writeCommand w s = .next { s with busy := false, done := true, fault := true, causeCode := 1 } := by
  rw [writeCommand, hb, if_neg (by decide), hd]
  exact congrArg _ (s.beginCommand.raise_illcmd (opField w == 3))

/-- Settles O26: the step is the host's write of the word to CMD. -/
theorem illegalCommandFaults : Obligations.IllegalCommandFaults := by
  unfold Obligations.IllegalCommandFaults
  intro s w e tm rest hb hi hd
  rw [step_host hb hi]
  exact writeCommand_of_error (s := s.withInputs rest) hb hd

/-- Settles O39: an idle block without a pending action has no move. -/
theorem idleKeepsState : Obligations.IdleKeepsState := by
  unfold Obligations.IdleKeepsState
  exact fun _ hb hi => step_idle hb hi

/-! ### Every command ends (R166) -/

/-- Where a command leads: it has ended (R135), or it is a DECODE at the start of its stream, to be stepped (R124). -/
inductive Issued (s t : State) : Prop where
  | ended (busy : t.busy = false) (done : t.done = true)
  | running (busy : t.busy = true) (fits : t.fits = true) (start : t.rdptr = 0) (len : t.srcLen = s.srcLen)

/-- A command frame ends in fault entry or as its body does. -/
theorem Issued.runCommand {s : State} {op3 : Bool} {failed : Option Cause} {body : State → State}
    (hbody : failed = none → Issued s (body s.beginCommand)) : Issued s (s.runCommand op3 failed body) :=
  runCommand_induction (fun _ => .ended rfl rfl) hbody

/-- DECODE faults, or runs whole, or starts to be stepped (R123). -/
theorem exec_decode_issued (proto : Byte) (s : State) : ∃ t, exec (.decode proto) s = .next t ∧ Issued s t := by
  refine ⟨_, rfl, .runCommand fun hcheck => ?_⟩
  obtain ⟨hpage, -, hstream⟩ := decodeCheck_none_iff.mp hcheck
  split
  · exact .running rfl (fits_iff.mpr ⟨hpage, hstream⟩) rfl rfl
  · obtain ⟨hbusy, hdone, -⟩ := finishDecode_ends s.decodeLoop
    exact .ended hbusy hdone

theorem exec_command_issued {w : Word} {i : Instr} (hw : decodeCommand w = .ok i) (s : State) :
    ∃ t, exec i s = .next t ∧ Issued s t := by
  rcases decodeCommand_is_command hw with rfl | rfl | rfl | ⟨proto, rfl⟩ | rfl | rfl
  · exact ⟨_, rfl, .runCommand fun _ => .ended rfl rfl⟩
  · exact ⟨_, rfl, .runCommand fun _ => .ended rfl rfl⟩
  · exact ⟨_, rfl, .runCommand fun _ => .ended rfl rfl⟩
  · exact exec_decode_issued proto s
  · exact ⟨_, rfl, .runCommand fun _ => .ended rfl rfl⟩
  · exact ⟨_, rfl, .runCommand fun _ => .ended rfl rfl⟩

/-- A write to CMD with BUSY 0, of a command or not. -/
theorem writeCommand_issued {s : State} (hb : s.busy = false) (w : Word) :
    ∃ t, writeCommand w s = .next t ∧ t.inputs = s.inputs ∧ Issued s t := by
  cases hd : decodeCommand w with
  | ok i =>
    obtain ⟨t, hexec, ht⟩ := exec_command_issued hd s
    obtain ⟨-, -, -, hinputs⟩ := exec_keepsCbuf hexec
    exact ⟨t, (writeCommand_of_decodes hb hd).trans hexec, hinputs, ht⟩
  | error e => exact ⟨_, writeCommand_of_error hb hd, rfl, .ended rfl rfl⟩

/-- What a command left running ends in as many micro-steps as there are pairs, and one more. -/
theorem Issued.run_ends {s t : State} (h : Issued s t) (hi : t.inputs = []) :
    ∃ u, Sys2Proof.core.run (s.srcLen.toNat / 2 + 1) t = .next u ∧ u.busy = false ∧ u.done = true ∧ u.inputs = [] := by
  cases h with
  | ended busy done => exact ⟨t, run_idle _ busy hi, busy, done, hi⟩
  | running busy fits start len =>
    have hmoves : EngineMoves t := ⟨busy, hi, fits⟩
    obtain ⟨-, -, -, -, -, -, -, -, -, -, hloop, -⟩ := (DecoderOnly.pairLoop (t.srcLen.toNat / 2) t).same
    obtain ⟨hbusy, hdone, -, -, -, -, hinputs, -⟩ := finishDecode_ends (State.pairLoop (t.srcLen.toNat / 2) t)
    rw [← len]
    exact ⟨_, hmoves.run_whole start, hbusy, hdone, hinputs.trans (hloop.trans hi)⟩

/-- Settles O51: one step for the write to CMD, then what it left running ends. -/
theorem everyCommandEnds : Obligations.EveryCommandEnds := by
  unfold Obligations.EveryCommandEnds
  intro s w hb hi
  obtain ⟨t, hwrite, hinputs, ht⟩ := writeCommand_issued (s := s.withInputs []) hb w
  rw [run_succ ((step_host hb hi).trans hwrite)]
  exact ht.run_ends hinputs

/-! ### Instances over one CBUF (R65, R165) -/

/-- An engine that stops stays put, so its steps can be taken in two parts. -/
theorem State.runAlone_add (m n : Nat) : ∀ s : State, State.runAlone (m + n) s = State.runAlone n (State.runAlone m s) := by
  induction m with
  | zero => intro s; rw [Nat.zero_add]; rfl
  | succ m ih =>
    intro s
    have hstops (hstop : ∀ k, State.runAlone (k + 1) s = s) :
        State.runAlone (m + 1 + n) s = State.runAlone n (State.runAlone (m + 1) s) := by
      rw [Nat.succ_add, hstop, hstop]
      cases n with
      | zero => rfl
      | succ n => exact (hstop n).symm
    cases hs : step s with
    | next t =>
      have hnext (k : Nat) : State.runAlone (k + 1) s = State.runAlone k t := by rw [State.runAlone, hs]
      rw [Nat.succ_add, hnext, hnext, ih]
    | fault f => exact hstops fun k => by rw [State.runAlone, hs]
    | refused r => exact hstops fun k => by rw [State.runAlone, hs]

/-- No pending host action of any engine changes CBUF. -/
def System.leavesCbuf (y : System) : Prop := ∀ e ∈ y.engines, e.leavesCbuf = true

/-- The common CBUF of `z` is that of `y`. -/
structure System.SameCbuf (y z : System) : Prop where
  cbuf : z.cbuf = y.cbuf
  resets : z.cbufResets = y.cbufResets
  size : z.cbufSize = y.cbufSize

theorem System.SameCbuf.trans {x y z : System} (h : x.SameCbuf y) (h' : y.SameCbuf z) : x.SameCbuf z :=
  ⟨h'.cbuf.trans h.cbuf, h'.resets.trans h.resets, h'.size.trans h.size⟩

/-- Over the same CBUF an engine runs as before. -/
theorem System.SameCbuf.view {y z : System} (h : y.SameCbuf z) (s : State) : z.view s = y.view s := by
  rw [System.view, System.view, h.cbuf, h.resets, h.size]

/-- `z` is `y` after each engine has taken, by itself, as many steps as `sched` names it. -/
structure System.RunsApart (sched : List Nat) (y z : System) : Prop where
  same : y.SameCbuf z
  leaves : z.leavesCbuf
  engine : ∀ (j : Nat) (s : State), y.engines[j]? = some s →
    ∃ t, z.engines[j]? = some t ∧ z.view t = State.runAlone (sched.count j) (y.view s)

theorem System.RunsApart.nil {y : System} (hl : y.leavesCbuf) : y.RunsApart [] y :=
  ⟨⟨rfl, rfl, rfl⟩, hl, fun _ s hs => ⟨s, hs, rfl⟩⟩

theorem System.RunsApart.append {l l' : List Nat} {x y z : System} (h : x.RunsApart l y) (h' : y.RunsApart l' z) :
    x.RunsApart (l ++ l') z := by
  refine ⟨h.same.trans h'.same, h'.leaves, fun j s hs => ?_⟩
  obtain ⟨t, ht, hrun⟩ := h.engine j s hs
  obtain ⟨u, hu, hrun'⟩ := h'.engine j t ht
  exact ⟨u, hu, by rw [hrun', hrun, List.count_append, State.runAlone_add]⟩

/-- A step of an engine that is not there, or that stops, is no step. -/
theorem System.RunsApart.stays {y : System} (hl : y.leavesCbuf) {i : Nat}
    (hstop : ∀ s, y.engines[i]? = some s → State.runAlone 1 (y.view s) = y.view s) : y.RunsApart [i] y := by
  refine ⟨⟨rfl, rfl, rfl⟩, hl, fun j s hs => ⟨s, hs, ?_⟩⟩
  by_cases hj : j = i
  · subst hj; rw [List.count_singleton_self, hstop s hs]
  · rw [List.count_singleton, if_neg (by simpa using Ne.symm hj)]; rfl

/-- A step that leaves CBUF alone is the engine's own, and touches no other. -/
theorem System.RunsApart.put {y : System} (hl : y.leavesCbuf) {i : Nat} {s t : State} (hi : y.engines[i]? = some s)
    (hstep : step (y.view s) = .next t) : y.RunsApart [i] (y.put i t) := by
  have hs : (y.view s).leavesCbuf = true := hl s (List.mem_of_getElem? hi)
  obtain ⟨hcbuf, hresets, hcfg, hleaves⟩ := step_keepsCbuf hs hstep
  have hsame : y.SameCbuf (y.put i t) := ⟨hcbuf, hresets, rfl⟩
  refine ⟨hsame, fun e he => ?_, fun j u hu => ?_⟩
  · rcases List.mem_or_eq_of_mem_set he with he | rfl
    · exact hl e he
    · exact hleaves
  · rw [System.put_engines, hu]
    by_cases hj : j = i
    · subst hj
      obtain rfl : s = u := Option.some.inj (hi.symm.trans hu)
      refine ⟨t.detach, if_pos rfl, ?_⟩
      rw [List.count_singleton_self, State.runAlone, hstep]
      exact System.view_detach rfl rfl (congrArg Config.cbufSize hcfg)
    · refine ⟨u, if_neg hj, ?_⟩
      rw [List.count_singleton, if_neg (by simpa using Ne.symm hj)]
      exact hsame.view u

theorem System.stepAt_runsApart {y : System} (hl : y.leavesCbuf) (i : Nat) : y.RunsApart [i] (y.stepAt i) := by
  cases hi : y.engines[i]? with
  | none =>
    rw [System.stepAt, hi]
    exact .stays hl fun s hs => nomatch hi.symm.trans hs
  | some s =>
    have hstays (hstop : State.runAlone 1 (y.view s) = y.view s) : y.RunsApart [i] y :=
      .stays hl fun u hu => by rwa [← Option.some.inj (hi.symm.trans hu)]
    rw [System.stepAt_of_leavesCbuf hi (hl s (List.mem_of_getElem? hi))]
    cases hstep : step (y.view s) with
    | next t => exact .put hl hi hstep
    | fault f => exact hstays (by rw [State.runAlone, hstep])
    | refused r => exact hstays (by rw [State.runAlone, hstep])

theorem System.runSchedule_runsApart (sched : List Nat) :
    ∀ {y : System}, y.leavesCbuf → y.RunsApart sched (System.runSchedule sched y) := by
  induction sched with
  | nil => exact fun hl => .nil hl
  | cons i rest ih =>
    intro y hl
    have hfirst := y.stepAt_runsApart hl i
    exact hfirst.append (ih hfirst.leaves)

/-- Settles O52: by induction on the schedule, each step being one engine's own. -/
theorem enginesDoNotInterfere : Obligations.EnginesDoNotInterfere := by
  unfold Obligations.EnginesDoNotInterfere
  intro y sched j s hl hs
  obtain ⟨hsame, -, hengine⟩ := System.runSchedule_runsApart sched hl
  exact ⟨hsame.cbuf, hsame.resets, hsame.size, hengine j s hs⟩

/-! ### The reset of one engine (R165, R170) -/

/-- A reset as the step of one of the instances: the common CBUF is lost, which those that run a DECODE count (R175). -/
theorem System.stepAt_reset {y : System} {i : Nat} {s s' : State} (hi : y.engines[i]? = some s)
    (hturn : s.turn = .host .reset s') :
    y.stepAt i = (y.noteWritten ⟨0, y.cbufSize⟩).put i (y.view s').afterReset := by
  have hturn' := y.turn_view hturn
  have hstep : step (y.view s) = .next (y.view s').afterReset := step_of_host_turn hturn'
  have hchange : (y.view s).cbufChange = some .lost := by rw [State.cbufChange, hturn']; rfl
  rw [System.stepAt, hi]
  simp only [hstep, hchange]
  rfl

/-- Settles O60: the engine is stored as reset left it, and with it the CBUF that all read. -/
theorem resetOfOneInstance : Obligations.ResetOfOneInstance := by
  unfold Obligations.ResetOfOneInstance
  intro y i s s' hi hturn
  dsimp only
  rw [System.stepAt_reset hi hturn]
  refine ⟨⟨(y.view s').afterReset.detach, ?_, State.readReg_powerOn s.cfg⟩, fun j t _ x => ?_, fun j t hj ht => ?_⟩
  · rw [System.put_engines, if_pos rfl, System.noteWritten_engines, hi]; rfl
  · rw [System.view_put_cbufByte]; rfl
  · rw [System.put_engines, if_neg hj, System.noteWritten_engines, ht, Option.map_some]

end Sys2Proof.Machine
end

section
/-! PROOF. Host accesses while a DECODE runs (R175, R176): what a write and a read do at once, what each step keeps in mind
of the writes, what the end of the DECODE makes of them, and which bytes of LBUF count as derived from the stream. -/

namespace Sys2Proof.Machine

/-! ### Register writes (R176) -/

/-- While BUSY a configuration write is dropped. -/
theorem unlessBusy_busy {s : State} (hb : s.busy = true) (t : State) : s.unlessBusy t = { s with busyErr := true } :=
  if_pos hb

/-- Settles O40: CMD and the configuration registers are guarded by BUSY, and a write to STATUS looks at bit 3. -/
theorem busyWritesDropped : Obligations.BusyWritesDropped := by
  unfold Obligations.BusyWritesDropped
  intro s v
  refine ⟨fun hb i hi => ?_, ?_⟩
  · simp only [List.mem_cons, List.not_mem_nil, or_false] at hi
    rcases hi with rfl | rfl | rfl | rfl | rfl
    · exact if_pos hb
    all_goals exact congrArg _ (unlessBusy_busy hb _)
  · show Host.Outcome.next { s with busyErr := s.busyErr && !v.getLsbD 3 } = _
    cases v.getLsbD 3 <;> simp

/-! ### A host write to memory (R175) -/

/-- A host write that does not stop the machine is `State.hostWrite`. -/
theorem hostAct_writeMem_next {s t : State} {sp : Space} {a : Nat} {bs : List Byte}
    (h : hostAct (.writeMem sp a bs) s = .next t) : t = s.hostWrite sp a bs := by
  change hostWriteMem sp a bs s = _ at h
  unfold hostWriteMem at h
  split at h
  · cases h; rfl
  · cases h

theorem hostWrite_busy {s : State} (hb : s.busy = true) (sp : Space) (a : Nat) (bs : List Byte) :
    s.hostWrite sp a bs = (s.scramble sp ⟨a, bs.length⟩).noteWrite sp ⟨a, bs.length⟩ :=
  if_pos hb

/-- A byte after a host write while BUSY: a free value inside the range, what was there outside it. -/
theorem hostWrite_busy_byteAt {s : State} (hb : s.busy = true) (sp : Space) (a : Nat) (bs : List Byte) (sp' : Space)
    (x : Nat) : (s.hostWrite sp a bs).byteAt sp' x =
      if sp' = sp ∧ a ≤ x ∧ x < a + bs.length then Config.freeByte s.ident (s.drawn + (x - a)) else s.byteAt sp' x := by
  rw [hostWrite_busy hb, noteWrite_byteAt, scramble_byteAt]

/-- What a host write while BUSY adds to the record, and all else it may change. -/
theorem hostWrite_busy_record {s t : State} (hb : s.busy = true) {sp : Space} {a : Nat} {bs : List Byte}
    (h : t = s.hostWrite sp a bs) :
    t.poison = (if sp = .lbuf then s.poison ++ [⟨a, bs.length⟩] else s.poison)
    ∧ t.tampered = (if sp = .cbuf then s.tampered ++ [⟨a, bs.length⟩] else s.tampered)
    ∧ t = { s with
        cbuf := t.cbuf, lbuf := t.lbuf, canvas := t.canvas, drawn := t.drawn, poison := t.poison
        tampered := t.tampered } := by
  rw [h, hostWrite_busy hb]
  cases sp <;> exact ⟨rfl, rfl, rfl⟩

/-- Settles O44: by the bytes of a host write while BUSY and its record. -/
theorem hostWriteWhileBusyPoisons : Obligations.HostWriteWhileBusyPoisons := by
  unfold Obligations.HostWriteWhileBusyPoisons
  intro s t sp a bs hb h
  have ht := hostAct_writeMem_next h
  refine ⟨fun x hlo hhi => ⟨s.drawn + (x - a), ?_⟩, fun sp' x hout => ?_, hostWrite_busy_record hb ht⟩
  · rw [ht, hostWrite_busy_byteAt hb, if_pos ⟨rfl, hlo, hhi⟩]
  · rw [ht, hostWrite_busy_byteAt hb, if_neg hout]

/-! ### A host read of memory (R175) -/

/-- What the host reads while BUSY: a free value for a byte of LBUF on the page, else the byte itself. -/
theorem State.hostByte_busy {s : State} (hb : s.busy = true) (sp : Space) (a i : Nat) : s.hostByte sp a i =
    if sp = .lbuf ∧ a < 4 * s.npix then Config.freeByte s.ident (s.drawn + i) else s.byteAt sp a := by
  simp [State.hostByte, State.mayBeWritten, hb]

/-- Settles O58: each byte that the read answers is `State.hostByte`. -/
theorem hostReadWhileBusyUnspecified : Obligations.HostReadWhileBusyUnspecified := by
  unfold Obligations.HostReadWhileBusyUnspecified
  intro s sp a n hb hin
  refine ⟨(List.range n).map fun i => s.hostByte sp (a + i) i, by simp, ?_, fun i b hi => ?_⟩
  · show hostReadMem sp a n s = _
    rw [hostReadMem, if_pos hin, State.hostRead, hb, if_pos rfl]
  · obtain ⟨-, rfl⟩ := List.getElem?_eq_some_iff.mp hi
    rw [List.getElem_map, List.getElem_range, State.hostByte_busy hb]
    refine ⟨fun hsp hpage => ⟨s.drawn + i, if_pos ⟨hsp, hpage⟩⟩, fun hout => if_neg fun hpage => ?_⟩
    rcases hout with hsp | hlen
    · exact hsp hpage.1
    · omega

/-! ### Steps that stay BUSY -/

/-- From `s` to `t` nothing of the record of R175 is forgotten, and a byte of CBUF or CANVAS changes only to a free value. -/
structure KeepsRecord (s t : State) : Prop where
  poison : s.poison <+: t.poison
  tampered : s.tampered <+: t.tampered
  ident : t.ident = s.ident
  bytes : ∀ sp ∈ [Space.cbuf, .canvas], ∀ x,
    t.byteAt sp x = s.byteAt sp x ∨ ∃ k, t.byteAt sp x = Config.freeByte s.ident k

theorem KeepsRecord.of_decoderOnly {s t : State} (h : DecoderOnly s t) : KeepsRecord s t := by
  obtain ⟨-, -, -, -, -, -, -, -, -, hpoison, -, -, -, -, -, -, -, -, hident, -, htampered⟩ := h.same
  refine ⟨hpoison ▸ List.prefix_refl _, htampered ▸ List.prefix_refl _, hident, fun sp hsp x => .inl ?_⟩
  simp only [List.mem_cons, List.not_mem_nil, or_false] at hsp
  rcases hsp with rfl | rfl
  · exact h.cbufByte x
  · exact h.canvasByte x

theorem KeepsRecord.hostWrite {s : State} (hb : s.busy = true) (sp : Space) (a : Nat) (bs : List Byte) :
    KeepsRecord s (s.hostWrite sp a bs) := by
  obtain ⟨hpoison, htampered, hframe⟩ := hostWrite_busy_record hb (sp := sp) (a := a) (bs := bs) rfl
  refine ⟨?_, ?_, by rw [hframe], fun sp' _ x => ?_⟩
  · rw [hpoison]; split
    · exact List.prefix_append _ _
    · exact List.prefix_refl _
  · rw [htampered]; split
    · exact List.prefix_append _ _
    · exact List.prefix_refl _
  · rw [hostWrite_busy_byteAt hb]; split
    · exact .inr ⟨_, rfl⟩
    · exact .inl rfl

/-- A micro-step runs one round of the loop, or ends the DECODE (R125, R126). -/
theorem engineStep_next {s t : State} (h : engineStep s = .next t) :
    t = s.advance.pairStep s.fetchedColour s.fetchedLength ∨ t = s.finishDecode := by
  unfold engineStep at h
  split at h
  · cases h
  · split at h
    · have hround : exec s.fetchedInstr s.advance = _ := exec_decodePair s.advance s.fetchedColour s.fetchedLength
      cases hround.symm.trans h; exact .inl rfl
    · cases h; exact .inr rfl

/-- A micro-step that leaves the block BUSY is one round of the loop, which changes the decoder only. -/
theorem KeepsRecord.engineStep {s t : State} (h : engineStep s = .next t) (hb : t.busy = true) : KeepsRecord s t := by
  rcases engineStep_next h with rfl | rfl
  · exact .of_decoderOnly (.trans (.advance s) (.pairStep _ _ _))
  · exact absurd hb (by rw [(finishDecode_ends s).1]; decide)

/-- While BUSY only a write to memory touches what R175 counts, and reset clears BUSY. -/
theorem KeepsRecord.hostMove {s t : State} (m : HostMove s t) (hs : s.busy = true) (ht : t.busy = true) :
    KeepsRecord s t := by
  have hsame : ∀ rs n e, KeepsRecord s { s with responses := rs, drawn := n, busyErr := e } := fun rs n e =>
    ⟨List.prefix_refl _, List.prefix_refl _, rfl, fun sp _ x => .inl (by cases sp <;> rfl)⟩
  have hbusy (hidle : s.busy = false) : False := absurd hs (by rw [hidle]; decide)
  cases m with
  | command idle decodes runs => exact (hbusy idle).elim
  | illegal op3 idle => exact (hbusy idle).elim
  | configured idle w h a l => exact (hbusy idle).elim
  | dropped busy => exact hsame s.responses s.drawn true
  | status keep => exact hsame s.responses s.drawn _
  | read rs n => exact hsame rs n s.busyErr
  | wrote sp a bs inside => exact .hostWrite hs sp a bs
  | reset => cases ht

/-- Settles O55: by who moves; a micro-step and a move of the host keep the record. -/
theorem busyStepKeepsPoison : Obligations.BusyStepKeepsPoison := by
  unfold Obligations.BusyStepKeepsPoison
  intro s t hs hstep ht
  have hkeeps : KeepsRecord s t := by
    rcases step_cases s with ⟨-, hidle, -⟩ | ⟨l, hengine, -⟩ | ⟨act, l, hhost⟩
    · exact absurd hs (by rw [hidle]; decide)
    · obtain ⟨hpoison, htampered, hident, hbytes⟩ := KeepsRecord.engineStep (hengine.symm.trans hstep) ht
      exact ⟨hpoison, htampered, hident, hbytes⟩
    · obtain ⟨hpoison, htampered, hident, hbytes⟩ :=
        KeepsRecord.hostMove (hostAct_moves (hhost.symm.trans hstep)) hs ht
      exact ⟨hpoison, htampered, hident, hbytes⟩
  exact ⟨hkeeps.poison, hkeeps.tampered, hkeeps.ident, hkeeps.bytes⟩

/-! ### The end of a DECODE -/

/-- The ranges of LBUF that R175 leaves unspecified when the DECODE ends with the cursor at `last`. -/
def State.freedSpans (s : State) (last : Nat) : List Span := s.derivedSpans last ++ s.poison

/-- The end of a DECODE: what R125 and R126 leave, its freed ranges scrambled, the record forgotten. -/
theorem finishDecode_eq (u : State) : u.finishDecode =
    { (u.freedSpans u.decodeTail.cursor.toNat).foldl (fun t r => t.scramble .lbuf r) u.decodeTail.endCommand with
      poison := [], tampered := [] } := by
  obtain ⟨hcfg, hw, hh, haddr, hlen, hcbuf, -, -, -, hpoison, -, -, -, -, -, -, -, -, -, hresets, htampered⟩ :=
    (DecoderOnly.decodeTail u).same
  have hspans : u.decodeTail.endCommand.derivedSpans u.decodeTail.cursor.toNat
      = u.derivedSpans u.decodeTail.cursor.toNat :=
    derivedSpans_congr (s := u.decodeTail.endCommand) hcfg hw hh haddr hlen hcbuf hresets htampered _
  rw [State.finishDecode, State.applyPoison, State.freedSpans, ← hspans, ← hpoison]
  rfl

/-- The cursor and LBUF after the end of a DECODE. -/
theorem finishDecode_lbuf (u : State) : u.finishDecode.cursor = u.decodeTail.cursor
    ∧ ∀ x, ((∃ r ∈ u.freedSpans u.decodeTail.cursor.toNat, r.base ≤ x ∧ x < r.base + r.len) →
        ∃ k, u.finishDecode.byteAt .lbuf x = Config.freeByte u.ident k)
      ∧ ((∀ r ∈ u.freedSpans u.decodeTail.cursor.toNat, ¬(r.base ≤ x ∧ x < r.base + r.len)) →
        u.finishDecode.byteAt .lbuf x = u.decodeTail.byteAt .lbuf x) := by
  have hident : u.decodeTail.endCommand.ident = u.ident := by rw [DecoderOnly.decodeTail u]; rfl
  rw [finishDecode_eq]
  refine ⟨?_, fun x => ?_⟩
  · rw [LbufOnly.scrambles]; rfl
  · rw [← hident]; exact scrambles_byteAt _ u.decodeTail.endCommand x

/-- Settles O56: the engine ends the DECODE, whose freed ranges are those of the state before the step. -/
theorem decodeEndFreesPoisoned : Obligations.DecodeEndFreesPoisoned := by
  unfold Obligations.DecodeEndFreesPoisoned
  intro s u hturn hfits hleft
  have hstep : step s = .next u.finishDecode := by
    rw [step_of_engine_turn hturn, engineStep, hfits, hleft]; rfl
  obtain ⟨hbusy, hdone, -, hpoison, htampered, -, -, -, -, -, -, hcbuf, hcanvas, hepoch⟩ := finishDecode_ends u
  obtain ⟨hcursor, hlbuf⟩ := finishDecode_lbuf u
  refine ⟨_, hstep, hbusy, hdone, hpoison, htampered, ?_⟩
  rcases turn_cases s with ⟨h, -⟩ | ⟨l, h, -⟩ | ⟨act, l, h⟩
  · cases h.symm.trans hturn
  · obtain rfl : s.withInputs l = u := Turn.engine.inj (h.symm.trans hturn)
    have hspans : (s.withInputs l).derivedSpans = s.derivedSpans :=
      funext (derivedSpans_congr rfl rfl rfl rfl rfl rfl rfl rfl)
    rw [hcursor, ← hspans]
    exact ⟨fun r hr x hlo hhi => (hlbuf x).1 ⟨r, hr, hlo, hhi⟩, fun x => (hlbuf x).2,
      fun x => ⟨State.byteAt_congr (sp := .cbuf) hcbuf hepoch x,
        State.byteAt_congr (sp := .canvas) hcanvas hepoch x⟩⟩
  · cases h.symm.trans hturn

end Sys2Proof.Machine
end

section
/-! PROOF. Which bytes of LBUF count as derived from written stream bytes (R175, log 8): all that depend on them, and for one
written byte exactly which. -/

namespace Sys2Proof.Machine

/-! ### The record is read by no part of the body -/

/-- `s` with the ranges `rs` as the record of what the host wrote to CBUF. -/
def State.withTampered (s : State) (rs : List Span) : State := { s with tampered := rs }

/-- One round of the loop: fetch a pair, step it (R125). -/
def State.round (s : State) : State := s.advance.pairStep s.fetchedColour s.fetchedLength

theorem State.withTampered_normalRule (s : State) (rs : List Span) (c n : Byte) :
    (s.withTampered rs).normalRule c n = (s.normalRule c n).withTampered rs := by
  unfold State.normalRule
  split
  · rfl
  · split <;> rfl

theorem State.withTampered_pairStep (s : State) (rs : List Span) (c n : Byte) :
    (s.withTampered rs).pairStep c n = (s.pairStep c n).withTampered rs := by
  unfold State.pairStep
  show (if s.holdV then _ else _) = _
  split
  · show (if c = s.holdC then _ else _) = _
    split
    · rfl
    · exact State.withTampered_normalRule (s.clearHolder.emit s.holdC (lenExt s.holdN)) rs c n
  · exact s.withTampered_normalRule rs c n

theorem State.withTampered_round (s : State) (rs : List Span) : (s.withTampered rs).round = s.round.withTampered rs :=
  s.advance.withTampered_pairStep rs s.fetchedColour s.fetchedLength

theorem State.withTampered_pairLoop (rs : List Span) (n : Nat) : ∀ s : State,
    State.pairLoop n (s.withTampered rs) = (State.pairLoop n s).withTampered rs := by
  induction n with
  | zero => exact fun _ => rfl
  | succ n ih =>
    intro s
    show State.pairLoop n (s.withTampered rs).round = (State.pairLoop n s.round).withTampered rs
    rw [s.withTampered_round, ih]

theorem State.withTampered_tail (s : State) (rs : List Span) : (s.withTampered rs).tail = s.tail.withTampered rs := by
  unfold State.tail
  show (if s.holdV then _ else _) = _
  split <;> rfl

theorem State.withTampered_decodeTail (s : State) (rs : List Span) :
    (s.withTampered rs).decodeTail = s.decodeTail.withTampered rs := by
  unfold State.decodeTail
  have htail := State.withTampered_tail { s with odd := s.odd || oddOf s.srcLen.toNat } rs
  exact congrArg (fun t : State => { t with under := t.under || underOf t.cursor.toNat t.npix }) htail

theorem withTampered_pairsThenTail (n : Nat) (s : State) (rs : List Span) :
    pairsThenTail n (s.withTampered rs) = (pairsThenTail n s).withTampered rs := by
  rw [pairsThenTail, State.withTampered_pairLoop, State.withTampered_decodeTail, pairsThenTail]

/-- The derived bytes of a record, the empty one included, are those of the loop over the whole stream. -/
theorem derivedSpans_withTampered (s : State) (rs : List Span) (last : Nat) : (s.withTampered rs).derivedSpans last =
    State.derivedLoop last (s.srcLen.toNat / 2) false (s.decodeInit.withTampered rs) := by
  cases rs with
  | cons r rs => rfl
  | nil =>
    have hlen := s.srcLen.isLt
    refine (derivedLoop_quiet last _ false _ ?_ (fun _ _ _ => rfl) rfl).symm
    show 0 + _ < _
    omega

/-! ### All that depends on written bytes is derived -/

/-- Two DECODEs of streams that differ in the ranges `rs` only start as two decoders that agree off `rs`. -/
theorem decodeInit_agreesOff {s1 s2 : State} {rs : List Span} (hcfg : s1.cfg = s2.cfg) (hw : s1.pageW = s2.pageW)
    (hh : s1.pageH = s2.pageH) (haddr : s1.srcAddr = s2.srcAddr) (hlen : s1.srcLen = s2.srcLen)
    (hbytes : ∀ a, (∀ r ∈ rs, ¬(r.base ≤ a ∧ a < r.base + r.len)) → s1.byteAt .cbuf a = s2.byteAt .cbuf a) :
    AgreesOff rs false (s1.beginCommand.decodeInit.withTampered rs) s2.beginCommand.decodeInit where
  cfg := hcfg
  w := hw
  h := hh
  a := haddr
  len := hlen
  tam := rfl
  rdptr := rfl
  fit := hbytes
  cursor := rfl
  hv := rfl
  hn h := nomatch h
  hc h := nomatch h

/-- What a DECODE emits beside the derived bytes does not depend on the written ones, neither its place nor its value. -/
theorem decode_underived_eq {s1 s2 t1 t2 : State} {rs : List Span} (hcfg : s1.cfg = s2.cfg)
    (hsteps : s1.cfg.pairSteps = false) (hw : s1.pageW = s2.pageW) (hh : s1.pageH = s2.pageH)
    (haddr : s1.srcAddr = s2.srcAddr) (hlen : s1.srcLen = s2.srcLen) (hcheck : s1.decodeCheck 0 = none)
    (hbytes : ∀ a, (∀ r ∈ rs, ¬(r.base ≤ a ∧ a < r.base + r.len)) → s1.byteAt .cbuf a = s2.byteAt .cbuf a)
    (h1 : exec (.decode 0) s1 = .next t1) (h2 : exec (.decode 0) s2 = .next t2) {x : Nat} (hx : x < 4 * t1.cursor.toNat)
    (hfree : ∀ r ∈ (s1.withTampered rs).derivedSpans t1.cursor.toNat, ¬(r.base ≤ x ∧ x < r.base + r.len)) :
    x < 4 * t2.cursor.toNat ∧ t1.byteAt .lbuf x = t2.byteAt .lbuf x := by
  obtain ⟨hpage1, -, hstream1⟩ := decodeCheck_none_iff.mp hcheck
  obtain ⟨hpage2, -, hstream2⟩ := decodeCheck_none_iff.mp
    ((decodeCheck_congr hcfg (npix_congr hw hh) haddr hlen 0).symm.trans hcheck)
  cases (exec_decode_atOnce hsteps hpage1 hstream1).symm.trans h1
  cases (exec_decode_atOnce (hcfg ▸ hsteps) hpage2 hstream2).symm.trans h2
  have hspans : (s1.withTampered rs).derivedSpans = (s1.beginCommand.withTampered rs).derivedSpans :=
    funext (derivedSpans_congr rfl rfl rfl rfl rfl rfl rfl rfl)
  rw [hspans, derivedSpans_withTampered] at hfree
  have hcovers := derivedLoop_covers rs (s1.srcLen.toNat / 2) false _ _
    (decodeInit_agreesOff hcfg hw hh haddr hlen hbytes) (Nat.zero_le _) x (Nat.zero_le _)
  rw [withTampered_pairsThenTail] at hcovers
  have hother : pairsThenTail (s1.srcLen.toNat / 2) s2.beginCommand.decodeInit = s2.decodeLoop.decodeTail := by
    rw [hlen]; rfl
  rw [hother] at hcovers
  exact hcovers hx hfree

/-! ### Bytes in ranges -/

/-- A byte lies in one of the ranges. -/
def Covers (rs : List Span) (x : Nat) : Prop := ∃ r ∈ rs, r.base ≤ x ∧ x < r.base + r.len

@[simp] theorem covers_nil (x : Nat) : ¬Covers [] x := fun ⟨_, hr, _⟩ => nomatch hr

@[simp] theorem covers_pixelSpan_cons (last p k : Nat) (rs : List Span) (x : Nat) :
    Covers (pixelSpan last p k :: rs) x ↔ 4 * p ≤ x ∧ x < 4 * min (p + k) last ∨ Covers rs x := by
  simp only [Covers, List.mem_cons, exists_eq_or_imp, pixelSpan_iff]

/-! ### The operands of a pair -/

/-- The pixels of a pending holder that the next pair continues or flushes (R103, R104). -/
theorem State.heldLen_eq (s : State) : s.heldLen = if s.holdV then ((s.holdN &&& 0x7F#8).toNat + 1) * 128 else 0 := by
  rw [State.heldLen, lenExt_eq]

theorem not_high_bit {n : Byte} (h : n.toNat < 128) : ¬ n &&& 0x80#8 ≠ 0#8 := fun hbit => by
  have := (high_bit_iff n).mp hbit
  omega

theorem maxrunCode_of_toNat {n : Byte} (h : n.toNat = 0xFF) : n = 0xFF#8 := BitVec.eq_of_toNat_eq h

section
variable {u : State} (held : Bool)

/-- With its length code not written, a pair loses the place if it is a MAXRUN or HOLD at which CONT is in question. -/
theorem placeLost_iff (hcode : u.written (u.rdptr.toNat + 1) = false) :
    u.placeLost held = true ↔ u.wayWritten held = true ∧ 128 ≤ u.fetchedLength.toNat := by
  rw [State.placeLost, hcode, Bool.false_or, Bool.and_eq_true, bne_iff_ne, high_bit_iff]

theorem sureLen_run (hcode : u.written (u.rdptr.toNat + 1) = false) (hrun : u.fetchedLength.toNat < 128) :
    u.sureLen held = u.fetchedLength.toNat + 1 := by
  rw [State.sureLen, hcode, if_neg (by decide), if_neg (ne_maxrunCode hrun), if_neg (not_high_bit hrun)]

theorem sureLen_hold (hcode : u.written (u.rdptr.toNat + 1) = false) (hhigh : 128 ≤ u.fetchedLength.toNat)
    (hmax : u.fetchedLength.toNat ≠ 0xFF) : u.sureLen held = 0 := by
  have hne : u.fetchedLength ≠ 0xFF#8 := fun h => hmax (congrArg BitVec.toNat h)
  rw [State.sureLen, hcode, if_neg (by decide), if_neg hne, if_pos ((high_bit_iff _).mpr hhigh)]

theorem sureLen_maxrun (hcode : u.written (u.rdptr.toNat + 1) = false) (hmax : u.fetchedLength.toNat = 0xFF) :
    u.sureLen held = if u.holdV then 256 else 0x4000 := by
  rw [State.sureLen, hcode, if_neg (by decide), if_pos (maxrunCode_of_toNat hmax)]

end

/-! ### One round of the loop -/

theorem round_only (u : State) : DecoderOnly u u.round := .trans (.advance u) (.pairStep _ _ _)

theorem written_round (u : State) (o : Nat) : u.round.written o = u.written o := by
  obtain ⟨-, -, -, haddr, -, -, -, -, -, -, -, -, -, -, -, -, -, -, -, -, htampered⟩ := (round_only u).same
  rw [State.written, haddr, htampered]; rfl

/-- Where the cursor is after a round: past the holder's pixels and those of the pair's colour, cut at NPIX. -/
theorem round_cursor {u : State} (h : u.cursor.toNat ≤ u.npix) : u.round.cursor.toNat =
    min (u.cursor.toNat + u.heldLen + (tailCols u.holdV u.holdC u.fetchedColour u.fetchedLength).length) u.npix := by
  have hlays := (Lays.nil (.advance u) rfl rfl).trans (pairStep_lays u.advance u.fetchedColour u.fetchedLength)
  have hheld := length_heldCols u
  have hcursor := hlays.cursor
  rw [List.nil_append, stepCols_eq, List.length_append] at hcursor
  change u.round.cursor.toNat = u.cursor.toNat + min ((heldCols u).length + _) (u.npix - u.cursor.toNat) at hcursor
  rw [hcursor, hheld]
  show u.cursor.toNat + min (u.heldLen + (tailCols u.holdV u.holdC u.fetchedColour u.fetchedLength).length) _ = _
  omega

/-- A RUN, and a MAXRUN with no holder pending, lay down as many pixels as are sure, and leave no holder. -/
theorem round_of_emits {u : State} (hcode : u.written (u.rdptr.toNat + 1) = false)
    (hcase : u.fetchedLength.toNat ≤ 0x7F ∨ u.holdV = false ∧ u.fetchedLength.toNat = 0xFF) :
    (tailCols u.holdV u.holdC u.fetchedColour u.fetchedLength).length = u.sureLen false ∧ u.round.holdV = false := by
  obtain ⟨hholder, -⟩ := pairStep_holder u.advance u.fetchedColour u.fetchedLength
  rcases hcase with hrun | ⟨hnone, hmax⟩
  · have hlow : u.fetchedLength.toNat < 128 := by omega
    refine ⟨?_, hholder.trans ?_⟩
    · rw [sureLen_run false hcode hlow, tailCols_run (not_high_bit hlow), List.length_replicate]
    · simp [not_not.mp (not_high_bit hlow)]
  · have hff := maxrunCode_of_toNat hmax
    refine ⟨?_, hholder.trans ?_⟩
    · rw [sureLen_maxrun false hcode hmax, hnone]
      show (if u.fetchedLength = 0xFF#8 then List.replicate 0x4000 u.fetchedColour else _).length = 0x4000
      rw [if_pos hff, List.length_replicate]
    · simp [hff]

/-- A HOLD with no holder pending stashes its pair. -/
theorem round_of_stash {u : State} (hnone : u.holdV = false) (hhigh : 128 ≤ u.fetchedLength.toNat)
    (hmax : u.fetchedLength.toNat ≠ 0xFF) : u.round.holdV = true ∧ u.round.holdN = u.fetchedLength := by
  have hne : u.fetchedLength ≠ 0xFF#8 := fun h => hmax (congrArg BitVec.toNat h)
  obtain ⟨hholder, hstash⟩ := pairStep_holder u.advance u.fetchedColour u.fetchedLength
  have hstashes : (!(u.advance.holdV && u.fetchedColour == u.advance.holdC) && u.fetchedLength != 0xFF#8
      && (u.fetchedLength &&& 0x80#8 != 0#8)) = true := by
    simp [hnone, hne, (high_bit_iff _).mpr hhigh]
  exact ⟨hholder.trans hstashes, (hstash hstashes).2⟩

/-! ### What is derived from one written byte -/

/-- Of the `m` pairs left no byte from offset `o` on is written. -/
def State.UnwrittenFrom (u : State) (o m : Nat) : Prop :=
  ∀ i, o ≤ i → i < u.rdptr.toNat + 2 * m → u.written i = false

/-- Only the colour byte of the next pair is written of the `m + 1` pairs left. -/
structure ColourWritten (m : Nat) (u : State) : Prop where
  room : u.rdptr.toNat + 2 * (m + 1) < 2 ^ 32
  colour : u.written u.rdptr.toNat = true
  rest : u.UnwrittenFrom (u.rdptr.toNat + 1) (m + 1)

namespace ColourWritten

variable {m last : Nat} {u : State} (h : ColourWritten m u)
include h

theorem code : u.written (u.rdptr.toNat + 1) = false := h.rest _ (Nat.le_refl _) (by omega)

theorem rdptr_round : u.round.rdptr.toNat = u.rdptr.toNat + 2 := pairStep_rdptr_toNat u (by have := h.room; omega)

theorem room_round : u.round.rdptr.toNat + 2 * m < 2 ^ 32 := by have := h.room; rw [h.rdptr_round]; omega

theorem rest_round : u.round.UnwrittenFrom u.round.rdptr.toNat m := by
  intro i hlo hhi
  rw [h.rdptr_round] at hlo hhi
  rw [written_round]
  exact h.rest i (by omega) (by omega)

theorem wayWritten : u.wayWritten false = u.holdV := by
  rw [State.wayWritten, h.colour, Bool.or_true, Bool.and_true]

/-- Where no CONT is in question, or the pair is a RUN: the sure pixels, and what is derived from then on. -/
theorem derived_of_kept (hkept : u.holdV = false ∨ u.fetchedLength.toNat ≤ 0x7F) :
    State.derivedLoop last (m + 1) false u
      = pixelSpan last (u.cursor.toNat + u.heldLen) (u.sureLen false) :: State.derivedLoop last m true u.round := by
  refine derivedLoop_colour h.colour (Bool.eq_false_iff.mpr fun hlost => ?_)
  obtain ⟨hway, hhigh⟩ := (placeLost_iff false h.code).mp hlost
  rw [h.wayWritten] at hway
  rcases hkept with hnone | hrun
  · rw [hnone] at hway; cases hway
  · omega

/-- From the colour byte of a RUN, or of a MAXRUN with no holder pending: the pixels of its colour. -/
theorem derived_of_emits (hcursor : u.cursor.toNat ≤ u.npix) (hle : u.round.cursor.toNat ≤ last) (hlast : last ≤ u.npix)
    (hcase : u.fetchedLength.toNat ≤ 0x7F ∨ u.holdV = false ∧ u.fetchedLength.toNat = 0xFF) (x : Nat) :
    Covers (State.derivedLoop last (m + 1) false u) x
      ↔ 4 * (u.cursor.toNat + u.heldLen) ≤ x ∧ x < 4 * u.round.cursor.toNat := by
  obtain ⟨hlen, hnone⟩ := round_of_emits h.code hcase
  have hround := round_cursor hcursor
  have hquiet : State.derivedLoop last m true u.round = [] :=
    derivedLoop_quiet last m true _ h.room_round h.rest_round (by rw [hnone]; rfl)
  rw [h.derived_of_kept (hcase.symm.imp_left (·.1)), hquiet, covers_pixelSpan_cons, iff_false_intro (covers_nil x), or_false]
  omega

/-- From that of a MAXRUN or HOLD while a holder pends: all that follows the holder's pixels. -/
theorem derived_of_lost (hv : u.holdV = true) (hhigh : 0x80 ≤ u.fetchedLength.toNat) (x : Nat) :
    Covers (State.derivedLoop last (m + 1) false u) x ↔ 4 * (u.cursor.toNat + u.heldLen) ≤ x ∧ x < 4 * last := by
  have hlost : u.placeLost false = true := (placeLost_iff false h.code).mpr ⟨h.wayWritten.trans hv, hhigh⟩
  have hloop : State.derivedLoop last (m + 1) false u = [pixelSpan last (u.cursor.toNat + u.heldLen) (u.sureLen false),
      pixelSpan last (u.cursor.toNat + u.heldLen + u.sureLen false) last] := by
    simp [State.derivedLoop, h.colour, hlost]
  rw [hloop]
  simp only [covers_pixelSpan_cons, covers_nil, or_false]
  omega

/-- From that of a HOLD with no holder pending: what is derived from then on. -/
theorem derived_of_stash (hnone : u.holdV = false) (hhigh : 0x80 ≤ u.fetchedLength.toNat)
    (hmax : u.fetchedLength.toNat ≠ 0xFF) (x : Nat) : Covers (State.derivedLoop last (m + 1) false u) x
      ↔ Covers (State.derivedLoop last m true u.round) x := by
  rw [h.derived_of_kept (.inl hnone), covers_pixelSpan_cons, sureLen_hold false h.code hhigh hmax]
  have hempty : ¬(4 * (u.cursor.toNat + u.heldLen) ≤ x ∧ x < 4 * min (u.cursor.toNat + u.heldLen + 0) last) := by omega
  rw [iff_false_intro hempty, false_or]

end ColourWritten

/-- A holder of a written colour is pending, and of the `m` pairs left no byte is written. -/
structure HeldWritten (m : Nat) (v : State) : Prop where
  holds : v.holdV = true
  room : v.rdptr.toNat + 2 * m < 2 ^ 32
  rest : v.UnwrittenFrom v.rdptr.toNat m

theorem ColourWritten.heldWritten {m : Nat} {u : State} (h : ColourWritten m u) (hnone : u.holdV = false)
    (hhigh : 0x80 ≤ u.fetchedLength.toNat) (hmax : u.fetchedLength.toNat ≠ 0xFF) : HeldWritten m u.round :=
  ⟨(round_of_stash hnone hhigh hmax).1, h.room_round, h.rest_round⟩

namespace HeldWritten

/-- At the end of the stream: all that TAIL emits. -/
theorem derived_last {last : Nat} {v : State} (h : HeldWritten 0 v) (x : Nat) :
    Covers (State.derivedLoop last 0 true v) x ↔ 4 * v.cursor.toNat ≤ x ∧ x < 4 * last := by
  have hloop : State.derivedLoop last 0 true v = [pixelSpan last v.cursor.toNat last] := by
    simp [State.derivedLoop, h.holds]
  rw [hloop, covers_pixelSpan_cons, iff_false_intro (covers_nil x), or_false]
  omega

variable {m last : Nat} {v : State} (h : HeldWritten (m + 1) v)
include h

theorem colour : v.written v.rdptr.toNat = false := h.rest _ (Nat.le_refl _) (by omega)

theorem code : v.written (v.rdptr.toNat + 1) = false := h.rest _ (by omega) (by omega)

/-- Before a RUN: the holder's pixels. -/
theorem derived_run (hrun : v.fetchedLength.toNat ≤ 0x7F) (x : Nat) :
    Covers (State.derivedLoop last (m + 1) true v) x
      ↔ 4 * v.cursor.toNat ≤ x ∧ x < 4 * min (v.cursor.toNat + v.heldLen) last := by
  have hkept : v.placeLost true = false := Bool.eq_false_iff.mpr fun hlost => by
    have := ((placeLost_iff true h.code).mp hlost).2
    omega
  have hroom := h.room
  have hrdptr : v.round.rdptr.toNat = v.rdptr.toNat + 2 := pairStep_rdptr_toNat v (by omega)
  have hquiet : State.derivedLoop last m false v.round = [] := by
    refine derivedLoop_quiet last m false _ (by omega) (fun i hlo hhi => ?_) (Bool.and_false _)
    rw [written_round]
    exact h.rest i (by omega) (by omega)
  have hloop : State.derivedLoop last (m + 1) true v = [pixelSpan last v.cursor.toNat v.heldLen] := by
    rw [State.round] at hquiet
    simp [State.derivedLoop, h.holds, h.colour, hkept, hquiet]
  rw [hloop, covers_pixelSpan_cons, iff_false_intro (covers_nil x), or_false]

/-- Before a MAXRUN or HOLD: the holder's pixels, and all after the sure ones of that pair. -/
theorem derived_lost (hhigh : 0x80 ≤ v.fetchedLength.toNat) (x : Nat) :
    Covers (State.derivedLoop last (m + 1) true v) x
      ↔ 4 * v.cursor.toNat ≤ x ∧ x < 4 * min (v.cursor.toNat + v.heldLen) last
        ∨ 4 * (v.cursor.toNat + v.heldLen + v.sureLen true) ≤ x ∧ x < 4 * last := by
  have hway : v.wayWritten true = true := by rw [State.wayWritten, h.holds]; rfl
  have hlost : v.placeLost true = true := (placeLost_iff true h.code).mpr ⟨hway, hhigh⟩
  have hloop : State.derivedLoop last (m + 1) true v = [pixelSpan last v.cursor.toNat v.heldLen,
      pixelSpan last (v.cursor.toNat + v.heldLen + v.sureLen true) last] := by
    simp [State.derivedLoop, h.holds, h.colour, hlost]
  rw [hloop]
  simp only [covers_pixelSpan_cons, covers_nil, or_false]
  omega

/-- Before a HOLD: all from the holder's pixels on. -/
theorem derived_hold (hhigh : 0x80 ≤ v.fetchedLength.toNat) (hmax : v.fetchedLength.toNat ≠ 0xFF) (x : Nat) :
    Covers (State.derivedLoop last (m + 1) true v) x ↔ 4 * v.cursor.toNat ≤ x ∧ x < 4 * last := by
  rw [h.derived_lost hhigh, sureLen_hold true h.code hhigh hmax]
  omega

/-- Before a MAXRUN: the holder's pixels, and all but the 256 that come after them in any case. -/
theorem derived_maxrun (hmax : v.fetchedLength.toNat = 0xFF) (x : Nat) :
    Covers (State.derivedLoop last (m + 1) true v) x
      ↔ 4 * v.cursor.toNat ≤ x ∧ x < 4 * min (v.cursor.toNat + v.heldLen) last
        ∨ 4 * (v.cursor.toNat + v.heldLen + 256) ≤ x ∧ x < 4 * last := by
  rw [h.derived_lost (by omega), sureLen_maxrun true h.code hmax, if_pos h.holds]

end HeldWritten

/-! ### One written byte of a stream -/

/-- The DECODE of the stream of `s` before its pair `k`. -/
def State.atPair (s : State) (k : Nat) : State := State.pairLoop k s.decodeInit

/-- The bytes of LBUF that count as derived from the range `w` of CBUF in a DECODE that ends at `last`. -/
def State.DerivedFrom (s : State) (last : Nat) (w : Span) (x : Nat) : Prop :=
  Covers ((s.withTampered [w]).derivedSpans last) x

/-- Offset `o` of the stream of `s` lies in the range `w` of CBUF. -/
def State.InSpan (s : State) (w : Span) (o : Nat) : Prop :=
  w.base ≤ s.srcAddr.toNat + o ∧ s.srcAddr.toNat + o < w.base + w.len

theorem atPair_succ (s : State) (k : Nat) : s.atPair (k + 1) = (s.atPair k).round := pairLoop_succ k s.decodeInit

section
variable (s : State) (k : Nat)

theorem atPair_rdptr (hk : 2 * k ≤ s.srcLen.toNat) : (s.atPair k).rdptr.toNat = 2 * k := by
  have hlen := s.srcLen.isLt
  have hrdptr := pairLoop_rdptr k s.decodeInit (by show 0 + _ < _; omega)
  exact hrdptr.trans (Nat.zero_add _)

theorem atPair_npix : (s.atPair k).npix = s.npix := (DecoderOnly.pairLoop k s.decodeInit).npix

theorem atPair_cursor_le : (s.atPair k).cursor.toNat ≤ s.npix := pairLoop_cursor_le k s.decodeInit (Nat.zero_le _)

theorem written_atPair (w : Span) (o : Nat) : ((s.atPair k).withTampered [w]).written o = true ↔ s.InSpan w o := by
  obtain ⟨-, -, -, haddr, -⟩ := (DecoderOnly.pairLoop k s.decodeInit).same
  have haddr' : ((s.atPair k).withTampered [w]).srcAddr = s.srcAddr := haddr
  rw [State.written, haddr']
  simp [State.withTampered, State.InSpan]

end

section
variable {s : State} {last k m : Nat}

/-- What is derived, if no byte before pair `k` is written. -/
theorem derivedFrom_iff {w : Span} (hlen : s.srcLen.toNat / 2 = k + m) (hbefore : ∀ o < 2 * k, ¬s.InSpan w o) (x : Nat) :
    s.DerivedFrom last w x ↔ Covers (State.derivedLoop last m false ((s.atPair k).withTampered [w])) x := by
  have hlt := s.srcLen.isLt
  have hskip := derivedLoop_skip last k m (s.decodeInit.withTampered [w]) (by show 0 + _ < _; omega)
    fun o _ ho => Bool.eq_false_iff.mpr fun hw => hbefore o (by change o < 0 + 2 * k at ho; omega)
      ((written_atPair s 0 w o).mp hw)
  rw [State.DerivedFrom, derivedSpans_withTampered, hlen, hskip, State.withTampered_pairLoop]
  rfl

/-- From bytes of no whole pair nothing is derived. -/
theorem not_derivedFrom {w : Span} (hout : ∀ o < 2 * (s.srcLen.toNat / 2), ¬s.InSpan w o) (x : Nat) :
    ¬s.DerivedFrom last w x := by
  rw [derivedFrom_iff (k := s.srcLen.toNat / 2) (m := 0) rfl hout]
  have hnone : State.derivedLoop last 0 false ((s.atPair (s.srcLen.toNat / 2)).withTampered [w]) = [] := by
    simp [State.derivedLoop]
  rw [hnone]
  exact covers_nil x

/-- From the length code of pair `k`: all that follows the holder's pixels, but for the one that CONT emits anyway. -/
theorem derivedFrom_code (hlen : s.srcLen.toNat / 2 = k + (m + 1)) (x : Nat) :
    s.DerivedFrom last ⟨s.srcAddr.toNat + 2 * k + 1, 1⟩ x ↔
      4 * ((s.atPair k).cursor.toNat + (s.atPair k).heldLen
        + if (s.atPair k).holdV = true ∧ (s.atPair k).fetchedColour = (s.atPair k).holdC then 1 else 0) ≤ x
      ∧ x < 4 * last := by
  set w : Span := ⟨s.srcAddr.toNat + 2 * k + 1, 1⟩ with hw
  set u := (s.atPair k).withTampered [w] with hu
  have hin (o : Nat) : u.written o = true ↔ o = 2 * k + 1 := by
    rw [hu, written_atPair, State.InSpan, hw]
    dsimp only
    omega
  have hrdptr : u.rdptr.toNat = 2 * k := atPair_rdptr s k (by omega)
  have hcode : u.written (u.rdptr.toNat + 1) = true := (hin _).mpr (by rw [hrdptr])
  have hcolour : u.written u.rdptr.toNat = false := Bool.eq_false_iff.mpr fun h => by
    have := (hin _).mp h
    omega
  have hlost : u.placeLost false = true := by rw [State.placeLost, hcode, Bool.true_or]
  have hsure : u.sureLen false = if (s.atPair k).holdV = true ∧ (s.atPair k).fetchedColour = (s.atPair k).holdC
      then 1 else 0 := by
    show u.sureLen false = if u.holdV = true ∧ u.fetchedColour = u.holdC then 1 else 0
    rw [State.sureLen, hcode, if_pos rfl, State.wayWritten, hcolour]
    simp
  have hbefore (o : Nat) (ho : o < 2 * k) : ¬s.InSpan w o := fun hin' => by
    have := (hin o).mp ((written_atPair ..).mpr hin')
    omega
  rw [derivedFrom_iff hlen hbefore, derivedLoop_length hcolour hlost, covers_pixelSpan_cons,
    iff_false_intro (covers_nil x), or_false, hsure]
  show 4 * ((s.atPair k).cursor.toNat + (s.atPair k).heldLen + _) ≤ x
    ∧ x < 4 * min ((s.atPair k).cursor.toNat + (s.atPair k).heldLen + _ + last) last ↔ _
  omega

end

/-! ### The colour byte of one pair -/

/-- The colour byte of pair `k`. -/
def State.colourSpan (s : State) (k : Nat) : Span := ⟨s.srcAddr.toNat + 2 * k, 1⟩

/-- The DECODE of `s` before pair `j`, the colour byte of pair `k` being written. -/
def State.markedAt (s : State) (k j : Nat) : State := (s.atPair j).withTampered [s.colourSpan k]

theorem markedAt_round (s : State) (k j : Nat) : (s.markedAt k j).round = s.markedAt k (j + 1) := by
  rw [State.markedAt, State.withTampered_round, ← atPair_succ, State.markedAt]

section
variable {s : State} {last k m : Nat} (hlen : s.srcLen.toNat / 2 = k + (m + 1))
include hlen

theorem colourWritten_markedAt : ColourWritten m (s.markedAt k k) := by
  have hlt := s.srcLen.isLt
  have hrdptr : (s.markedAt k k).rdptr.toNat = 2 * k := atPair_rdptr s k (by omega)
  refine ⟨by omega, (written_atPair ..).mpr ?_, fun i hlo _ => Bool.eq_false_iff.mpr fun hw => ?_⟩
  · rw [hrdptr]; exact ⟨Nat.le_refl _, Nat.lt_succ_self _⟩
  · have hi : s.srcAddr.toNat + i < s.srcAddr.toNat + 2 * k + 1 := ((written_atPair ..).mp hw).2
    omega

theorem derivedFrom_colour (x : Nat) : s.DerivedFrom last (s.colourSpan k) x ↔
    Covers (State.derivedLoop last (m + 1) false (s.markedAt k k)) x := by
  refine derivedFrom_iff hlen (fun o _ hin => ?_) x
  have hlo : s.srcAddr.toNat + 2 * k ≤ s.srcAddr.toNat + o := hin.1
  omega

/-- From the colour byte of a RUN, or of a MAXRUN with no holder pending: the pixels of its colour. -/
theorem derivedFrom_colour_of_emits (hle : (s.atPair (k + 1)).cursor.toNat ≤ last) (hlast : last ≤ s.npix)
    (hcase : (s.atPair k).fetchedLength.toNat ≤ 0x7F
      ∨ (s.atPair k).holdV = false ∧ (s.atPair k).fetchedLength.toNat = 0xFF) (x : Nat) :
    s.DerivedFrom last (s.colourSpan k) x ↔
      4 * ((s.atPair k).cursor.toNat + (s.atPair k).heldLen) ≤ x ∧ x < 4 * (s.atPair (k + 1)).cursor.toNat := by
  have hnpix : (s.markedAt k k).npix = s.npix := atPair_npix s k
  have hemits := (colourWritten_markedAt hlen).derived_of_emits (last := last)
    (hnpix ▸ atPair_cursor_le s k) (by rw [markedAt_round]; exact hle) (hnpix ▸ hlast) hcase x
  rw [markedAt_round] at hemits
  exact (derivedFrom_colour hlen x).trans hemits

/-- From that of a MAXRUN or HOLD while a holder pends: all that follows the holder's pixels. -/
theorem derivedFrom_colour_of_lost (hv : (s.atPair k).holdV = true) (hhigh : 0x80 ≤ (s.atPair k).fetchedLength.toNat)
    (x : Nat) : s.DerivedFrom last (s.colourSpan k) x ↔
      4 * ((s.atPair k).cursor.toNat + (s.atPair k).heldLen) ≤ x ∧ x < 4 * last :=
  (derivedFrom_colour hlen x).trans ((colourWritten_markedAt hlen).derived_of_lost hv hhigh x)

/-- After a HOLD with no holder pending its colour is held, and from it is derived what the held colour leads to. -/
theorem derivedFrom_colour_of_stash (hnone : (s.atPair k).holdV = false)
    (hhigh : 0x80 ≤ (s.atPair k).fetchedLength.toNat) (hmax : (s.atPair k).fetchedLength.toNat ≠ 0xFF) :
    HeldWritten m (s.markedAt k (k + 1))
    ∧ (s.markedAt k (k + 1)).heldLen = (((s.atPair k).fetchedLength &&& 0x7F#8).toNat + 1) * 128
    ∧ ∀ x, s.DerivedFrom last (s.colourSpan k) x ↔
        Covers (State.derivedLoop last m true (s.markedAt k (k + 1))) x := by
  have hwritten := colourWritten_markedAt hlen
  have hheld := hwritten.heldWritten hnone hhigh hmax
  have hcode := (round_of_stash (u := s.markedAt k k) hnone hhigh hmax).2
  have hderived := hwritten.derived_of_stash (last := last) hnone hhigh hmax
  rw [markedAt_round] at hheld hcode
  simp only [markedAt_round] at hderived
  refine ⟨hheld, ?_, fun x => (derivedFrom_colour hlen x).trans (hderived x)⟩
  rw [State.heldLen_eq, if_pos hheld.holds, hcode]
  rfl

end

/-- Settles O57: two decoders that agree off the written ranges emit alike what is not derived; and one written byte is
met by one round of the loop, after which nothing more is written. -/
theorem derivedBytesCoverDependence : Obligations.DerivedBytesCoverDependence := by
  unfold Obligations.DerivedBytesCoverDependence
  refine ⟨fun s1 s2 t1 t2 rs hcfg hsteps hw hh haddr hlen hcheck hbytes h1 h2 x hx hfree =>
    decode_underived_eq hcfg hsteps hw hh haddr hlen hcheck hbytes h1 h2 hx hfree, ?_⟩
  intro s k last hk u v derived n next held b colour length hle hlast
  obtain ⟨m, hm⟩ : ∃ m, s.srcLen.toNat / 2 = k + (m + 1) := ⟨s.srcLen.toNat / 2 - k - 1, by omega⟩
  have hb : (s.atPair k).cursor.toNat + (s.atPair k).heldLen = b := by rw [State.heldLen_eq]; rfl
  have hlength (x : Nat) : length x ↔
      4 * (b + if u.holdV = true ∧ u.fetchedColour = u.holdC then 1 else 0) ≤ x ∧ x < 4 * last := by
    rw [← hb]; exact derivedFrom_code hm x
  refine ⟨fun hcase x => ?_, fun hv hhigh x => ?_, fun hnone hhigh hmax x => ?_, fun hother x => ?_,
    fun hv hsame x => ?_, fun w hout => not_derivedFrom hout⟩
  · rw [← hb]; exact derivedFrom_colour_of_emits hm hle hlast hcase x
  · rw [← hb]; exact derivedFrom_colour_of_lost hm hv hhigh x
  · intro e
    obtain ⟨hheld, hheldLen, hderived⟩ := derivedFrom_colour_of_stash hm (last := last) hnone hhigh
      (by show n ≠ _; omega)
    have hcolour : colour x ↔ _ := hderived x
    have he : e = (s.markedAt k (k + 1)).cursor.toNat + (s.markedAt k (k + 1)).heldLen := by rw [hheldLen]; rfl
    rw [hcolour, he]
    refine ⟨fun hend => ?_, fun hmore => ?_⟩
    · obtain rfl : m = 0 := by omega
      exact hheld.derived_last x
    · obtain ⟨m, rfl⟩ : ∃ m', m = m' + 1 := ⟨m - 1, by omega⟩
      exact ⟨fun hrun => hheld.derived_run hrun x,
        fun hhigh hle => hheld.derived_hold hhigh (by show next ≠ _; omega) x,
        fun hmax => hheld.derived_maxrun hmax x⟩
  · rw [hlength, if_neg hother, Nat.add_zero]
  · rw [hlength, if_pos ⟨hv, hsame⟩]

end Sys2Proof.Machine
end
